-- ==== Sys2Proof/Word.lean ====
section
/-! DEFINITION. The word types of the block (R9, R10, R70): registers and operands are 32 bits, memory cells are
bytes, a command is one 40-bit word. -/

namespace Sys2Proof

/-- A 32-bit register, operand or response value (R9, R71, R73). -/
abbrev Word := BitVec 32

/-- One byte of DST, ENC or the encoded stream (R34, R35). -/
abbrev Byte := BitVec 8

/-- One command word `cmd[39:0]` (R70). -/
abbrev CmdWord := BitVec 40

end Sys2Proof
end

