-- ==== Sys2Proof/Config.lean ====
section
/-! DEFINITION. What the implementation fixes: the constants of R7, the parameters of R8, and the free values the
memories come up with (R231, I6). -/

namespace Sys2Proof

/-- `MARKER_BYTES` in wire order (R7, R100). -/
def markerBytes : List Byte := [0xDA, 0xB8, 0xFE, 0xCA]

/-- `MARKER_WORD`, the four bytes read as a little-endian 32-bit value (R7, R100). -/
def markerWord : Word := 0xCAFEB8DA

/-- `OFFSET_MAX = 2^30 - 1` (R7; C5 settles the width). -/
def offsetMax : Nat := 0x3FFFFFFF

/-- `FIELD_BYTES`: the size of the head Offset, of a chain link and of the Marker (R7). -/
def fieldBytes : Nat := 4

/-- `OVERHEAD`: bytes added to a payload by a frame (R7). -/
def overhead : Nat := 8

/-- The parameters of R8. No size is given by the spec (D21, OPEN): every claim about all states holds for every value. -/
structure Params where
  /-- `DST_SIZE`: byte size of DST. -/
  dstSize : Nat
  /-- `ENC_SIZE`: byte size of ENC. -/
  encSize : Nat
  /-- `MAX_FRAME`: the largest payload the integration expects, "never read by any rule". -/
  maxFrame : Nat
deriving DecidableEq, Repr

/-- The parameters `State.reset` is built with. DESIGN CHOICE (log 3): the spec leaves them open; 64 and 64 are the sizes
its own vectors use (file 95), 56 is the largest payload that meets R233 with them. Unsafe for a claim that rests on them. -/
def Config.params : Params := { dstSize := 64, encSize := 64, maxFrame := 56 }

/-- The byte DST holds at an index nothing has written (R231, I6: "any value"). A free value: the first argument is the
state's `powerOn`, the second the index (log 2). -/
opaque Config.dstFree : Nat → Nat → Byte

/-- The byte ENC holds at an index nothing has written (R231, I6). A free value (log 2). -/
opaque Config.encFree : Nat → Nat → Byte

end Sys2Proof
end

