-- ==== Sys2Proof/Syntax.lean ====
section
/-! DEFINITION. The commands of the block (R74), their operand forms (R72), the raw command (R70) and the opcode table
as rows (R74, R79, `opcode_table.json`). -/

namespace Sys2Proof

/-- The operand forms of R72. -/
inductive Form where
  /-- a 32-bit operand, no reserved bits -/
  | v32
  /-- a byte operand `arg[7:0]`, `arg[31:8]` reserved -/
  | b8
  /-- no operand, all of `arg` reserved -/
  | z
deriving DecidableEq, Repr

/-- One command with its operand; one constructor per row of the opcode table (R74). -/
inductive Instr where
  /-- `ENC_OFFSET v` (R107) -/
  | encOffset (v : Word)
  /-- `DEC_OFFSET v` (R108) -/
  | decOffset (v : Word)
  /-- `SCAN_SETW v` (R121) -/
  | scanSetw (v : Word)
  /-- `SCAN_GETW` (R122) -/
  | scanGetw
  /-- `SCAN_START` (R123) -/
  | scanStart
  /-- `SCAN_BYTE b` (R124) -/
  | scanByte (b : Byte)
  /-- `DEC_INIT cap` (R161) -/
  | decInit (cap : Word)
  /-- `DEC_INGEST b` (R163) -/
  | decIngest (b : Byte)
  /-- `DEC_STATUS` (R178) -/
  | decStatus
  /-- `DEC_LAST` (R179) -/
  | decLast
  /-- `ENC_FRAME len` (R142) -/
  | encFrame (len : Word)
deriving DecidableEq, Repr

/-- A command word split into its two fields (R70), before it is known to be a command at all. -/
structure Command where
  /-- `cmd[39:32]` -/
  opcode : Byte
  /-- `cmd[31:0]` -/
  arg : Word
deriving DecidableEq, Repr

/-- One row of R74's table. -/
structure Row where
  mnemonic : String
  opcode : Byte
  form : Form
deriving DecidableEq, Repr

/-- The assigned opcodes, in the order of R74. -/
def opcodeTable : List Row :=
  [ ⟨"ENC_OFFSET", 0x01, .v32⟩,
    ⟨"DEC_OFFSET", 0x02, .v32⟩,
    ⟨"SCAN_SETW", 0x10, .v32⟩,
    ⟨"SCAN_GETW", 0x11, .z⟩,
    ⟨"SCAN_START", 0x12, .z⟩,
    ⟨"SCAN_BYTE", 0x13, .b8⟩,
    ⟨"DEC_INIT", 0x20, .v32⟩,
    ⟨"DEC_INGEST", 0x21, .b8⟩,
    ⟨"DEC_STATUS", 0x22, .z⟩,
    ⟨"DEC_LAST", 0x23, .z⟩,
    ⟨"ENC_FRAME", 0x30, .v32⟩ ]

/-- The reserved bits of `arg` in a form, as a mask: they must be 0 (R72). -/
def Form.reservedMask : Form → Word
  | .v32 => 0x00000000
  | .b8 => 0xFFFFFF00
  | .z => 0xFFFFFFFF

/-- A row's `match` value, 40 bits (R79). -/
def Row.matchWord (r : Row) : CmdWord := r.opcode ++ (0 : Word)

/-- A row's `mask`, 40 bits: the opcode and the form's reserved bits (R79). -/
def Row.maskWord (r : Row) : CmdWord := (0xFF : Byte) ++ r.form.reservedMask

/-- A word selects a row when `(cmd & mask) = match` (R79). -/
def Row.selects (r : Row) (w : CmdWord) : Bool := w &&& r.maskWord == r.matchWord

/-- The row of a command (R74). -/
def Instr.row : Instr → Row
  | .encOffset _ => ⟨"ENC_OFFSET", 0x01, .v32⟩
  | .decOffset _ => ⟨"DEC_OFFSET", 0x02, .v32⟩
  | .scanSetw _ => ⟨"SCAN_SETW", 0x10, .v32⟩
  | .scanGetw => ⟨"SCAN_GETW", 0x11, .z⟩
  | .scanStart => ⟨"SCAN_START", 0x12, .z⟩
  | .scanByte _ => ⟨"SCAN_BYTE", 0x13, .b8⟩
  | .decInit _ => ⟨"DEC_INIT", 0x20, .v32⟩
  | .decIngest _ => ⟨"DEC_INGEST", 0x21, .b8⟩
  | .decStatus => ⟨"DEC_STATUS", 0x22, .z⟩
  | .decLast => ⟨"DEC_LAST", 0x23, .z⟩
  | .encFrame _ => ⟨"ENC_FRAME", 0x30, .v32⟩

end Sys2Proof
end

