-- ==== Sys2Proof/WellFormed.lean ====
section
/-! DEFINITION. Well-formedness: of a raw command (R70 to R72, R76, R77), of a command with its operand (its operand
fits its row's form), and of the parameters (R8). -/

namespace Sys2Proof

/-- The opcode is assigned (R74, R77). -/
def Command.assigned (c : Command) : Bool := opcodeTable.any fun r => r.opcode == c.opcode

/-- No reserved bit of `arg` is set, in the form of the opcode's row (R72, R76). -/
def Command.reservedClear (c : Command) : Bool :=
  opcodeTable.all fun r => r.opcode != c.opcode || c.arg &&& r.form.reservedMask == 0

/-- A raw command that R74 and R72 give a meaning to. -/
def Command.wellFormed (c : Command) : Bool := c.assigned && c.reservedClear

/-- The raw command of a command: its row's opcode, and its operand with the reserved bits 0 (R71, R86). -/
def Instr.command (i : Instr) : Command :=
  ⟨i.row.opcode,
    match i with
    | .encOffset v => v
    | .decOffset v => v
    | .scanSetw v => v
    | .scanGetw => 0
    | .scanStart => 0
    | .scanByte b => b.setWidth 32
    | .decInit cap => cap
    | .decIngest b => b.setWidth 32
    | .decStatus => 0
    | .decLast => 0
    | .encFrame len => len⟩

/-- A command is well-formed when its raw command is. Operands are typed by width, so every term of `Instr` is; the
lemmas are those of `Sys2Proof.Laws.EncodingSelectsRow`. -/
def Instr.wellFormed (i : Instr) : Bool := i.command.wellFormed

/-- `8 <= DST_SIZE <= 2^31` (R8, D21). -/
def Params.dstSizeLegal (p : Params) : Bool := decide (8 ≤ p.dstSize ∧ p.dstSize ≤ 2 ^ 31)

/-- `8 <= ENC_SIZE <= 2^31` (R8, D21). -/
def Params.encSizeLegal (p : Params) : Bool := decide (8 ≤ p.encSize ∧ p.encSize ≤ 2 ^ 31)

/-- `0 <= MAX_FRAME <= OFFSET_MAX` (R8). -/
def Params.maxFrameLegal (p : Params) : Bool := decide (p.maxFrame ≤ offsetMax)

/-- The legal ranges of R8, together. -/
def Params.wellFormed (p : Params) : Bool := p.dstSizeLegal && p.encSizeLegal && p.maxFrameLegal

end Sys2Proof
end

