-- ==== Sys2Proof/Decode.lean ====
section
/-! DEFINITION. Decoding of command words (R70 to R79), the encoder, and assembler lines (R86). -/

namespace Sys2Proof

/-- Why a word is no command. Both give the same response (R78); a rejected word is data, not a fault. -/
inductive Reject where
  /-- the opcode is not in R74's table (R77) -/
  | unassignedOpcode
  /-- a reserved bit of `arg` is set (R76) -/
  | reservedBits
deriving DecidableEq, Repr

/-- `cmd[39:32]` (R70). -/
def opcodeOf (w : CmdWord) : Byte := w.extractLsb' 32 8

/-- `cmd[31:0]` (R70). -/
def argOf (w : CmdWord) : Word := w.extractLsb' 0 32

/-- Form V32: the operand is `arg` itself (R71, R72). -/
def readV32 (mk : Word → Instr) (arg : Word) : Except Reject Instr := .ok (mk arg)

/-- Form B8: the operand is `arg[7:0]`, and `arg[31:8]` must be 0 (R71, R72, R76). -/
def readB8 (mk : Byte → Instr) (arg : Word) : Except Reject Instr :=
  if arg.extractLsb' 8 24 = 0 then .ok (mk (arg.extractLsb' 0 8)) else .error .reservedBits

/-- Form Z: no operand, and all of `arg` must be 0 (R72, R76). -/
def readZ (i : Instr) (arg : Word) : Except Reject Instr :=
  if arg = 0 then .ok i else .error .reservedBits

/-- The command of an opcode and an operand field, in the order of R78: the opcode first, then the reserved bits. The
operand check of R75 is the command's own. -/
def decodeFields (opcode : Byte) (arg : Word) : Except Reject Instr :=
  match opcode.toNat with
  | 0x01 => readV32 .encOffset arg
  | 0x02 => readV32 .decOffset arg
  | 0x10 => readV32 .scanSetw arg
  | 0x11 => readZ .scanGetw arg
  | 0x12 => readZ .scanStart arg
  | 0x13 => readB8 .scanByte arg
  | 0x20 => readV32 .decInit arg
  | 0x21 => readB8 .decIngest arg
  | 0x22 => readZ .decStatus arg
  | 0x23 => readZ .decLast arg
  | 0x30 => readV32 .encFrame arg
  | _ => .error .unassignedOpcode

/-- The decoder, total on the `2^40` words (R79). -/
def decode (w : CmdWord) : Except Reject Instr := decodeFields (opcodeOf w) (argOf w)

/-- The 40-bit word `{opcode, arg}` of a command, reserved bits 0 (R70, R86). -/
def encode : Instr → CmdWord
  | .encOffset v => (0x01 : Byte) ++ v
  | .decOffset v => (0x02 : Byte) ++ v
  | .scanSetw v => (0x10 : Byte) ++ v
  | .scanGetw => (0x11 : Byte) ++ (0 : Word)
  | .scanStart => (0x12 : Byte) ++ (0 : Word)
  | .scanByte b => (0x13 : Byte) ++ b.setWidth 32
  | .decInit cap => (0x20 : Byte) ++ cap
  | .decIngest b => (0x21 : Byte) ++ b.setWidth 32
  | .decStatus => (0x22 : Byte) ++ (0 : Word)
  | .decLast => (0x23 : Byte) ++ (0 : Word)
  | .encFrame len => (0x30 : Byte) ++ len

/-- The instruction of a table word. A command is ONE 40-bit word (R70), so bit 0 of the table's number is bit 0 of `cmd`.
Bits from `nbits` up are 0; a number that does not fit in 40 bits is no command word. -/
def decodeTableWord (nbits w : Nat) : Option Instr :=
  if w % 2 ^ nbits < 2 ^ 40 then (decode (BitVec.ofNat 40 (w % 2 ^ nbits))).toOption else none

/-- The command word the host presents for a table word (used by `State.withFetchWord`). -/
def tableCommand (nbits w : Nat) : CmdWord := BitVec.ofNat 40 (w % 2 ^ nbits)

/-! ### Assembler lines (R86), as lists of characters -/

/-- The value of a hex digit, of either case (log 14). -/
def hexDigit (c : Char) : Option Nat :=
  if 48 ≤ c.toNat ∧ c.toNat ≤ 57 then some (c.toNat - 48)
  else if 65 ≤ c.toNat ∧ c.toNat ≤ 70 then some (c.toNat - 55)
  else if 97 ≤ c.toNat ∧ c.toNat ≤ 102 then some (c.toNat - 87)
  else none

/-- The value of a decimal digit. -/
def decimalDigit (c : Char) : Option Nat :=
  if 48 ≤ c.toNat ∧ c.toNat ≤ 57 then some (c.toNat - 48) else none

/-- A run of digits read after the number `acc`, most significant first. -/
def readDigits (base : Nat) (digit : Char → Option Nat) : List Char → Nat → Option Nat
  | [], acc => some acc
  | c :: cs, acc =>
    match digit c with
    | some d => readDigits base digit cs (acc * base + d)
    | none => none

/-- `<value>`: hex after `0x`, or decimal; at least one digit. -/
def readValue : List Char → Option Nat
  | '0' :: 'x' :: c :: cs => readDigits 16 hexDigit (c :: cs) 0
  | c :: cs => readDigits 10 decimalDigit (c :: cs) 0
  | [] => none

/-- `<byte>`: `0x` and two hex digits. -/
def readByte : List Char → Option Nat
  | ['0', 'x', c1, c0] => readDigits 16 hexDigit [c1, c0] 0
  | _ => none

/-- The word of an opcode and the rest of the line after the mnemonic, in the opcode's form (R72, R86). -/
def assembleOperand (opcode : Byte) : Form → List Char → Option CmdWord
  | .v32, ' ' :: cs =>
    match readValue cs with
    | some v => if v < 2 ^ 32 then some (opcode ++ BitVec.ofNat 32 v) else none
    | none => none
  | .b8, ' ' :: cs =>
    match readByte cs with
    | some v => some (opcode ++ BitVec.ofNat 32 v)
    | none => none
  | .z, [] => some (opcode ++ (0 : Word))
  | _, _ => none

/-- Assembles a line (R86): the mnemonic, up to the first blank, names the row, which gives the opcode and the form. -/
def assemble (line : List Char) : Option CmdWord :=
  match opcodeTable.find? fun r => r.mnemonic.toList == line.takeWhile (· != ' ') with
  | some r => assembleOperand r.opcode r.form (line.dropWhile (· != ' '))
  | none => none

/-- The hex digit of a number below 16. -/
def hexChar (d : Nat) : Char := if d < 10 then Char.ofNat (48 + d) else Char.ofNat (55 + d)

/-- The `n` lowest hex digits of a number, most significant first. -/
def hexChars : Nat → Nat → List Char
  | 0, _ => []
  | n + 1, v => hexChar (v / 16 ^ n % 16) :: hexChars n v

/-- `MNEMONIC <value>` with the value in hex. -/
def lineV32 (m : String) (v : Word) : List Char := m.toList ++ ' ' :: '0' :: 'x' :: hexChars 8 v.toNat

/-- `MNEMONIC <byte>`. -/
def lineB8 (m : String) (b : Byte) : List Char := m.toList ++ ' ' :: '0' :: 'x' :: hexChars 2 b.toNat

/-- The line of a command (R86), its operand in hex. -/
def Instr.line : Instr → List Char
  | .encOffset v => lineV32 "ENC_OFFSET" v
  | .decOffset v => lineV32 "DEC_OFFSET" v
  | .scanSetw v => lineV32 "SCAN_SETW" v
  | .scanGetw => "SCAN_GETW".toList
  | .scanStart => "SCAN_START".toList
  | .scanByte b => lineB8 "SCAN_BYTE" b
  | .decInit cap => lineV32 "DEC_INIT" cap
  | .decIngest b => lineB8 "DEC_INGEST" b
  | .decStatus => "DEC_STATUS".toList
  | .decLast => "DEC_LAST".toList
  | .encFrame len => lineV32 "ENC_FRAME" len

end Sys2Proof
end

