-- ==== Sys2Proof/Machine/State.lean ====
section
/-! DEFINITION. The state of the block (file 10, R20 to R37), its inputs and outputs, the reasons a step can stop, and
the machine right after reset (R230, R231). Plain data throughout. -/

namespace Sys2Proof.Machine

/-- The five values of the 3-bit status registers (R25, R26, R30). Codes 5 to 7 are never written and have no value
here (log 13); `Status.code` gives the number. -/
inductive Status where
  /-- no error in the frame in progress -/
  | parsing
  /-- "destination capacity insufficient for the frame being reconstructed" -/
  | dstOverrun
  /-- "a decoded chain offset exceeds the representable bound" -/
  | offsetTooBig
  /-- the defensive walk check; reached by no input (R171, R204) -/
  | offsetOutOfBounds
  /-- "a chain offset points past the reconstructed frame's end" -/
  | offsetOdd
deriving DecidableEq, Repr

/-- The two byte memories (R50). -/
inductive MemId where
  | dst
  | enc
deriving DecidableEq, Repr

/-- What has been written to a byte memory: (index, byte) pairs, indices strictly rising. An index that is not listed
holds no WRITTEN byte; what it reads as is a free value (R231, I6; log 2). -/
abbrev Memory := List Host.Cell

/-- The response of a command (R73): 1, 1 and 32 bits. -/
structure Response where
  err : Bool
  flag : Bool
  value : Word
deriving DecidableEq, Repr

/-- A frame notification `FRAME(len, bytes)` (R33); the bytes are a copy. -/
structure FrameEvent where
  len : Word
  bytes : List Byte
deriving DecidableEq, Repr

/-- What the outside does to the block: the host's actions (R59, R86, R252) and hardware reset (R230). -/
inductive Input where
  /-- the host presents a command word (R22, R70) -/
  | command (w : CmdWord)
  /-- `HOST_WRITE M[a..a+|bs|) <- bs` (R52, R53, R86) -/
  | hostWrite (m : MemId) (a : Nat) (bs : List Byte)
  /-- `HOST_READ M[a..a+n)` (R52, R53, R86) -/
  | hostRead (m : MemId) (a n : Nat)
  /-- hardware reset (R230) -/
  | reset
deriving DecidableEq, Repr

/-- Why a step faults. -/
inductive Fault where
  /-- An access to an index at or beyond the size of DST or ENC, which names no byte (R50, R62, R63). Raised by a host
  access outside the memory; by a command only in a state no run reaches (R63). SAFE: the machine stops where the
  spec gives the access no meaning (log 6). -/
  | noSuchByte (m : MemId)
deriving DecidableEq, Repr

/-- Why a step has no meaning. -/
inductive Refusal where
  /-- An instruction with no meaning yet, by its mnemonic. Raised only by an arm of `exec`; no arm does. SAFE. -/
  | notModelled (mnemonic : String)
  /-- `refuse(ENC_OFFSET_RANGE)`: `ENC_OFFSET v` with `v > OFFSET_MAX` (R107, R210, I1). Raised by ENC_OFFSET. SAFE: the
  spec says the hardware may do anything. -/
  | encOffsetRange
  /-- `refuse(ENC_DISTANCE_RANGE)`: a chain distance above OFFSET_MAX (R141, R144, R210, I2). Raised by ENC_FRAME. SAFE:
  the spec leaves ENC and the response unspecified. -/
  | encDistanceRange
  /-- The run already reached a `refuse` outcome, so it "has no meaning" (R36, R252). Raised by a step from a state whose
  REFUSED is true. SAFE. -/
  | meaninglessRun
deriving DecidableEq, Repr

/-- Everything the spec gives the block (R37), its parameters (R8, R21), and the model's own record of the run (the last
five fields; INVENTORY.md, State). -/
structure State where
  /-- `SCN.W`, the scanner's rolling window (R23) -/
  scnW : Word
  /-- `SCN.P`, the scanner's position in the current invocation (R24) -/
  scnP : Word
  /-- `DEC.STATUS` (R25) -/
  decStatus : Status
  /-- `DEC.CUR`, the write cursor (R27) -/
  decCur : Word
  /-- `DEC.W`, the decoder's rolling window (R28) -/
  decW : Word
  /-- `DEC.CAP`, the capacity (R29) -/
  decCap : Word
  /-- `DEC.LAST`, the last frame's outcome (R30) -/
  decLast : Status
  /-- `FRAMES`, oldest first (R33) -/
  frames : List FrameEvent
  /-- `DST` (R34) -/
  dst : Memory
  /-- `ENC` (R35) -/
  enc : Memory
  /-- `REFUSED` (R36) -/
  refused : Bool
  /-- `DST_SIZE`, `ENC_SIZE`, `MAX_FRAME` (R8); no step writes them (log 3) -/
  params : Params
  /-- the responses of the run so far, oldest first (R73, R252) -/
  responses : List Response
  /-- what the host's reads returned so far, oldest first (R52, R53) -/
  hostReads : List (List Byte)
  /-- the inputs not yet taken, next first (R21, R59; log 1) -/
  input : List Input
  /-- names the arbitrary contents the memories came up with (R231; log 4) -/
  powerOn : Nat
deriving DecidableEq, Repr

/-- The block right after reset, for any parameters and any power-on contents (R37, R230, R231): nothing is listed in DST
or ENC. -/
def State.resetWith (p : Params) (powerOn : Nat) : State where
  scnW := 0x00000000
  scnP := 0
  decStatus := .parsing
  decCur := 0
  decW := 0x00000000
  decCap := BitVec.ofNat 32 p.dstSize
  decLast := .parsing
  frames := []
  dst := []
  enc := []
  refused := false
  params := p
  responses := []
  hostReads := []
  input := []
  powerOn := powerOn

/-- The machine right after reset, at the parameters log 3 names and the power-on contents log 4 names. -/
def State.reset : State := State.resetWith Config.params 0

end Sys2Proof.Machine
end

