-- ==== Sys2Proof/Machine/Ops.lean ====
section
/-! DEFINITION. The named operations the meanings share: sequencing, register writes, byte memories (R50 to R58), byte
order (R54), the rolling window (R13), responses (R73) and frame events (R33), taking a frame error and the return from
it (R200, R206, R207), hardware reset (R230). -/

namespace Sys2Proof.Machine

/-- What a meaning answers. -/
abbrev Result (α : Type) := Host.Outcome α Fault Refusal

/-- Sequencing: the second part runs on what the first answers; a stop stays. -/
def andThen {α β : Type} (o : Result α) (f : α → Result β) : Result β :=
  match o with
  | .next a => f a
  | .fault r => .fault r
  | .refused r => .refused r

/-! ### Register writes (`REG <- v`, R11) -/

def State.setScnW (s : State) (v : Word) : State := { s with scnW := v }
def State.setScnP (s : State) (v : Word) : State := { s with scnP := v }
def State.setDecStatus (s : State) (v : Status) : State := { s with decStatus := v }
def State.setDecCur (s : State) (v : Word) : State := { s with decCur := v }
def State.setDecW (s : State) (v : Word) : State := { s with decW := v }
def State.setDecCap (s : State) (v : Word) : State := { s with decCap := v }
def State.setDecLast (s : State) (v : Status) : State := { s with decLast := v }
def State.setInput (s : State) (v : List Input) : State := { s with input := v }

/-- Appends one event to `FRAMES` (R33); nothing removes one. -/
def State.emitFrame (s : State) (e : FrameEvent) : State := { s with frames := s.frames ++ [e] }

/-- Returns a command's response (R73). -/
def State.respond (s : State) (r : Response) : State := { s with responses := s.responses ++ [r] }

/-- Returns the bytes of a host read. -/
def State.answerRead (s : State) (bs : List Byte) : State := { s with hostReads := s.hostReads ++ [bs] }

/-- A command reached a `refuse` outcome: `REFUSED` becomes true, and no operation makes it false again (R36). -/
def State.markRefused (s : State) : State := { s with refused := true }

/-! ### Responses (R73) -/

/-- `respond(0, flag, value)`. -/
def accepted (flag : Bool) (value : Word) : Response := { err := false, flag := flag, value := value }

/-- `respond(1, 0, 0)`, the response of every rejected command. -/
def rejection : Response := { err := true, flag := false, value := 0 }

/-- A rejected command changes nothing and responds `(1, 0, 0)` (R73, R205). -/
def State.reject (s : State) : State := s.respond rejection

/-! ### Byte memories (R34, R35, R50 to R58) -/

/-- The byte written last at an index, if one was. What an unlisted index reads as stands here and in `State.freeByte`. -/
def Memory.written : Memory → Nat → Option Byte
  | [], _ => none
  | (x, y) :: rest, a => if x = a then some y else Memory.written rest a

/-- Writes one byte; the indices stay strictly rising. -/
def Memory.write : Memory → Nat → Byte → Memory
  | [], a, b => [(a, b)]
  | (x, y) :: rest, a, b =>
    if a < x then (a, b) :: (x, y) :: rest
    else if a = x then (a, b) :: rest
    else (x, y) :: Memory.write rest a b

/-- Writes a byte list at consecutive indices (R57: the same as one write per byte). -/
def Memory.writeList (m : Memory) (a : Nat) : List Byte → Memory
  | [] => m
  | b :: bs => Memory.writeList (Memory.write m a b) (a + 1) bs

/-- The canonical form: indices strictly rising from `lo`, all below `size`. -/
def Memory.wfFrom (size : Nat) : Nat → Memory → Bool
  | _, [] => true
  | lo, (x, _) :: rest => decide (lo ≤ x) && decide (x < size) && Memory.wfFrom size (x + 1) rest

/-- The canonical form of a memory of `size` bytes. -/
def Memory.wf (size : Nat) (m : Memory) : Bool := Memory.wfFrom size 0 m

/-- The written bytes of a memory. -/
def State.mem (s : State) : MemId → Memory
  | .dst => s.dst
  | .enc => s.enc

/-- The size of a memory (R34, R35). -/
def State.memSize (s : State) : MemId → Nat
  | .dst => s.params.dstSize
  | .enc => s.params.encSize

/-- A memory replaced by new contents; the other one is untouched (R50: the two are disjoint). -/
def State.setMem (s : State) (m : MemId) (c : Memory) : State :=
  match m with
  | .dst => { s with dst := c }
  | .enc => { s with enc := c }

/-- What a byte nothing has written reads as: a free value (R231, I6). -/
def State.freeByte (s : State) (m : MemId) (a : Nat) : Byte :=
  match m with
  | .dst => Config.dstFree s.powerOn a
  | .enc => Config.encFree s.powerOn a

/-- The byte at an index: the one last written there (R58), else a free value (R231). -/
def State.byteAt (s : State) (m : MemId) (a : Nat) : Byte :=
  ((s.mem m).written a).getD (s.freeByte m a)

/-- `M[a..a+n)` as a byte list (R11). -/
def State.bytesAt (s : State) (m : MemId) (a : Nat) : Nat → List Byte
  | 0 => []
  | n + 1 => s.byteAt m a :: s.bytesAt m (a + 1) n

/-- Every index of `[a, a+n)` names a byte of a memory of `size` bytes (R50); an empty range names none. -/
def inMemory (a n size : Nat) : Bool := n == 0 || decide (a + n ≤ size)

/-- `MemRead(M, a, n)` (R11). -/
def State.memRead (s : State) (m : MemId) (a n : Nat) : Result (List Byte) :=
  if inMemory a n (s.memSize m) then .next (s.bytesAt m a n) else .fault (.noSuchByte m)

/-- `MemWrite(M, a, |bs|, bs)` (R11). -/
def State.memWrite (s : State) (m : MemId) (a : Nat) (bs : List Byte) : Result State :=
  if inMemory a bs.length (s.memSize m) then .next (s.setMem m ((s.mem m).writeList a bs))
  else .fault (.noSuchByte m)

/-! ### Byte order (R54) and the rolling window (R13) -/

/-- `LE32(bs)`: the first byte is bits 7:0 (R11, R54). Bytes beyond the fourth count for nothing. -/
def le32 : List Byte → Word
  | b0 :: b1 :: b2 :: b3 :: _ => (b3 ++ b2 ++ b1 ++ b0 : BitVec 32)
  | _ => 0

/-- `BYTES32(v)`: bits 7:0 first (R11, R54). -/
def bytes32 (v : Word) : List Byte :=
  [v.extractLsb' 0 8, v.extractLsb' 8 8, v.extractLsb' 16 8, v.extractLsb' 24 8]

/-- `shift(W, b)`: drop the oldest byte, put the new one in bits 31:24 (R13). -/
def shiftWindow (w : Word) (b : Byte) : Word := (w >>> 8) ||| (b.setWidth 32 <<< 24)

/-- `scanForMarker(bs, W)`: found, position, window after the last byte consumed (R120). `i` counts the bytes consumed. -/
def scanFrom (i : Nat) : List Byte → Word → Bool × Nat × Word
  | [], w => (false, i, w)
  | b :: bs, w =>
    if shiftWindow w b = markerWord then (true, i + 1, shiftWindow w b) else scanFrom (i + 1) bs (shiftWindow w b)

/-- `scanForMarker(bs, W)` (R120). -/
def scanForMarker (bs : List Byte) (w : Word) : Bool × Nat × Word := scanFrom 0 bs w

/-! ### Frame errors (R200, R206, R207) and reset -/

/-- Taking a frame error: the status is recorded, and nothing else (R201 to R204). The block has no trap (R206). -/
def State.frameError (s : State) (e : Status) : State := s.setDecStatus e

/-- The end-of-frame reset, the counterpart of a trap return (R174, R206): `DEC.CAP`, `DEC.LAST` and DST are kept. -/
def State.endOfFrameReset (s : State) : State := ((s.setDecStatus .parsing).setDecCur 0).setDecW 0x00000000

/-- Hardware reset: every register and output at its reset value, DST and ENC not written (R37, R230, R231). It starts a
new run (R252); what the host still has to present stays presented (log 7). -/
def State.hardwareReset (s : State) : State :=
  { State.resetWith s.params s.powerOn with dst := s.dst, enc := s.enc, input := s.input }

end Sys2Proof.Machine
end

