-- ==== Sys2Proof/Machine/Operands.lean ====
section
/-! DEFINITION. The operand checks of R75 and the offset functions on operands (R103, R104, R109). The operand forms
themselves (R71, R72) are read by the decoder. -/

namespace Sys2Proof.Machine

/-- `encodeOffset(off)`: bits 6:0 stay, bits 30:7 move up by one (R103). -/
def encodeOffset (off : Word) : Word := (off &&& 0x7F#32) ||| ((off >>> 7) <<< 8)

/-- `decodeOffset(f)`: the inverse; bit 7 of byte 0 is ignored, every field has a value (R104). -/
def decodeOffset (f : Word) : Word := (f &&& 0x7F#32) ||| ((f >>> 8) <<< 7)

/-- `tooBig(f)`: the field decodes to a value above OFFSET_MAX (R109). -/
def tooBig (f : Word) : Bool := decide (offsetMax < (decodeOffset f).toNat)

/-- The wire bytes of the Offset field of a distance: `BYTES32(encodeOffset(d))` (R103, R141). -/
def offsetField (d : Nat) : List Byte := bytes32 (encodeOffset (BitVec.ofNat 32 d))

/-- `DEC_INIT cap` is rejected when `cap < 8` or `cap > DST_SIZE` (R75, R161). -/
def decInitRejected (s : State) (cap : Word) : Bool := decide (cap.toNat < 8) || decide (s.params.dstSize < cap.toNat)

/-- `ENC_FRAME L` is rejected when `L + 8 > ENC_SIZE`, computed without wrap (R75, R143). -/
def encFrameRejected (s : State) (len : Word) : Bool := decide (s.params.encSize < len.toNat + 8)

end Sys2Proof.Machine
end

