-- ==== Sys2Proof/Machine/Flags.lean ====
section
/-! DEFINITION. Every flag and status value a response can carry: the status codes (R26), the found flag (R124), the
too-big flag (R108) and the delivered flag (R176). -/

namespace Sys2Proof.Machine

/-- The 3-bit code of a status (R26). -/
def Status.code : Status → BitVec 3
  | .parsing => 0
  | .dstOverrun => 1
  | .offsetTooBig => 2
  | .offsetOutOfBounds => 3
  | .offsetOdd => 4

/-- `zext_32` of a status register, as DEC_STATUS and DEC_LAST return it (R178, R179). -/
def Status.value (st : Status) : Word := st.code.setWidth 32

/-- SCAN_BYTE's flag: the window equals the Marker (R124). -/
def foundFlag (w : Word) : Bool := decide (w = markerWord)

/-- DEC_OFFSET's flag: the decoded value exceeds OFFSET_MAX (R108). -/
def tooBigFlag (v : Word) : Bool := tooBig v

end Sys2Proof.Machine
end

