-- ==== Sys2Proof/Machine/Decoder.lean ====
section
/-! DEFINITION. The frame decoder (file 43): the chain walk, end-of-frame processing, and the decoder's commands. -/

namespace Sys2Proof.Machine

/-- One position of the chain walk whose field fits and is not too big: restore the Marker bytes at every `n != 0` (R172). -/
def restoreMarker (n : Nat) (s : State) : Result State := if n = 0 then .next s else s.memWrite .dst n markerBytes

/-- The offset-chain reconstruction walk from position `n` of a frame of `c` accumulated bytes (R169 to R172), in the order
of C1. `fuel` bounds the iterations; `c / 4 + 1` are enough (R180), and with none left `n > c`, which the rule calls
OFFSET_ODD (log 11). Positions are exact numbers (R9, R10). -/
def walk : Nat → Nat → Nat → State → Result State
  | 0, _, _, s => .next (s.frameError .offsetOdd)
  | fuel + 1, c, n, s =>
    if n = c then .next s
    else if c < n + 4 then .next (s.frameError .offsetOdd)
    else andThen (s.memRead .dst n 4) fun field =>
      if tooBig (le32 field) then .next (s.frameError .offsetTooBig)
      else andThen (restoreMarker n s) fun s1 =>
        if n + (decodeOffset (le32 field)).toNat + 4 ≤ n then .next (s1.frameError .offsetOutOfBounds)
        else walk fuel c (n + (decodeOffset (le32 field)).toNat + 4) s1

/-- The walk of a frame of `c` bytes, with all the iterations R180 allows. -/
def walkFrame (c : Nat) (s : State) : Result State := walk (c / 4 + 1) c 0 s

/-- What `EndOfFrame()` returns: the state, `delivered` and `len` (R168, R175). -/
structure FrameEnd where
  state : State
  delivered : Bool
  len : Word
deriving DecidableEq, Repr

/-- Delivery of a frame of `c` bytes whose chain closed: the event carries a copy of `DST[4..c)` (R175). -/
def deliver (c : Nat) (s : State) : Result FrameEnd :=
  andThen (s.memRead .dst 4 (c - 4)) fun payload =>
    .next ⟨s.emitFrame ⟨BitVec.ofNat 32 (c - 4), payload⟩, true, BitVec.ofNat 32 (c - 4)⟩

/-- After the walk: the outcome is recorded (R173), and the frame delivered if there was no error (R175). -/
def finishFrame (c : Nat) (s : State) : Result FrameEnd :=
  if s.decStatus = .parsing then deliver c (s.setDecLast s.decStatus)
  else .next ⟨s.setDecLast s.decStatus, false, 0⟩

/-- `EndOfFrame()` (R168 to R173, R175). -/
def endOfFrame (s : State) : Result FrameEnd :=
  if s.decStatus ≠ .parsing then .next ⟨s.setDecLast s.decStatus, false, 0⟩
  else if s.decCur = 0 then .next ⟨s, false, 0⟩
  else andThen (walkFrame s.decCur.toNat s) (finishFrame s.decCur.toNat)

/-- Search and accumulate: the byte does not complete a Marker (R164, R165, R166). `w` is the window after it. -/
def accumulate (b : Byte) (w : Word) (s : State) : Result State :=
  if s.decStatus = .parsing then
    if s.decCur < s.decCap then
      andThen ((s.setDecW w).memWrite .dst s.decCur.toNat [b]) fun s1 =>
        .next ((s1.setDecCur (s.decCur + 1)).respond (accepted false 0))
    else .next (((s.setDecW w).frameError .dstOverrun).respond (accepted false 0))
  else .next ((s.setDecW w).respond (accepted false 0))

/-- The Marker's first three bytes are taken back, unless the frame already failed (R167). -/
def retractMarker (s : State) : State := if s.decStatus = .parsing then s.setDecCur (s.decCur - 3) else s

/-- Complete: the byte completes a Marker (R167 to R176). -/
def complete (s : State) : Result State :=
  andThen (endOfFrame (retractMarker s)) fun e =>
    .next (e.state.endOfFrameReset.respond (accepted e.delivered e.len))

/-- `DEC_INGEST b` (R163): the window decides which of the two transitions the byte makes (R160, R164). -/
def execDecIngest (b : Byte) (s : State) : Result State :=
  if shiftWindow s.decW b = markerWord then complete s else accumulate b (shiftWindow s.decW b) s

/-- The decoder's registers after an accepted `DEC_INIT cap` (R161). -/
def State.decoderInit (s : State) (cap : Word) : State := ((s.setDecCap cap).endOfFrameReset).setDecLast .parsing

/-- `DEC_INIT cap` (R161): rejected outside `[8, DST_SIZE]` (R75), else the decoder starts afresh. -/
def execDecInit (cap : Word) (s : State) : Result State :=
  if decInitRejected s cap then .next s.reject else .next ((s.decoderInit cap).respond (accepted false 0))

/-- `DEC_STATUS` (R178). -/
def execDecStatus (s : State) : Result State := .next (s.respond (accepted false s.decStatus.value))

/-- `DEC_LAST` (R179). -/
def execDecLast (s : State) : Result State := .next (s.respond (accepted false s.decLast.value))

end Sys2Proof.Machine
end

