-- ==== Sys2Proof/Machine/Encoder.lean ====
section
/-! DEFINITION. The frame encoder (file 42): the single-pass, head/foot-parameterized variant, in place in ENC. -/

namespace Sys2Proof.Machine

/-- Writes the distance `d` into the chain slot at `slot`; a distance above OFFSET_MAX is refused (R141, R144, I2). -/
def writeLink (slot d : Nat) (s : State) : Result State :=
  if offsetMax < d then .refused .encDistanceRange else s.memWrite .enc slot (offsetField d)

/-- The end of the pass: the remaining distance into the current slot, and the foot Marker after the payload (R141). -/
def writeFoot (len slot cc : Nat) (s : State) : Result State :=
  andThen (writeLink slot (len - cc) s) fun s1 => s1.memWrite .enc (4 + len) markerBytes

/-- The scan of the payload (R141): `i` is the position of the next byte, `w` the private window, `slot` the ENC index of
the current chain slot, `cc` the chain cursor. None of the four is architectural state (R21). -/
def encodePass (len : Nat) : List Byte → Nat → Word → Nat → Nat → State → Result State
  | [], _, _, slot, cc, s => writeFoot len slot cc s
  | b :: rest, i, w, slot, cc, s =>
    if shiftWindow w b = markerWord then
      andThen (writeLink slot (i - 3 - cc) s) fun s1 => encodePass len rest (i + 1) 0 (4 + (i - 3)) (i - 3 + 4) s1
    else encodePass len rest (i + 1) (shiftWindow w b) slot cc s

/-- `encodeFrameInPlace(L)` (R141): the payload is read once, at the start (D27). -/
def encodeFrameInPlace (len : Nat) (s : State) : Result State :=
  andThen (s.memRead .enc 4 len) fun payload => encodePass len payload 0 0x00000000 0 0 s

/-- `ENC_FRAME L` (R142, R143). -/
def execEncFrame (len : Word) (s : State) : Result State :=
  if encFrameRejected s len then .next s.reject
  else andThen (encodeFrameInPlace len.toNat s) fun s1 => .next (s1.respond (accepted false (len + 8)))

end Sys2Proof.Machine
end

