-- ==== Sys2Proof/Machine/OffsetCodec.lean ====
section
/-! DEFINITION. The offset codec's commands (file 40). They write no state but the response. -/

namespace Sys2Proof.Machine

/-- `ENC_OFFSET v` (R107): refused above OFFSET_MAX (I1), else the field. -/
def execEncOffset (v : Word) (s : State) : Result State :=
  if offsetMax < v.toNat then .refused .encOffsetRange else .next (s.respond (accepted false (encodeOffset v)))

/-- `DEC_OFFSET v` (R108): defined for every field. -/
def execDecOffset (v : Word) (s : State) : Result State :=
  .next (s.respond (accepted (tooBigFlag v) (decodeOffset v)))

end Sys2Proof.Machine
end

