-- ==== Sys2Proof/Machine/Scanner.lean ====
section
/-! DEFINITION. The marker scanner's commands (file 41). They touch neither the decoder nor the encoder (R128). -/

namespace Sys2Proof.Machine

/-- `SCAN_SETW v` (R121). -/
def execScanSetw (v : Word) (s : State) : Result State := .next ((s.setScnW v).respond (accepted false 0))

/-- `SCAN_GETW` (R122). -/
def execScanGetw (s : State) : Result State := .next (s.respond (accepted false s.scnW))

/-- `SCAN_START` (R123): `SCN.W` is kept. -/
def execScanStart (s : State) : Result State := .next ((s.setScnP 0).respond (accepted false 0))

/-- The scanner's registers after one byte: the window moves, the position counts modulo `2^32` (R124). -/
def State.scanStep (s : State) (b : Byte) : State := (s.setScnW (shiftWindow s.scnW b)).setScnP (s.scnP + 1)

/-- `SCAN_BYTE b` (R124): the response is taken from the registers after the step. -/
def execScanByte (b : Byte) (s : State) : Result State :=
  .next ((s.scanStep b).respond (accepted (foundFlag (s.scanStep b).scnW) (s.scanStep b).scnP))

end Sys2Proof.Machine
end

