-- ==== Sys2Proof/Machine/Dispatch.lean ====
section
/-! DEFINITION. One arm per command (R74): the meaning of each. -/

namespace Sys2Proof.Machine

def exec (i : Instr) (s : State) : Host.Outcome State Fault Refusal :=
  match i with
  | .encOffset v => Sys2Proof.Machine.execEncOffset v s
  | .decOffset v => Sys2Proof.Machine.execDecOffset v s
  | .scanSetw v => Sys2Proof.Machine.execScanSetw v s
  | .scanGetw => Sys2Proof.Machine.execScanGetw s
  | .scanStart => Sys2Proof.Machine.execScanStart s
  | .scanByte b => Sys2Proof.Machine.execScanByte b s
  | .decInit cap => Sys2Proof.Machine.execDecInit cap s
  | .decIngest b => Sys2Proof.Machine.execDecIngest b s
  | .decStatus => Sys2Proof.Machine.execDecStatus s
  | .decLast => Sys2Proof.Machine.execDecLast s
  | .encFrame len => Sys2Proof.Machine.execEncFrame len s

end Sys2Proof.Machine
end

