-- ==== Sys2Proof/Machine/Inputs.lean ====
section
/-! DEFINITION. What one input does, atomically (R59): a command word (R70 to R79), a host access to DST or ENC (R52, R53),
hardware reset (R230). -/

namespace Sys2Proof.Machine

/-- A presented command word: its command's meaning, or the rejection of a word that is no command (R76 to R78, R205). -/
def runCommand (w : CmdWord) (s : State) : Result State :=
  match decode w with
  | .ok i => exec i s
  | .error _ => .next s.reject

/-- `HOST_WRITE` (R52, R53): any byte of either memory, at any time between commands; nothing detects it (R242). -/
def hostWrite (m : MemId) (a : Nat) (bs : List Byte) (s : State) : Result State := s.memWrite m a bs

/-- `HOST_READ` (R52, R53): returns what was last written and changes no byte (R58). -/
def hostRead (m : MemId) (a n : Nat) (s : State) : Result State :=
  andThen (s.memRead m a n) fun bs => .next (s.answerRead bs)

/-- The effect of one input. A run whose REFUSED is true has no meaning (R36, R252), so only a reset, which starts a new
run, is taken from it. -/
def applyInput (x : Input) (s : State) : Result State :=
  match x with
  | .reset => .next s.hardwareReset
  | .command w => if s.refused then .refused .meaninglessRun else runCommand w s
  | .hostWrite m a bs => if s.refused then .refused .meaninglessRun else hostWrite m a bs s
  | .hostRead m a n => if s.refused then .refused .meaninglessRun else hostRead m a n s

end Sys2Proof.Machine
end

