-- ==== Sys2Proof/Machine/Step.lean ====
section
/-! DEFINITION. One step: the next input is taken, and its whole effect happens (R22, R59). -/

namespace Sys2Proof.Machine

/-- One step. The block fetches nothing: "the next operation is whichever command the host presents next" (R22). With
nothing presented it "waits for the first command" (R232): the state stays as it is. -/
def step (s : State) : Host.Outcome State Fault Refusal :=
  match s.input with
  | [] => .next s
  | x :: rest => applyInput x (s.setInput rest)

/-- `s` with the table word presented as the host's next command, before whatever else is waiting. -/
def State.withFetchWord (s : State) (nbits w : Nat) : State :=
  s.setInput (.command (tableCommand nbits w) :: s.input)

end Sys2Proof.Machine
end

