-- ==== Sys2Proof/Machine/Run.lean ====
section
/-! DEFINITION. Runs and their observation (R252), and the pseudo-instructions as sequences of host actions (R87). -/

namespace Sys2Proof.Machine

/-- A run: the inputs one after another (R59, R252). When a command reaches a `refuse` outcome, REFUSED becomes true and
the run is over (R36, R252; log 5). -/
def runInputs : List Input → State → Result State
  | [], s => .next s
  | x :: xs, s =>
    match applyInput x s with
    | .next s1 => runInputs xs s1
    | .fault r => .fault r
    | .refused _ => .next s.markRefused

/-- The observation of a run (R252). -/
structure Observation where
  responses : List Response
  frames : List FrameEvent
  scnW : Word
  scnP : Word
  decStatus : Status
  decCur : Word
  decW : Word
  decCap : Word
  decLast : Status
  dst : List Byte
  enc : List Byte
  refused : Bool
deriving DecidableEq, Repr

/-- What a run that ends in `s` lets one observe (R252). -/
def State.observe (s : State) : Observation where
  responses := s.responses
  frames := s.frames
  scnW := s.scnW
  scnP := s.scnP
  decStatus := s.decStatus
  decCur := s.decCur
  decW := s.decW
  decCap := s.decCap
  decLast := s.decLast
  dst := s.bytesAt .dst 0 s.params.dstSize
  enc := s.bytesAt .enc 0 s.params.encSize
  refused := s.refused

/-- A command presented by the host. -/
def Input.ofInstr (i : Instr) : Input := .command (encode i)

/-- `INGEST_CHUNK bs` (R87, R162): one DEC_INGEST per byte, nothing for an empty chunk. -/
def Pseudo.ingestChunk (bs : List Byte) : List Input := bs.map fun b => Input.ofInstr (.decIngest b)

/-- `SCAN_CLEAR` (R87). -/
def Pseudo.scanClear : List Input := [Input.ofInstr (.scanSetw 0)]

/-- `ENCODE_FRAME p` (R87, R146): the payload at `ENC[4..)`, then ENC_FRAME of its length. -/
def Pseudo.encodeFrame (p : List Byte) : List Input :=
  [.hostWrite .enc 4 p, Input.ofInstr (.encFrame (BitVec.ofNat 32 p.length))]

/-- `INIT_PARSER cap` (R87). -/
def Pseudo.initParser (cap : Word) : List Input := [Input.ofInstr (.decInit cap)]

/-- `GET_STATUS` (R87). -/
def Pseudo.getStatus : List Input := [Input.ofInstr .decStatus]

/-- The flag of the last response, false if there is none. -/
def State.lastFlag (s : State) : Bool :=
  match s.responses.getLast? with
  | some r => r.flag
  | none => false

/-- The SCAN_BYTEs of `SCAN_RANGE` (R87, R126): it stops after the first response with `flag = 1`. -/
def scanBytes : List Byte → State → Result State
  | [], s => .next s
  | b :: bs, s => andThen (exec (.scanByte b) s) fun s1 => if s1.lastFlag then .next s1 else scanBytes bs s1

/-- `SCAN_RANGE bs` (R87, R126). -/
def scanRange (bs : List Byte) (s : State) : Result State := andThen (exec .scanStart s) (scanBytes bs)

/-- One DEC_INGEST per byte, as commands rather than command words (R162). -/
def ingestBytes : List Byte → State → Result State
  | [], s => .next s
  | b :: bs, s => andThen (exec (.decIngest b) s) (ingestBytes bs)

end Sys2Proof.Machine
end

