-- ==== Sys2Proof/Safety.lean ====
section
/-! DEFINITION. The terms the claims use: the invariant of the block between commands (R26, R27, R29, R31, R32, R33, R63), the
host's obligations (R233), and the encoded frame as a function of its payload (R140), apart from the encoder. -/

namespace Sys2Proof.Machine

/-! ### The invariant between commands -/

/-- DST and ENC are in canonical form and list no index their size does not have (R34, R35, R50). -/
abbrev State.memoriesOk (s : State) : Prop :=
  Memory.wf s.params.dstSize s.dst = true ∧ Memory.wf s.params.encSize s.enc = true

/-- `8 <= DEC.CAP <= DST_SIZE` (R29) and `DEC.CUR <= DEC.CAP` (R27). -/
abbrev State.cursorOk (s : State) : Prop :=
  8 ≤ s.decCap.toNat ∧ s.decCap.toNat ≤ s.params.dstSize ∧ s.decCur.toNat ≤ s.decCap.toNat

/-- `DEC.STATUS` is `PARSING` or `DST_OVERRUN` (R31), and `DEC.LAST` is never the outcome no input reaches (R171, R204). -/
abbrev State.statusOk (s : State) : Prop :=
  (s.decStatus = .parsing ∨ s.decStatus = .dstOverrun) ∧ s.decLast ≠ .offsetOutOfBounds

/-- With no error, the positions of `DEC.W` older than the `DEC.CUR` bytes accumulated hold zero bytes (R32). -/
abbrev State.windowOk (s : State) : Prop :=
  s.decStatus = .parsing → s.decW.toNat % 2 ^ (8 * (4 - s.decCur.toNat)) = 0

/-- Every event holds as many bytes as it says (R33). -/
abbrev State.framesOk (s : State) : Prop := ∀ e ∈ s.frames, e.bytes.length = e.len.toNat

/-- What holds of the block between any two inputs. -/
abbrev State.Inv (s : State) : Prop :=
  s.params.wellFormed = true ∧ s.memoriesOk ∧ s.cursorOk ∧ s.statusOk ∧ s.windowOk ∧ s.framesOk

/-- The decoder is at the start of a frame: after DEC_INIT, reset or an end-of-frame reset (R174, R183). -/
abbrev State.atFrameStart (s : State) : Prop := s.decStatus = .parsing ∧ s.decCur = 0 ∧ s.decW = 0

/-! ### Host obligations (R233) -/

/-- Item 1: the capacity leaves room for the largest frame expected. -/
abbrev State.capacityMeetsMaxFrame (s : State) : Prop := s.params.maxFrame + 8 ≤ s.decCap.toNat

/-- Item 3: before ENC_FRAME of length `len`, the frame fits in ENC and no distance can be too long. -/
abbrev State.readyToEncode (s : State) (len : Nat) : Prop := len + 8 ≤ s.params.encSize ∧ len ≤ offsetMax

/-- Item 3: the payload stands at `ENC[4..4+L)`. -/
abbrev State.holdsPayload (s : State) (p : List Byte) : Prop := s.bytesAt .enc 4 p.length = p

/-! ### The encoded frame (R140) -/

/-- An occurrence of the Marker at the start of a byte list (R15). -/
def startsWithMarker (bs : List Byte) : Bool := bs.take 4 == markerBytes

/-- The distance from the start of a byte list to its first occurrence, or to its end if there is none (R140). -/
def distanceToNext : List Byte → Nat
  | [] => 0
  | b :: rest => if startsWithMarker (b :: rest) then 0 else distanceToNext rest + 1

/-- `ThreadedPayload` (R140): each occurrence, found left to right, is overwritten by the Offset field of the distance from
just past it to the next one, or to the end. -/
def threadedPayload : List Byte → List Byte
  | b0 :: b1 :: b2 :: b3 :: rest =>
    if startsWithMarker (b0 :: b1 :: b2 :: b3 :: rest) then offsetField (distanceToNext rest) ++ threadedPayload rest
    else b0 :: threadedPayload (b1 :: b2 :: b3 :: rest)
  | short => short

/-- `HeadOffset ++ ThreadedPayload ++ Marker` (R140). -/
def encodedFrame (p : List Byte) : List Byte := offsetField (distanceToNext p) ++ threadedPayload p ++ markerBytes

/-- A conforming stream (R15) when `distancesFit` holds of every payload: their encoded frames, concatenated. -/
def conformingStream (ps : List (List Byte)) : List Byte := (ps.map encodedFrame).flatten

/-- The frame event of a delivered payload (R33, R175). -/
def frameOf (p : List Byte) : FrameEvent := ⟨BitVec.ofNat 32 p.length, p⟩

/-- The distances of the links of a payload's chain after the head, in order (R140, R141). -/
def linkDistances : List Byte → List Nat
  | b0 :: b1 :: b2 :: b3 :: rest =>
    if startsWithMarker (b0 :: b1 :: b2 :: b3 :: rest) then distanceToNext rest :: linkDistances rest
    else linkDistances (b1 :: b2 :: b3 :: rest)
  | _ => []

/-- Every distance ENC_FRAME computes on a payload (R141): the head's, then the links'. -/
def chainDistances (p : List Byte) : List Nat := distanceToNext p :: linkDistances p

/-- The encoder's precondition of R144: no distance it computes exceeds OFFSET_MAX. Every payload of at most OFFSET_MAX
bytes has it, and so has a longer one whose occurrences lie close enough. -/
abbrev distancesFit (p : List Byte) : Prop := ∀ d ∈ chainDistances p, d ≤ offsetMax

/-- ENC_FRAME of `p` is neither rejected (R143) nor refused (R144): the frame fits in ENC and so does every distance. -/
abbrev State.canEncode (s : State) (p : List Byte) : Prop := p.length + 8 ≤ s.params.encSize ∧ distancesFit p

/-- A Marker completes some frame of `bs` that has at least one byte, when `bs` is read from the start of a frame: past `n`
Markers with nothing before them (R168, R174), the next Marker is not the next four bytes. -/
abbrev endsNonEmptyFrame (bs : List Byte) : Prop :=
  ∃ (n : Nat) (frame rest : List Byte), frame ≠ [] ∧ startsWithMarker frame = false ∧
    bs = (List.replicate n markerBytes).flatten ++ (frame ++ markerBytes ++ rest)

/-! ### The offset chain of an accumulated frame (R169 to R173), apart from the walk -/

/-- The 4-byte field at index `n` of DST. -/
def State.fieldAt (s : State) (n : Nat) : Word := le32 (s.bytesAt .dst n 4)

/-- `Chain field c n links st`: the chain of a frame of `c` bytes, followed from position `n` over fields that nothing
rewrites, ends with the outcome `st`, and `links` are the positions other than 0 whose field passes the too-big test
(R169, R170, R172). -/
inductive Chain (field : Nat → Word) (c : Nat) : Nat → List Nat → Status → Prop
  /-- the chain ends cleanly -/
  | closed : Chain field c c [] .parsing
  /-- no room for a field before `c`, or past it -/
  | odd {n : Nat} (hne : n ≠ c) (hroom : c < n + 4) : Chain field c n [] .offsetOdd
  /-- a field that fits decodes to a value above OFFSET_MAX -/
  | tooBig {n : Nat} (hfit : n + 4 ≤ c) (hbig : offsetMax < (decodeOffset (field n)).toNat) :
      Chain field c n [] .offsetTooBig
  /-- a good field leads on -/
  | link {n : Nat} {links : List Nat} {st : Status} (hfit : n + 4 ≤ c)
      (hok : (decodeOffset (field n)).toNat ≤ offsetMax)
      (hrest : Chain field c (n + (decodeOffset (field n)).toNat + 4) links st) :
      Chain field c n (if n = 0 then links else n :: links) st

/-- The byte at `a` once Marker bytes stand at every position of `links` (R172). -/
def restoredByte (links : List Nat) (before : Nat → Byte) (a : Nat) : Byte :=
  match links.find? fun n => decide (n ≤ a ∧ a < n + 4) with
  | some n => markerBytes.getD (a - n) 0
  | none => before a

/-! ### What stays the same -/

/-- Every byte of a memory reads as before. -/
abbrev State.sameBytes (s t : State) (m : MemId) : Prop := ∀ a, t.byteAt m a = s.byteAt m a

/-- The scanner's registers are unchanged. -/
abbrev State.sameScanner (s t : State) : Prop := t.scnW = s.scnW ∧ t.scnP = s.scnP

/-- The decoder's registers are unchanged. -/
abbrev State.sameDecoder (s t : State) : Prop :=
  t.decStatus = s.decStatus ∧ t.decCur = s.decCur ∧ t.decW = s.decW ∧ t.decCap = s.decCap ∧ t.decLast = s.decLast

/-- What no command writes: REFUSED (R36), the parameters (R21), the host's side, the power-on contents. -/
abbrev State.sameSurroundings (s t : State) : Prop :=
  t.refused = s.refused ∧ t.params = s.params ∧ t.hostReads = s.hostReads ∧ t.input = s.input ∧ t.powerOn = s.powerOn

/-! ### Which words run a command (R70, R72, R76) -/

/-- Opcode `op` with a V32 operand runs `mk v`. -/
abbrev runsV32 (op : Byte) (mk : Word → Instr) (s : State) : Prop :=
  ∀ v : Word, runCommand (op ++ v) s = exec (mk v) s

/-- Opcode `op` with a B8 operand runs `mk arg[7:0]`; any word with a reserved bit is rejected. -/
abbrev runsB8 (op : Byte) (mk : Byte → Instr) (s : State) : Prop :=
  ∀ arg : Word, runCommand (op ++ arg) s =
    if arg.toNat < 256 then exec (mk (arg.extractLsb' 0 8)) s else .next s.reject

/-- Opcode `op` with an operand of zero runs `i`; with any other it is rejected. -/
abbrev runsZ (op : Byte) (i : Instr) (s : State) : Prop :=
  ∀ arg : Word, runCommand (op ++ arg) s = if arg = 0 then exec i s else .next s.reject

/-- An opcode of R77's list. -/
def unassignedOpcode (op : Byte) : Bool :=
  op.toNat == 0x00 || (decide (0x03 ≤ op.toNat) && decide (op.toNat ≤ 0x0F)) ||
    (decide (0x14 ≤ op.toNat) && decide (op.toNat ≤ 0x1F)) || (decide (0x24 ≤ op.toNat) && decide (op.toNat ≤ 0x2F)) ||
    decide (0x31 ≤ op.toNat)

/-! ### Command units -/

/-- A command of the scanner unit (R74). -/
def isScannerCommand : Instr → Bool
  | .scanSetw _ => true
  | .scanGetw => true
  | .scanStart => true
  | .scanByte _ => true
  | .encOffset _ => false
  | .decOffset _ => false
  | .decInit _ => false
  | .decIngest _ => false
  | .decStatus => false
  | .decLast => false
  | .encFrame _ => false

/-- DEC_INGEST, the one command that emits frame events (R33). -/
def isIngestCommand : Instr → Bool
  | .decIngest _ => true
  | .encOffset _ => false
  | .decOffset _ => false
  | .scanSetw _ => false
  | .scanGetw => false
  | .scanStart => false
  | .scanByte _ => false
  | .decInit _ => false
  | .decStatus => false
  | .decLast => false
  | .encFrame _ => false

end Sys2Proof.Machine
end

