-- ==== Sys2Proof/Certificates/Slice0/Obligations.lean ====
section
/-! DEFINITION. The statements for the provers. Each docstring names the rules of spec/ it formalises. A statement about
all states holds for every parameter value of R8 and every power-on contents of DST and ENC. -/

open Sys2Proof Sys2Proof.Machine

/-! ### Command words (file 30) -/

/-- The example words of R86, and one word of every unit written from the table of R74, decode to the commands they
stand for. -/
def Obligations.ExampleWordsDecode : Prop :=
  decode 0x21000000DA = .ok (.decIngest 0xDA) ∧ decode 0x0112345678 = .ok (.encOffset 0x12345678) ∧
  decode 0x1200000000 = .ok .scanStart ∧ decode 0x3000000014 = .ok (.encFrame 20) ∧
  decode 0x2400000000 = .error .unassignedOpcode ∧ decode 0x1300000100 = .error .reservedBits

/-- R70 to R72, R74, R86: the word of a command, every operand at every value its form admits, decodes to that command. -/
def Obligations.DecodeInvertsEncode : Prop :=
  ∀ i : Instr, i.wellFormed = true → decode (encode i) = .ok i

/-- R70 to R72, R76: a word that decodes to a command is that command's word, so every command has one word. -/
def Obligations.EncodeInvertsDecode : Prop :=
  ∀ (w : CmdWord) (i : Instr), decode w = .ok i → encode i = w

/-- R79: every word is one command or rejected; no two rows select one word; a word is rejected exactly when it selects no
row, and a command's word selects the command's row. -/
def Obligations.DecoderAgreesWithOpcodeTable : Prop :=
  ∀ w : CmdWord,
    (∀ r ∈ opcodeTable, ∀ r' ∈ opcodeTable, r.selects w = true → r'.selects w = true → r = r') ∧
    (∀ i, decode w = .ok i → i.row ∈ opcodeTable ∧ i.row.selects w = true) ∧
    ((∃ e, decode w = .error e) ↔ ∀ r ∈ opcodeTable, r.selects w = false)

/-- R76, R77: a word whose opcode is in R77's list, which are the opcodes no row has, and a word with a reserved bit of its
opcode's form set, are rejected: no command is read, and the block answers with the rejection. -/
def Obligations.IllegalWordsAreRejected : Prop :=
  (∀ op : Byte, unassignedOpcode op = true ↔ ∀ r ∈ opcodeTable, r.opcode ≠ op) ∧
  (∀ (w : CmdWord) (s : State), unassignedOpcode (opcodeOf w) = true →
    decode w = .error .unassignedOpcode ∧ runCommand w s = .next s.reject) ∧
  (∀ (w : CmdWord) (r : Row) (s : State), r ∈ opcodeTable → r.opcode = opcodeOf w →
    argOf w &&& r.form.reservedMask ≠ 0 → decode w = .error .reservedBits ∧ runCommand w s = .next s.reject)

/-- R86: assembling the line of a command, its operand written in hex, gives its word, for every operand. -/
def Obligations.AssembledLineIsTheWord : Prop :=
  ∀ i : Instr, assemble i.line = some (encode i)

/-- R205 (with R73, R75 to R77): a word that is no command, `DEC_INIT cap` with `cap` outside `[8, DST_SIZE]`, and
`ENC_FRAME L` with `L + 8 > ENC_SIZE` each respond `(1, 0, 0)` and change no register, memory or FRAMES. -/
def Obligations.RejectionChangesNothing : Prop :=
  ∀ (s : State) (o : Host.Outcome State Fault Refusal),
    ((∃ w e, decode w = .error e ∧ o = runCommand w s) ∨
      (∃ cap : Word, (cap.toNat < 8 ∨ s.params.dstSize < cap.toNat) ∧ o = exec (.decInit cap) s) ∨
      (∃ len : Word, s.params.encSize < len.toNat + 8 ∧ o = exec (.encFrame len) s)) →
    ∃ t, o = .next t ∧ t.responses = s.responses ++ [⟨true, false, 0⟩] ∧ State.sameScanner s t ∧
      State.sameDecoder s t ∧ t.frames = s.frames ∧ t.dst = s.dst ∧ t.enc = s.enc ∧ State.sameSurroundings s t

/-! ### Steps and inputs (R22, R52, R53, R59, R252) -/

/-- A step takes the next input; a word that decodes to `i` is run as `i`, and one that does not decode is rejected. The
premise on REFUSED is R252's: a refused run has no meaning. -/
def Obligations.StepRunsPresentedCommand : Prop :=
  ∀ (s : State) (w : CmdWord) (rest : List Input), s.input = .command w :: rest → s.refused = false →
    (∀ i, decode w = .ok i → i.wellFormed = true → step s = exec i (s.setInput rest)) ∧
    ((∃ e, decode w = .error e) → step s = .next (s.setInput rest).reject)

/-- R22, R232 (its last sentence): the block fetches nothing; with nothing presented it waits, unchanged. The model's form
of waiting is log 1. -/
def Obligations.StepWaitsForTheHost : Prop :=
  ∀ s : State, s.input = [] → step s = .next s

/-- R58 (with R52, R53): a host write inside a memory changes exactly the bytes it names, and a host read of them then
returns them. In every state, a host read of any range inside a memory returns the bytes that stand there, whoever wrote
them, and changes none. -/
def Obligations.HostAccessReadsAndWritesBytes : Prop :=
  (∀ (s : State) (m : MemId) (a n : Nat), s.refused = false → a + n ≤ s.memSize m →
    applyInput (.hostRead m a n) s = .next (s.answerRead (s.bytesAt m a n))) ∧
  ∀ (s : State) (m : MemId) (a : Nat) (bs : List Byte), s.refused = false → a + bs.length ≤ s.memSize m →
    ∃ t u, applyInput (.hostWrite m a bs) s = .next t ∧ applyInput (.hostRead m a bs.length) t = .next u ∧
      (∀ k (h : k < bs.length), t.byteAt m (a + k) = bs[k]) ∧
      (∀ x, x < a ∨ a + bs.length ≤ x → t.byteAt m x = s.byteAt m x) ∧
      (∀ m', m' ≠ m → State.sameBytes s t m') ∧ State.sameScanner s t ∧ State.sameDecoder s t ∧
      t.frames = s.frames ∧ t.responses = s.responses ∧ State.sameSurroundings s t ∧
      u = t.answerRead bs

/-- A host access that names a byte outside the memory (R50, R62: an index `>= size` names none) faults and has no
effect. The fault is the model's choice, log 6. -/
def Obligations.HostAccessOutsideMemoryFaults : Prop :=
  ∀ (s : State) (m : MemId) (a : Nat) (bs : List Byte) (n : Nat), s.refused = false →
    (bs ≠ [] → s.memSize m < a + bs.length → applyInput (.hostWrite m a bs) s = .fault (.noSuchByte m)) ∧
    (n ≠ 0 → s.memSize m < a + n → applyInput (.hostRead m a n) s = .fault (.noSuchByte m))

/-- R59, R252: presenting inputs in the queue and stepping is the run over them, as long as no command is refused.
The queue is the model's form of the host's program order (log 1). -/
def Obligations.SteppingIsRunning : Prop :=
  ∀ (xs rest : List Input) (s t : State), s.refused = false → runInputs xs s = .next t → t.refused = false →
    Host.Core.run Sys2Proof.core xs.length (s.setInput (xs ++ rest)) = .next (t.setInput rest)

/-- R36: a command that reaches a `refuse` outcome makes REFUSED true, and no input other than a reset makes it false.
How the bit is set is log 5; that a reset starts a new run is log 7. -/
def Obligations.RefusedIsMarkedAndStays : Prop :=
  (∀ (s : State) (w : CmdWord) (i : Instr) (r : Refusal) (xs : List Input), s.refused = false → decode w = .ok i →
    exec i s = .refused r → ∃ t, runInputs (.command w :: xs) s = .next t ∧ t.refused = true) ∧
  (∀ (s t : State) (xs : List Input), s.refused = true → .reset ∉ xs → runInputs xs s = .next t → t.refused = true) ∧
  (∀ (s t : State) (i : Instr), exec i s = .next t → t.refused = s.refused)

/-! ### Reset (file 70) -/

/-- R230: hardware reset sets every register to its reset value, from every state, and writes neither DST nor ENC (R231,
its first sentence); and a run starts with those values, FRAMES empty and REFUSED false. -/
def Obligations.HardwareResetSetsEveryRegister : Prop :=
  (∀ (s : State) (rest : List Input), s.input = .reset :: rest →
    ∃ t, step s = .next t ∧ t.scnW = 0 ∧ t.scnP = 0 ∧ t.decStatus = .parsing ∧ t.decCur = 0 ∧ t.decW = 0 ∧
      t.decCap = BitVec.ofNat 32 s.params.dstSize ∧ t.decLast = .parsing ∧
      State.sameBytes s t .dst ∧ State.sameBytes s t .enc ∧ t.params = s.params ∧ t.input = rest) ∧
  (∀ (p : Params) (q : Nat), (State.resetWith p q).scnW = 0 ∧ (State.resetWith p q).scnP = 0 ∧
    (State.resetWith p q).decStatus = .parsing ∧ (State.resetWith p q).decCur = 0 ∧ (State.resetWith p q).decW = 0 ∧
    (State.resetWith p q).decCap = BitVec.ofNat 32 p.dstSize ∧ (State.resetWith p q).decLast = .parsing ∧
    (State.resetWith p q).frames = [] ∧ (State.resetWith p q).refused = false)

/-- The model's choice of log 7: a hardware reset starts a new run, so FRAMES and the responses are empty and REFUSED is
false after it, even in a run that was refused. R230 says how a run starts, not what a reset inside one does. -/
def Obligations.HardwareResetStartsARun : Prop :=
  ∀ (s : State) (rest : List Input), s.input = .reset :: rest →
    ∃ t, step s = .next t ∧ t.frames = [] ∧ t.responses = [] ∧ t.hostReads = [] ∧ t.refused = false

/-- R232: the decoder after reset is the decoder after `DEC_INIT DST_SIZE`, the scanner after reset is the scanner after
`SCAN_SETW 0; SCAN_START`, and after reset the block waits for the first command. -/
def Obligations.ResetEqualsInitialisation : Prop :=
  ∀ (s : State), s.params.wellFormed = true →
    (∃ t, exec (.decInit (BitVec.ofNat 32 s.params.dstSize)) s = .next t ∧ State.sameDecoder s.hardwareReset t) ∧
    (∃ t u, exec (.scanSetw 0) s = .next t ∧ exec .scanStart t = .next u ∧ State.sameScanner s.hardwareReset u) ∧
    (∀ p q, step (State.resetWith p q) = .next (State.resetWith p q))

/-- The invariant holds right after reset, for all legal parameters and any power-on contents, and of the machine's own
reset state (whose parameters are log 3's choice). -/
def Obligations.ResetMeetsInvariant : Prop :=
  (∀ (p : Params) (q : Nat), p.wellFormed = true → (State.resetWith p q).Inv) ∧ Sys2Proof.core.reset = State.reset ∧
    State.reset.Inv

/-- R27, R29, R31, R33, R63, and R32's window clause: the invariant is kept by every step, whatever the input. -/
def Obligations.EveryStepKeepsInvariant : Prop :=
  ∀ s t : State, s.Inv → step s = .next t → t.Inv

/-- R63: in a state that meets the invariant, no command reaches an index outside DST or ENC. -/
def Obligations.NoCommandLeavesMemory : Prop :=
  ∀ (s : State) (i : Instr) (f : Fault), s.Inv → exec i s ≠ .fault f

/-! ### Whole-machine rules over all commands -/

/-- R73: every command that completes, and every word that is no command, returns exactly one response; a response with
`err = 1` is `(1, 0, 0)` and then nothing else changed; and no command touches REFUSED, the parameters or the host's
side. -/
def Obligations.EveryCommandRespondsOnce : Prop :=
  ∀ (w : CmdWord) (s t : State), runCommand w s = .next t →
    (∃ r, t.responses = s.responses ++ [r] ∧ (r.err = true → r = ⟨true, false, 0⟩ ∧ t = s.respond r)) ∧
    State.sameSurroundings s t

/-- R33: only DEC_INGEST appends to FRAMES, at most one event at a time, and nothing removes one. -/
def Obligations.OnlyIngestEmitsFrames : Prop :=
  ∀ (i : Instr) (s t : State), exec i s = .next t →
    (isIngestCommand i = false → t.frames = s.frames) ∧
    (t.frames = s.frames ∨ ∃ e, t.frames = s.frames ++ [e])

/-- R51, R34, R62: DST is written by DEC_INGEST only, below DEC.CAP; ENC by `ENC_FRAME L` only, below `L + 8`. -/
def Obligations.UnitsWriteOnlyTheirMemory : Prop :=
  ∀ (i : Instr) (s t : State), s.Inv → exec i s = .next t →
    (isIngestCommand i = false → State.sameBytes s t .dst) ∧
    (∀ a, s.decCap.toNat ≤ a → t.byteAt .dst a = s.byteAt .dst a) ∧
    ((∀ len, i ≠ .encFrame len) → State.sameBytes s t .enc) ∧
    (∀ len a, i = .encFrame len → len.toNat + 8 ≤ a → t.byteAt .enc a = s.byteAt .enc a)

/-- R128: the other units neither write nor read SCN.W and SCN.P, and the scanner commands neither write nor read DEC.W,
nor write ENC. -/
def Obligations.WindowsAreIndependent : Prop :=
  ∀ (i : Instr) (s : State),
    (isScannerCommand i = false → (∀ t, exec i s = .next t → State.sameScanner s t) ∧
      ∀ w p, exec i ((s.setScnW w).setScnP p) = andThen (exec i s) fun t => .next ((t.setScnW w).setScnP p)) ∧
    (isScannerCommand i = true →
      (∀ t, exec i s = .next t → State.sameDecoder s t ∧ State.sameBytes s t .enc) ∧
      ∀ w, exec i (s.setDecW w) = andThen (exec i s) fun t => .next (t.setDecW w))

/-- R204, R171: no input makes a frame's outcome, or the live status, OFFSET_OUT_OF_BOUNDS. -/
def Obligations.OutOfBoundsIsNeverReached : Prop :=
  ∀ (x : Input) (s t : State), s.decStatus ≠ .offsetOutOfBounds → s.decLast ≠ .offsetOutOfBounds →
    applyInput x s = .next t → t.decStatus ≠ .offsetOutOfBounds ∧ t.decLast ≠ .offsetOutOfBounds

/-- R210, R75 (last sentence): a command is refused in exactly two cases, ENC_OFFSET above OFFSET_MAX and a fitting
ENC_FRAME of a payload with a chain distance above OFFSET_MAX; and presenting it then sets REFUSED. Nothing is said of the
rest of the state (R252). -/
def Obligations.ExactlyTwoRefusals : Prop :=
  ∀ (i : Instr) (s : State),
    ((∃ r, exec i s = .refused r) ↔
      (∃ v, i = .encOffset v ∧ offsetMax < v.toNat) ∨
      (∃ len : Word, i = .encFrame len ∧ len.toNat + 8 ≤ s.params.encSize ∧
        ∃ d ∈ chainDistances (s.bytesAt .enc 4 len.toNat), offsetMax < d)) ∧
    (s.refused = false → (∃ r, exec i s = .refused r) →
      ∃ t, runInputs [.command (encode i)] s = .next t ∧ t.refused = true)

/-- The model's choice of log 5, marked unsafe there: the run of a refused command ends in the state from before it with
REFUSED set, whatever inputs follow, and a step from there is refused unless it takes a hardware reset. The spec gives
such a run no meaning (R252), and ENC and the response no value (I2), so this is no claim about the hardware. -/
def Obligations.RefusedRunEndsAsMarked : Prop :=
  ∀ (i : Instr) (s : State), s.refused = false → (∃ r, exec i s = .refused r) →
    (∀ xs, runInputs (.command (encode i) :: xs) s = .next s.markRefused) ∧
    ∀ x rest, x ≠ .reset → step (s.markRefused.setInput (x :: rest)) = .refused .meaninglessRun

/-- R33, R240 (its last sentence): an event is a copy; whatever the block does or the host writes later, short of a reset,
the events emitted so far stay as they are. -/
def Obligations.EventsAreNeverTakenBack : Prop :=
  ∀ (x : Input) (s t : State), x ≠ .reset → applyInput x s = .next t → ∃ events, t.frames = s.frames ++ events

/-! ### Offset codec (file 40) -/

/-- R103, R107: up to OFFSET_MAX the response is the field whose bits 6:0 are the offset's, whose bit 7 is 0 and whose
bits 31:8 are the offset's bits 30:7, with bytes 0 and 3 below 0x80, and nothing else changes; above, the command is
refused (I1). Its opcode is 0x01. -/
def Obligations.EncOffsetRespondsField : Prop :=
  ∀ (v : Word) (s : State), runsV32 0x01 .encOffset s ∧
    (v.toNat ≤ offsetMax → ∃ (t : State) (f : Word), exec (.encOffset v) s = .next t ∧
      t.responses = s.responses ++ [⟨false, false, f⟩] ∧
      f.extractLsb' 0 7 = v.extractLsb' 0 7 ∧ f.getLsbD 7 = false ∧ f.extractLsb' 8 24 = v.extractLsb' 7 24 ∧
      f.toNat % 256 < 0x80 ∧ f.toNat / 2 ^ 24 < 0x80 ∧
      State.sameScanner s t ∧ State.sameDecoder s t ∧ t.frames = s.frames ∧ State.sameBytes s t .dst ∧
      State.sameBytes s t .enc ∧ State.sameSurroundings s t) ∧
    (offsetMax < v.toNat → exec (.encOffset v) s = .refused .encOffsetRange)

/-- R104, R108, R109: DEC_OFFSET is defined for every field; its value is bits 6:0 plus bits 31:8 moved down by one, bit 7
is ignored, and its flag is bit 31, which is when the value exceeds OFFSET_MAX. Nothing else changes. -/
def Obligations.DecOffsetRespondsValue : Prop :=
  ∀ (v : Word) (s : State), runsV32 0x02 .decOffset s ∧ ∃ (t : State) (d : Word), exec (.decOffset v) s = .next t ∧
    t.responses = s.responses ++ [⟨false, v.getLsbD 31, d⟩] ∧
    d.toNat = v.toNat % 128 + v.toNat / 256 * 128 ∧ d.toNat < 2 ^ 31 ∧ (offsetMax < d.toNat ↔ v.getLsbD 31 = true) ∧
    State.sameScanner s t ∧ State.sameDecoder s t ∧ t.frames = s.frames ∧ State.sameBytes s t .dst ∧
    State.sameBytes s t .enc ∧ State.sameSurroundings s t

/-- R105: the two offset functions are inverse bijections between `[0, 2^30 - 1]` and the fields with bits 7 and 31 clear. -/
def Obligations.OffsetFunctionsAreInverse : Prop :=
  (∀ off : Word, off.toNat ≤ offsetMax → decodeOffset (encodeOffset off) = off ∧
    (encodeOffset off).getLsbD 7 = false ∧ (encodeOffset off).getLsbD 31 = false) ∧
  (∀ f : Word, f.getLsbD 7 = false → f.getLsbD 31 = false →
    encodeOffset (decodeOffset f) = f ∧ (decodeOffset f).toNat ≤ offsetMax)

/-- R106: no 4-byte window of a byte string that overlaps an Offset field equals the Marker; in particular the field
does not. -/
def Obligations.NoWindowOverAnOffsetFieldIsMarker : Prop :=
  ∀ (d k : Nat) (before after : List Byte), d ≤ offsetMax → k < before.length + 4 → before.length < k + 4 →
    ((before ++ offsetField d ++ after).drop k).take 4 ≠ markerBytes

/-! ### Marker scanner (file 41) -/

/-- R121, R122, R123: SCAN_SETW loads the window, SCAN_GETW returns it, SCAN_START clears the position and keeps the
window; each changes nothing else. The words that run them are those of their forms, and the others of their opcodes are
rejected. -/
def Obligations.ScannerRegisterCommands : Prop :=
  ∀ (s : State) (v : Word), runsV32 0x10 .scanSetw s ∧ runsZ 0x11 .scanGetw s ∧ runsZ 0x12 .scanStart s ∧
    (∃ t, exec (.scanSetw v) s = .next t ∧ t.scnW = v ∧ t.scnP = s.scnP ∧
      t.responses = s.responses ++ [⟨false, false, 0⟩] ∧ State.sameDecoder s t ∧ t.frames = s.frames ∧
      State.sameBytes s t .dst ∧ State.sameBytes s t .enc ∧ State.sameSurroundings s t) ∧
    (∃ t, exec .scanGetw s = .next t ∧ State.sameScanner s t ∧
      t.responses = s.responses ++ [⟨false, false, s.scnW⟩] ∧ State.sameDecoder s t ∧ t.frames = s.frames ∧
      State.sameBytes s t .dst ∧ State.sameBytes s t .enc ∧ State.sameSurroundings s t) ∧
    (∃ t, exec .scanStart s = .next t ∧ t.scnW = s.scnW ∧ t.scnP = 0 ∧
      t.responses = s.responses ++ [⟨false, false, 0⟩] ∧ State.sameDecoder s t ∧ t.frames = s.frames ∧
      State.sameBytes s t .dst ∧ State.sameBytes s t .enc ∧ State.sameSurroundings s t)

/-- R13, R124: SCAN_BYTE drops the oldest byte and takes the new one into bits 31:24, counts modulo `2^32`, and responds
with the flag exactly when the window equals the Marker, and with the position after the byte. -/
def Obligations.ScanByteMovesWindow : Prop :=
  ∀ (s : State) (b : Byte), runsB8 0x13 .scanByte s ∧ ∃ t, exec (.scanByte b) s = .next t ∧
    t.scnW.extractLsb' 0 24 = s.scnW.extractLsb' 8 24 ∧ t.scnW.extractLsb' 24 8 = b ∧
    t.scnP.toNat = (s.scnP.toNat + 1) % 2 ^ 32 ∧
    (∃ flag, t.responses = s.responses ++ [⟨false, flag, t.scnP⟩] ∧ (flag = true ↔ t.scnW = 0xCAFEB8DA)) ∧
    State.sameDecoder s t ∧ t.frames = s.frames ∧ State.sameBytes s t .dst ∧ State.sameBytes s t .enc ∧
    State.sameSurroundings s t

/-- R125: a Marker split across two invocations is found at the same stream position as in one. -/
def Obligations.ScanIsSplitIndependent : Prop :=
  ∀ (xs ys : List Byte) (w w1 : Word) (k : Nat), scanForMarker xs w = (false, k, w1) →
    (scanForMarker (xs ++ ys) w).1 = (scanForMarker ys w1).1 ∧
    (scanForMarker (xs ++ ys) w).2.1 = xs.length + (scanForMarker ys w1).2.1 ∧
    (scanForMarker (xs ++ ys) w).2.2 = (scanForMarker ys w1).2.2

/-- R120 with R127's second case: from a clear window the scan finds exactly the first occurrence of the Marker, and
reports the position just past it; if it finds none there is none. -/
def Obligations.ScanFindsFirstOccurrence : Prop :=
  ∀ bs : List Byte,
    ((scanForMarker bs 0).1 = true →
      4 ≤ (scanForMarker bs 0).2.1 ∧ (scanForMarker bs 0).2.1 ≤ bs.length ∧
      (bs.drop ((scanForMarker bs 0).2.1 - 4)).take 4 = markerBytes ∧
      ∀ k, k + 4 < (scanForMarker bs 0).2.1 → (bs.drop k).take 4 ≠ markerBytes) ∧
    ((scanForMarker bs 0).1 = false →
      (scanForMarker bs 0).2.1 = bs.length ∧ ∀ k, (bs.drop k).take 4 ≠ markerBytes)

/-- R126: SCAN_RANGE computes scanForMarker from the window it finds, for every list shorter than `2^32` bytes. -/
def Obligations.ScanRangeComputesScanForMarker : Prop :=
  ∀ (bs : List Byte) (s : State), bs.length < 2 ^ 32 → ∃ t, scanRange bs s = .next t ∧
    t.scnW = (scanForMarker bs s.scnW).2.2 ∧ t.scnP.toNat = (scanForMarker bs s.scnW).2.1 ∧
    (if bs = [] then false else t.lastFlag) = (scanForMarker bs s.scnW).1 ∧
    State.sameDecoder s t ∧ t.frames = s.frames ∧ State.sameBytes s t .dst ∧ State.sameBytes s t .enc

/-! ### Frame decoder (file 43) -/

/-- R161: DEC_INIT inside `[8, DST_SIZE]` sets the capacity, clears the decoder and DEC.LAST, emits nothing and writes no
byte, whatever frame was in progress; outside it is rejected. Its opcode is 0x20. -/
def Obligations.DecInitStartsDecoder : Prop :=
  ∀ (s : State) (cap : Word), runsV32 0x20 .decInit s ∧
    ((cap.toNat < 8 ∨ s.params.dstSize < cap.toNat) → exec (.decInit cap) s = .next s.reject) ∧
    (8 ≤ cap.toNat → cap.toNat ≤ s.params.dstSize → ∃ t, exec (.decInit cap) s = .next t ∧ t.decCap = cap ∧ t.decStatus = .parsing ∧ t.decCur = 0 ∧ t.decW = 0 ∧
      t.decLast = .parsing ∧ t.responses = s.responses ++ [⟨false, false, 0⟩] ∧ State.sameScanner s t ∧
      t.frames = s.frames ∧ State.sameBytes s t .dst ∧ State.sameBytes s t .enc ∧ State.sameSurroundings s t)

/-- R178, R179, R26: DEC_STATUS and DEC_LAST return the code of the live status and of the last outcome; they change
nothing else. In a state between commands the live status reads 0 or 1. The words that run them are those of form Z. -/
def Obligations.StatusCommandsReturnCodes : Prop :=
  ∀ s : State, runsZ 0x22 .decStatus s ∧ runsZ 0x23 .decLast s ∧
    (∃ t v, exec .decStatus s = .next t ∧ t.responses = s.responses ++ [⟨false, false, v⟩] ∧
      v.toNat = (match s.decStatus with
        | .parsing => 0 | .dstOverrun => 1 | .offsetTooBig => 2 | .offsetOutOfBounds => 3 | .offsetOdd => 4) ∧
      (s.statusOk → v.toNat ≤ 1) ∧
      State.sameScanner s t ∧ State.sameDecoder s t ∧ t.frames = s.frames ∧ State.sameBytes s t .dst ∧
      State.sameBytes s t .enc ∧ State.sameSurroundings s t) ∧
    (∃ t v, exec .decLast s = .next t ∧ t.responses = s.responses ++ [⟨false, false, v⟩] ∧
      v.toNat = (match s.decLast with
        | .parsing => 0 | .dstOverrun => 1 | .offsetTooBig => 2 | .offsetOutOfBounds => 3 | .offsetOdd => 4) ∧
      State.sameScanner s t ∧ State.sameDecoder s t ∧ t.frames = s.frames ∧ State.sameBytes s t .dst ∧
      State.sameBytes s t .enc ∧ State.sameSurroundings s t)

/-- R164, R165, R166: a byte that does not complete a Marker moves the window; with no error and room it is written at
DEC.CUR and counted; with no room the status becomes DST_OVERRUN and nothing is written; in an overrun frame nothing is
written. The response is `(0, 0, 0)`, and nothing else changes. -/
def Obligations.IngestAccumulates : Prop :=
  ∀ (s : State) (b : Byte), s.Inv → shiftWindow s.decW b ≠ markerWord →
    ∃ t, exec (.decIngest b) s = .next t ∧ t.decW = shiftWindow s.decW b ∧
      t.responses = s.responses ++ [⟨false, false, 0⟩] ∧ t.decCap = s.decCap ∧ t.decLast = s.decLast ∧
      t.frames = s.frames ∧ State.sameScanner s t ∧ State.sameBytes s t .enc ∧ State.sameSurroundings s t ∧
      (s.decStatus = .parsing → s.decCur.toNat < s.decCap.toNat →
        t.decStatus = .parsing ∧ t.decCur.toNat = s.decCur.toNat + 1 ∧ t.byteAt .dst s.decCur.toNat = b ∧
        ∀ a, a ≠ s.decCur.toNat → t.byteAt .dst a = s.byteAt .dst a) ∧
      (s.decStatus = .parsing → s.decCur = s.decCap →
        t.decStatus = .dstOverrun ∧ t.decCur = s.decCur ∧ State.sameBytes s t .dst) ∧
      (s.decStatus = .dstOverrun →
        t.decStatus = .dstOverrun ∧ t.decCur = s.decCur ∧ State.sameBytes s t .dst)

/-- R167, R168, R174: on a byte that completes a Marker, a frame that already overran is recorded and dropped, and a
Marker with nothing before it leaves DEC.LAST; neither is walked or delivered, the response is `(0, 0, 0)`, no byte is
written, and the decoder is reset. -/
def Obligations.FailedAndEmptyFramesAreSkipped : Prop :=
  ∀ (s : State) (b : Byte), s.Inv → shiftWindow s.decW b = markerWord →
    (s.decStatus = .dstOverrun ∨ s.decCur = 3) →
    ∃ t, exec (.decIngest b) s = .next t ∧ t.atFrameStart ∧ t.decCap = s.decCap ∧
      t.decLast = (if s.decStatus = .dstOverrun then .dstOverrun else s.decLast) ∧
      t.responses = s.responses ++ [⟨false, false, 0⟩] ∧ t.frames = s.frames ∧ State.sameScanner s t ∧
      State.sameBytes s t .dst ∧ State.sameBytes s t .enc ∧ State.sameSurroundings s t

/-- R167, R169 to R176: on a byte that completes a Marker with no error and a frame of `c = DEC.CUR - 3 >= 1` bytes, the
offset chain over the bytes as they were accumulated has one outcome; that outcome becomes DEC.LAST; Marker bytes are
restored at exactly the good link positions; the frame `DST[4..c)` is emitted and reported exactly when the chain closed;
the decoder is reset; and nothing else changes. In particular restoring never changes a field read later. -/
def Obligations.CompletedFrameFollowsChain : Prop :=
  ∀ (s : State) (b : Byte) (c : Nat), s.Inv → shiftWindow s.decW b = markerWord → s.decStatus = .parsing →
    s.decCur.toNat = c + 3 → 1 ≤ c →
    (∃ links st, Chain s.fieldAt c 0 links st) ∧
    ∀ links st, Chain s.fieldAt c 0 links st →
      ∃ t, exec (.decIngest b) s = .next t ∧ t.atFrameStart ∧ t.decCap = s.decCap ∧ t.decLast = st ∧
        (∀ a, t.byteAt .dst a = restoredByte links (s.byteAt .dst) a) ∧
        (st = .parsing → t.frames = s.frames ++ [⟨BitVec.ofNat 32 (c - 4), t.bytesAt .dst 4 (c - 4)⟩] ∧ 4 ≤ c ∧
          t.responses = s.responses ++ [⟨false, true, BitVec.ofNat 32 (c - 4)⟩]) ∧
        (st ≠ .parsing → t.frames = s.frames ∧ t.responses = s.responses ++ [⟨false, false, 0⟩]) ∧
        State.sameScanner s t ∧ State.sameBytes s t .enc ∧ State.sameSurroundings s t

/-- R176: DEC_INGEST responds `(0, 0, 0)` to a byte that does not complete a Marker; its flag is 1 and its value the length
exactly when it emitted a frame event, and otherwise its value is 0. The words that run it are those of form B8. -/
def Obligations.IngestFlagReportsDelivery : Prop :=
  (∀ s : State, runsB8 0x21 .decIngest s) ∧
  ∀ (s t : State) (b : Byte), exec (.decIngest b) s = .next t →
    ∃ flag value, t.responses = s.responses ++ [⟨false, flag, value⟩] ∧
      (flag = true ↔ t.frames ≠ s.frames) ∧
      (flag = true → ∃ bytes, t.frames = s.frames ++ [⟨value, bytes⟩]) ∧ (flag = false → value = 0) ∧
      (shiftWindow s.decW b ≠ markerWord → flag = false)

/-- R180: `floor(c / 4) + 1` iterations of the walk are enough: any larger bound gives the same answer.
The bound is the model's form of the loop (log 11). -/
def Obligations.WalkEndsInTime : Prop :=
  ∀ (s : State) (c extra : Nat), walk (c / 4 + 1 + extra) c 0 s = walk (c / 4 + 1) c 0 s

/-- R32: from the start of a frame, bytes with no Marker among them that fit in DEC.CAP stand in `DST[0..DEC.CUR)` in
arrival order, and DEC.W holds the last of them with zero bytes in the older positions. -/
def Obligations.AccumulatedBytesStandInDst : Prop :=
  ∀ (s : State) (bs : List Byte), s.Inv → s.atFrameStart → bs.length ≤ s.decCap.toNat →
    (∀ k, (bs.drop k).take 4 ≠ markerBytes) →
    ∃ t, ingestBytes bs s = .next t ∧ t.decStatus = .parsing ∧ t.decCur.toNat = bs.length ∧
      t.bytesAt .dst 0 bs.length = bs ∧ t.frames = s.frames ∧ t.decLast = s.decLast ∧
      (∀ k, k < 4 → t.decW.extractLsb' (8 * (3 - k)) 8 = if h : k < bs.length then bs[bs.length - 1 - k] else 0)

/-- R183: whatever was ingested before, a Marker brings the decoder to the start of a frame, with the same capacity, and
from then on any bytes give the events, the responses and the registers they would give after DEC_INIT with that
capacity. DEC.LAST, which DEC_INIT clears and a Marker sets (R30), agrees where it did before or once they end a frame that
is not empty. -/
def Obligations.MarkerResynchronises : Prop :=
  ∀ (s : State) (garbage : List Byte), s.Inv →
    ∃ t v, ingestBytes (garbage ++ markerBytes) s = .next t ∧ t.atFrameStart ∧ t.decCap = s.decCap ∧
      exec (.decInit s.decCap) s = .next v ∧
      ∀ bs, ∃ t1 v1 events replies, ingestBytes bs t = .next t1 ∧ ingestBytes bs v = .next v1 ∧
        t1.frames = t.frames ++ events ∧ v1.frames = v.frames ++ events ∧
        t1.responses = t.responses ++ replies ∧ v1.responses = v.responses ++ replies ∧
        t1.decStatus = v1.decStatus ∧ t1.decCur = v1.decCur ∧ t1.decW = v1.decW ∧ t1.decCap = v1.decCap ∧
        (t.decLast = v.decLast ∨ endsNonEmptyFrame bs → t1.decLast = v1.decLast)

/-- R182, R183: from the start of a frame, the decoder's responses, events and registers are functions of the bytes
ingested and the capacity: they depend neither on what DST held, nor on anything else that earlier frames left, nor on how
the bytes are grouped into chunks. DEC.LAST, which an empty frame leaves alone (R168), is a function of the bytes and of
the value it started with, and of the bytes alone once they end a frame that is not empty. So after DEC_INIT with one
capacity, which clears DEC.LAST, the same bytes leave all five decoder registers equal. -/
def Obligations.DecodingDependsOnlyOnBytes : Prop :=
  (∀ (s u : State) (bs : List Byte), s.Inv → u.Inv → s.atFrameStart → u.atFrameStart → s.decCap = u.decCap →
    ∃ s1 u1 events replies, ingestBytes bs s = .next s1 ∧ ingestBytes bs u = .next u1 ∧
      s1.frames = s.frames ++ events ∧ u1.frames = u.frames ++ events ∧
      s1.responses = s.responses ++ replies ∧ u1.responses = u.responses ++ replies ∧
      s1.decStatus = u1.decStatus ∧ s1.decCur = u1.decCur ∧ s1.decW = u1.decW ∧ s1.decCap = u1.decCap ∧
      (s.decLast = u.decLast ∨ endsNonEmptyFrame bs → s1.decLast = u1.decLast)) ∧
  (∀ (s u s0 u0 : State) (cap : Word) (bs : List Byte), s.Inv → u.Inv → 8 ≤ cap.toNat →
    cap.toNat ≤ s.params.dstSize → cap.toNat ≤ u.params.dstSize → exec (.decInit cap) s = .next s0 →
    exec (.decInit cap) u = .next u0 →
    ∃ s1 u1, ingestBytes bs s0 = .next s1 ∧ ingestBytes bs u0 = .next u1 ∧ State.sameDecoder s1 u1) ∧
  (∀ (s : State) (xs ys : List Byte), s.refused = false →
    runInputs (Pseudo.ingestChunk xs ++ Pseudo.ingestChunk ys) s = runInputs (Pseudo.ingestChunk (xs ++ ys)) s ∧
    runInputs (Pseudo.ingestChunk (xs ++ ys)) s = ingestBytes (xs ++ ys) s)

/-! ### Frame encoder (file 42) and the two together -/

/-- R140, R141, R142, R144, R145: when the payload stands at `ENC[4..4+L)`, the frame fits and no chain distance exceeds
OFFSET_MAX, however long the payload, ENC_FRAME leaves the encoded frame of the payload in `ENC[0..L+8)`, responds
`(0, 0, L + 8)`, a sum that does not wrap for any legal ENC_SIZE (R8), and changes nothing else. -/
def Obligations.EncFrameWritesEncodedFrame : Prop :=
  ∀ (s : State) (len : Word) (p : List Byte), p.length = len.toNat → s.canEncode p → s.holdsPayload p →
    runsV32 0x30 .encFrame s ∧ ∃ t, exec (.encFrame len) s = .next t ∧ t.bytesAt .enc 0 (len.toNat + 8) = encodedFrame p ∧
      (∀ a, len.toNat + 8 ≤ a → t.byteAt .enc a = s.byteAt .enc a) ∧
      t.responses = s.responses ++ [⟨false, false, len + 8⟩] ∧
      (s.params.wellFormed = true → (len + 8).toNat = len.toNat + 8) ∧
      State.sameScanner s t ∧ State.sameDecoder s t ∧ t.frames = s.frames ∧ State.sameBytes s t .dst ∧
      State.sameSurroundings s t

/-- R144, R210: ENC_FRAME that is not rejected is refused exactly when some chain distance of the payload exceeds
OFFSET_MAX, which a payload of at most OFFSET_MAX bytes never has. -/
def Obligations.EncFrameRefusesOnlyLongDistances : Prop :=
  ∀ (s : State) (len : Word) (p : List Byte), p.length = len.toNat → len.toNat + 8 ≤ s.params.encSize →
    s.holdsPayload p →
    (exec (.encFrame len) s = .refused .encDistanceRange ↔ ∃ d ∈ chainDistances p, offsetMax < d) ∧
    (∀ d ∈ chainDistances p, d ≤ p.length)

/-- R87, R146 (its first form), R53: `ENCODE_FRAME p`, the host's write of the payload followed by ENC_FRAME of its length,
leaves the encoded frame of `p` in ENC and responds with its length, whatever ENC held before, for every payload that fits
and whose chain distances do. The length fits the 32-bit operand, as it does for every legal ENC_SIZE (R8). -/
def Obligations.EncodeFramePseudoEncodes : Prop :=
  ∀ (s : State) (p : List Byte), s.refused = false → s.canEncode p → p.length < 2 ^ 32 →
    ∃ t, runInputs (Pseudo.encodeFrame p) s = .next t ∧ t.bytesAt .enc 0 (p.length + 8) = encodedFrame p ∧
      (∀ a, p.length + 8 ≤ a → t.byteAt .enc a = s.byteAt .enc a) ∧
      t.responses = s.responses ++ [⟨false, false, BitVec.ofNat 32 (p.length + 8)⟩] ∧ State.sameBytes s t .dst ∧
      State.sameScanner s t ∧ State.sameDecoder s t ∧ t.frames = s.frames ∧ State.sameSurroundings s t

/-- R145: an encoded frame is 8 bytes longer than its payload, its head and every byte that was no part of an occurrence
are as R140 says, and its last four bytes are the Marker. -/
def Obligations.EncodedFrameShape : Prop :=
  ∀ p : List Byte, (encodedFrame p).length = p.length + 8 ∧
    (encodedFrame p).take 4 = offsetField (distanceToNext p) ∧
    (encodedFrame p).drop (p.length + 4) = markerBytes ∧
    ∀ k, k < p.length → (∀ j, j ≤ k → k < j + 4 → (p.drop j).take 4 ≠ markerBytes) →
      (encodedFrame p)[k + 4]? = p[k]?

/-- R147: the only occurrence of the Marker in an encoded frame is its foot, for every payload ENC_FRAME encodes (R144). -/
def Obligations.EncodedFrameHasOneMarker : Prop :=
  ∀ (p : List Byte) (k : Nat), distancesFit p →
    (((encodedFrame p).drop k).take 4 = markerBytes ↔ k = p.length + 4)

/-- R181: what ENC_FRAME leaves in ENC, ingested byte by byte by a decoder at the start of a frame with
`DEC.CAP >= L + 7`, gives exactly one event, the payload, on the last byte, and none before it. R181 says so for
`L <= OFFSET_MAX`, where every distance fits (R144); here it is said for every payload whose distances fit. -/
def Obligations.RoundTripThroughEncAndDst : Prop :=
  ∀ (s : State) (len : Word) (p : List Byte), s.Inv → p.length = len.toNat → s.canEncode p →
    s.holdsPayload p → s.atFrameStart → p.length + 7 ≤ s.decCap.toNat →
    ∃ t u, exec (.encFrame len) s = .next t ∧
      ingestBytes (t.bytesAt .enc 0 (len.toNat + 8)) t = .next u ∧
      u.frames = s.frames ++ [⟨len, p⟩] ∧ u.decLast = .parsing ∧ u.atFrameStart ∧
      u.responses = t.responses ++ (List.replicate (p.length + 7) ⟨false, false, 0⟩ ++ [⟨false, true, len⟩])

/-- R181, R174, and §8's multi-frame test (C2, W3): a conforming stream of any number of frames that fit, empty payloads
among them, is delivered payload by payload, in order, with no extra and no missing event. -/
def Obligations.ConformingStreamIsDelivered : Prop :=
  ∀ (s : State) (ps : List (List Byte)), s.Inv → s.atFrameStart →
    (∀ p ∈ ps, distancesFit p ∧ p.length + 7 ≤ s.decCap.toNat) →
    ∃ t, ingestBytes (conformingStream ps) s = .next t ∧ t.frames = s.frames ++ ps.map frameOf ∧ t.atFrameStart ∧
      t.decCap = s.decCap ∧ (ps ≠ [] → t.decLast = .parsing)

/-- R244, R166, I9: an encoded frame with `DEC.CAP < L + 7` is dropped with DST_OVERRUN; with `R181` this makes
`L + 7` the exact boundary. -/
def Obligations.FrameBeyondCapacityOverruns : Prop :=
  ∀ (s : State) (p : List Byte), s.Inv → s.atFrameStart → distancesFit p → s.decCap.toNat < p.length + 7 →
    ∃ t, ingestBytes (encodedFrame p) s = .next t ∧ t.frames = s.frames ∧ t.decLast = .dstOverrun ∧ t.atFrameStart ∧
      t.responses = s.responses ++ List.replicate (p.length + 8) ⟨false, false, 0⟩

/-- R183, R207: whatever a frame held, corrupted or not, the conforming frame after its Marker is delivered. -/
def Obligations.CorruptionIsContained : Prop :=
  ∀ (s : State) (garbage p : List Byte), s.Inv → distancesFit p → p.length + 7 ≤ s.decCap.toNat →
    ∃ t u, ingestBytes (garbage ++ markerBytes) s = .next t ∧
      ingestBytes (garbage ++ markerBytes ++ encodedFrame p) s = .next u ∧
      u.frames = t.frames ++ [frameOf p] ∧ u.decLast = .parsing ∧ u.atFrameStart
end

