-- ==== Sys2Proof/Laws/State.lean ====
section
/-! SUPPORT. Every field after every state update: one lemma per field and update, so that no proof unfolds a record
update. -/

namespace Sys2Proof.Machine

/-! ### Register writes -/

@[simp] theorem State.setScnW_scnW (s : State) (v : Word) : (s.setScnW v).scnW = v := rfl
@[simp] theorem State.setScnW_scnP (s : State) (v : Word) : (s.setScnW v).scnP = s.scnP := rfl
@[simp] theorem State.setScnW_decStatus (s : State) (v : Word) : (s.setScnW v).decStatus = s.decStatus := rfl
@[simp] theorem State.setScnW_decCur (s : State) (v : Word) : (s.setScnW v).decCur = s.decCur := rfl
@[simp] theorem State.setScnW_decW (s : State) (v : Word) : (s.setScnW v).decW = s.decW := rfl
@[simp] theorem State.setScnW_decCap (s : State) (v : Word) : (s.setScnW v).decCap = s.decCap := rfl
@[simp] theorem State.setScnW_decLast (s : State) (v : Word) : (s.setScnW v).decLast = s.decLast := rfl
@[simp] theorem State.setScnW_frames (s : State) (v : Word) : (s.setScnW v).frames = s.frames := rfl
@[simp] theorem State.setScnW_dst (s : State) (v : Word) : (s.setScnW v).dst = s.dst := rfl
@[simp] theorem State.setScnW_enc (s : State) (v : Word) : (s.setScnW v).enc = s.enc := rfl
@[simp] theorem State.setScnW_refused (s : State) (v : Word) : (s.setScnW v).refused = s.refused := rfl
@[simp] theorem State.setScnW_params (s : State) (v : Word) : (s.setScnW v).params = s.params := rfl
@[simp] theorem State.setScnW_responses (s : State) (v : Word) : (s.setScnW v).responses = s.responses := rfl
@[simp] theorem State.setScnW_hostReads (s : State) (v : Word) : (s.setScnW v).hostReads = s.hostReads := rfl
@[simp] theorem State.setScnW_input (s : State) (v : Word) : (s.setScnW v).input = s.input := rfl
@[simp] theorem State.setScnW_powerOn (s : State) (v : Word) : (s.setScnW v).powerOn = s.powerOn := rfl

@[simp] theorem State.setScnP_scnW (s : State) (v : Word) : (s.setScnP v).scnW = s.scnW := rfl
@[simp] theorem State.setScnP_scnP (s : State) (v : Word) : (s.setScnP v).scnP = v := rfl
@[simp] theorem State.setScnP_decStatus (s : State) (v : Word) : (s.setScnP v).decStatus = s.decStatus := rfl
@[simp] theorem State.setScnP_decCur (s : State) (v : Word) : (s.setScnP v).decCur = s.decCur := rfl
@[simp] theorem State.setScnP_decW (s : State) (v : Word) : (s.setScnP v).decW = s.decW := rfl
@[simp] theorem State.setScnP_decCap (s : State) (v : Word) : (s.setScnP v).decCap = s.decCap := rfl
@[simp] theorem State.setScnP_decLast (s : State) (v : Word) : (s.setScnP v).decLast = s.decLast := rfl
@[simp] theorem State.setScnP_frames (s : State) (v : Word) : (s.setScnP v).frames = s.frames := rfl
@[simp] theorem State.setScnP_dst (s : State) (v : Word) : (s.setScnP v).dst = s.dst := rfl
@[simp] theorem State.setScnP_enc (s : State) (v : Word) : (s.setScnP v).enc = s.enc := rfl
@[simp] theorem State.setScnP_refused (s : State) (v : Word) : (s.setScnP v).refused = s.refused := rfl
@[simp] theorem State.setScnP_params (s : State) (v : Word) : (s.setScnP v).params = s.params := rfl
@[simp] theorem State.setScnP_responses (s : State) (v : Word) : (s.setScnP v).responses = s.responses := rfl
@[simp] theorem State.setScnP_hostReads (s : State) (v : Word) : (s.setScnP v).hostReads = s.hostReads := rfl
@[simp] theorem State.setScnP_input (s : State) (v : Word) : (s.setScnP v).input = s.input := rfl
@[simp] theorem State.setScnP_powerOn (s : State) (v : Word) : (s.setScnP v).powerOn = s.powerOn := rfl

@[simp] theorem State.setDecStatus_scnW (s : State) (v : Status) : (s.setDecStatus v).scnW = s.scnW := rfl
@[simp] theorem State.setDecStatus_scnP (s : State) (v : Status) : (s.setDecStatus v).scnP = s.scnP := rfl
@[simp] theorem State.setDecStatus_decStatus (s : State) (v : Status) : (s.setDecStatus v).decStatus = v := rfl
@[simp] theorem State.setDecStatus_decCur (s : State) (v : Status) : (s.setDecStatus v).decCur = s.decCur := rfl
@[simp] theorem State.setDecStatus_decW (s : State) (v : Status) : (s.setDecStatus v).decW = s.decW := rfl
@[simp] theorem State.setDecStatus_decCap (s : State) (v : Status) : (s.setDecStatus v).decCap = s.decCap := rfl
@[simp] theorem State.setDecStatus_decLast (s : State) (v : Status) : (s.setDecStatus v).decLast = s.decLast := rfl
@[simp] theorem State.setDecStatus_frames (s : State) (v : Status) : (s.setDecStatus v).frames = s.frames := rfl
@[simp] theorem State.setDecStatus_dst (s : State) (v : Status) : (s.setDecStatus v).dst = s.dst := rfl
@[simp] theorem State.setDecStatus_enc (s : State) (v : Status) : (s.setDecStatus v).enc = s.enc := rfl
@[simp] theorem State.setDecStatus_refused (s : State) (v : Status) : (s.setDecStatus v).refused = s.refused := rfl
@[simp] theorem State.setDecStatus_params (s : State) (v : Status) : (s.setDecStatus v).params = s.params := rfl
@[simp] theorem State.setDecStatus_responses (s : State) (v : Status) : (s.setDecStatus v).responses = s.responses := rfl
@[simp] theorem State.setDecStatus_hostReads (s : State) (v : Status) : (s.setDecStatus v).hostReads = s.hostReads := rfl
@[simp] theorem State.setDecStatus_input (s : State) (v : Status) : (s.setDecStatus v).input = s.input := rfl
@[simp] theorem State.setDecStatus_powerOn (s : State) (v : Status) : (s.setDecStatus v).powerOn = s.powerOn := rfl

@[simp] theorem State.setDecCur_scnW (s : State) (v : Word) : (s.setDecCur v).scnW = s.scnW := rfl
@[simp] theorem State.setDecCur_scnP (s : State) (v : Word) : (s.setDecCur v).scnP = s.scnP := rfl
@[simp] theorem State.setDecCur_decStatus (s : State) (v : Word) : (s.setDecCur v).decStatus = s.decStatus := rfl
@[simp] theorem State.setDecCur_decCur (s : State) (v : Word) : (s.setDecCur v).decCur = v := rfl
@[simp] theorem State.setDecCur_decW (s : State) (v : Word) : (s.setDecCur v).decW = s.decW := rfl
@[simp] theorem State.setDecCur_decCap (s : State) (v : Word) : (s.setDecCur v).decCap = s.decCap := rfl
@[simp] theorem State.setDecCur_decLast (s : State) (v : Word) : (s.setDecCur v).decLast = s.decLast := rfl
@[simp] theorem State.setDecCur_frames (s : State) (v : Word) : (s.setDecCur v).frames = s.frames := rfl
@[simp] theorem State.setDecCur_dst (s : State) (v : Word) : (s.setDecCur v).dst = s.dst := rfl
@[simp] theorem State.setDecCur_enc (s : State) (v : Word) : (s.setDecCur v).enc = s.enc := rfl
@[simp] theorem State.setDecCur_refused (s : State) (v : Word) : (s.setDecCur v).refused = s.refused := rfl
@[simp] theorem State.setDecCur_params (s : State) (v : Word) : (s.setDecCur v).params = s.params := rfl
@[simp] theorem State.setDecCur_responses (s : State) (v : Word) : (s.setDecCur v).responses = s.responses := rfl
@[simp] theorem State.setDecCur_hostReads (s : State) (v : Word) : (s.setDecCur v).hostReads = s.hostReads := rfl
@[simp] theorem State.setDecCur_input (s : State) (v : Word) : (s.setDecCur v).input = s.input := rfl
@[simp] theorem State.setDecCur_powerOn (s : State) (v : Word) : (s.setDecCur v).powerOn = s.powerOn := rfl

@[simp] theorem State.setDecW_scnW (s : State) (v : Word) : (s.setDecW v).scnW = s.scnW := rfl
@[simp] theorem State.setDecW_scnP (s : State) (v : Word) : (s.setDecW v).scnP = s.scnP := rfl
@[simp] theorem State.setDecW_decStatus (s : State) (v : Word) : (s.setDecW v).decStatus = s.decStatus := rfl
@[simp] theorem State.setDecW_decCur (s : State) (v : Word) : (s.setDecW v).decCur = s.decCur := rfl
@[simp] theorem State.setDecW_decW (s : State) (v : Word) : (s.setDecW v).decW = v := rfl
@[simp] theorem State.setDecW_decCap (s : State) (v : Word) : (s.setDecW v).decCap = s.decCap := rfl
@[simp] theorem State.setDecW_decLast (s : State) (v : Word) : (s.setDecW v).decLast = s.decLast := rfl
@[simp] theorem State.setDecW_frames (s : State) (v : Word) : (s.setDecW v).frames = s.frames := rfl
@[simp] theorem State.setDecW_dst (s : State) (v : Word) : (s.setDecW v).dst = s.dst := rfl
@[simp] theorem State.setDecW_enc (s : State) (v : Word) : (s.setDecW v).enc = s.enc := rfl
@[simp] theorem State.setDecW_refused (s : State) (v : Word) : (s.setDecW v).refused = s.refused := rfl
@[simp] theorem State.setDecW_params (s : State) (v : Word) : (s.setDecW v).params = s.params := rfl
@[simp] theorem State.setDecW_responses (s : State) (v : Word) : (s.setDecW v).responses = s.responses := rfl
@[simp] theorem State.setDecW_hostReads (s : State) (v : Word) : (s.setDecW v).hostReads = s.hostReads := rfl
@[simp] theorem State.setDecW_input (s : State) (v : Word) : (s.setDecW v).input = s.input := rfl
@[simp] theorem State.setDecW_powerOn (s : State) (v : Word) : (s.setDecW v).powerOn = s.powerOn := rfl

@[simp] theorem State.setDecCap_scnW (s : State) (v : Word) : (s.setDecCap v).scnW = s.scnW := rfl
@[simp] theorem State.setDecCap_scnP (s : State) (v : Word) : (s.setDecCap v).scnP = s.scnP := rfl
@[simp] theorem State.setDecCap_decStatus (s : State) (v : Word) : (s.setDecCap v).decStatus = s.decStatus := rfl
@[simp] theorem State.setDecCap_decCur (s : State) (v : Word) : (s.setDecCap v).decCur = s.decCur := rfl
@[simp] theorem State.setDecCap_decW (s : State) (v : Word) : (s.setDecCap v).decW = s.decW := rfl
@[simp] theorem State.setDecCap_decCap (s : State) (v : Word) : (s.setDecCap v).decCap = v := rfl
@[simp] theorem State.setDecCap_decLast (s : State) (v : Word) : (s.setDecCap v).decLast = s.decLast := rfl
@[simp] theorem State.setDecCap_frames (s : State) (v : Word) : (s.setDecCap v).frames = s.frames := rfl
@[simp] theorem State.setDecCap_dst (s : State) (v : Word) : (s.setDecCap v).dst = s.dst := rfl
@[simp] theorem State.setDecCap_enc (s : State) (v : Word) : (s.setDecCap v).enc = s.enc := rfl
@[simp] theorem State.setDecCap_refused (s : State) (v : Word) : (s.setDecCap v).refused = s.refused := rfl
@[simp] theorem State.setDecCap_params (s : State) (v : Word) : (s.setDecCap v).params = s.params := rfl
@[simp] theorem State.setDecCap_responses (s : State) (v : Word) : (s.setDecCap v).responses = s.responses := rfl
@[simp] theorem State.setDecCap_hostReads (s : State) (v : Word) : (s.setDecCap v).hostReads = s.hostReads := rfl
@[simp] theorem State.setDecCap_input (s : State) (v : Word) : (s.setDecCap v).input = s.input := rfl
@[simp] theorem State.setDecCap_powerOn (s : State) (v : Word) : (s.setDecCap v).powerOn = s.powerOn := rfl

@[simp] theorem State.setDecLast_scnW (s : State) (v : Status) : (s.setDecLast v).scnW = s.scnW := rfl
@[simp] theorem State.setDecLast_scnP (s : State) (v : Status) : (s.setDecLast v).scnP = s.scnP := rfl
@[simp] theorem State.setDecLast_decStatus (s : State) (v : Status) : (s.setDecLast v).decStatus = s.decStatus := rfl
@[simp] theorem State.setDecLast_decCur (s : State) (v : Status) : (s.setDecLast v).decCur = s.decCur := rfl
@[simp] theorem State.setDecLast_decW (s : State) (v : Status) : (s.setDecLast v).decW = s.decW := rfl
@[simp] theorem State.setDecLast_decCap (s : State) (v : Status) : (s.setDecLast v).decCap = s.decCap := rfl
@[simp] theorem State.setDecLast_decLast (s : State) (v : Status) : (s.setDecLast v).decLast = v := rfl
@[simp] theorem State.setDecLast_frames (s : State) (v : Status) : (s.setDecLast v).frames = s.frames := rfl
@[simp] theorem State.setDecLast_dst (s : State) (v : Status) : (s.setDecLast v).dst = s.dst := rfl
@[simp] theorem State.setDecLast_enc (s : State) (v : Status) : (s.setDecLast v).enc = s.enc := rfl
@[simp] theorem State.setDecLast_refused (s : State) (v : Status) : (s.setDecLast v).refused = s.refused := rfl
@[simp] theorem State.setDecLast_params (s : State) (v : Status) : (s.setDecLast v).params = s.params := rfl
@[simp] theorem State.setDecLast_responses (s : State) (v : Status) : (s.setDecLast v).responses = s.responses := rfl
@[simp] theorem State.setDecLast_hostReads (s : State) (v : Status) : (s.setDecLast v).hostReads = s.hostReads := rfl
@[simp] theorem State.setDecLast_input (s : State) (v : Status) : (s.setDecLast v).input = s.input := rfl
@[simp] theorem State.setDecLast_powerOn (s : State) (v : Status) : (s.setDecLast v).powerOn = s.powerOn := rfl

@[simp] theorem State.setInput_scnW (s : State) (v : List Input) : (s.setInput v).scnW = s.scnW := rfl
@[simp] theorem State.setInput_scnP (s : State) (v : List Input) : (s.setInput v).scnP = s.scnP := rfl
@[simp] theorem State.setInput_decStatus (s : State) (v : List Input) : (s.setInput v).decStatus = s.decStatus := rfl
@[simp] theorem State.setInput_decCur (s : State) (v : List Input) : (s.setInput v).decCur = s.decCur := rfl
@[simp] theorem State.setInput_decW (s : State) (v : List Input) : (s.setInput v).decW = s.decW := rfl
@[simp] theorem State.setInput_decCap (s : State) (v : List Input) : (s.setInput v).decCap = s.decCap := rfl
@[simp] theorem State.setInput_decLast (s : State) (v : List Input) : (s.setInput v).decLast = s.decLast := rfl
@[simp] theorem State.setInput_frames (s : State) (v : List Input) : (s.setInput v).frames = s.frames := rfl
@[simp] theorem State.setInput_dst (s : State) (v : List Input) : (s.setInput v).dst = s.dst := rfl
@[simp] theorem State.setInput_enc (s : State) (v : List Input) : (s.setInput v).enc = s.enc := rfl
@[simp] theorem State.setInput_refused (s : State) (v : List Input) : (s.setInput v).refused = s.refused := rfl
@[simp] theorem State.setInput_params (s : State) (v : List Input) : (s.setInput v).params = s.params := rfl
@[simp] theorem State.setInput_responses (s : State) (v : List Input) : (s.setInput v).responses = s.responses := rfl
@[simp] theorem State.setInput_hostReads (s : State) (v : List Input) : (s.setInput v).hostReads = s.hostReads := rfl
@[simp] theorem State.setInput_input (s : State) (v : List Input) : (s.setInput v).input = v := rfl
@[simp] theorem State.setInput_powerOn (s : State) (v : List Input) : (s.setInput v).powerOn = s.powerOn := rfl

/-! ### Outputs -/

@[simp] theorem State.emitFrame_scnW (s : State) (e : FrameEvent) : (s.emitFrame e).scnW = s.scnW := rfl
@[simp] theorem State.emitFrame_scnP (s : State) (e : FrameEvent) : (s.emitFrame e).scnP = s.scnP := rfl
@[simp] theorem State.emitFrame_decStatus (s : State) (e : FrameEvent) : (s.emitFrame e).decStatus = s.decStatus := rfl
@[simp] theorem State.emitFrame_decCur (s : State) (e : FrameEvent) : (s.emitFrame e).decCur = s.decCur := rfl
@[simp] theorem State.emitFrame_decW (s : State) (e : FrameEvent) : (s.emitFrame e).decW = s.decW := rfl
@[simp] theorem State.emitFrame_decCap (s : State) (e : FrameEvent) : (s.emitFrame e).decCap = s.decCap := rfl
@[simp] theorem State.emitFrame_decLast (s : State) (e : FrameEvent) : (s.emitFrame e).decLast = s.decLast := rfl
@[simp] theorem State.emitFrame_frames (s : State) (e : FrameEvent) : (s.emitFrame e).frames = s.frames ++ [e] := rfl
@[simp] theorem State.emitFrame_dst (s : State) (e : FrameEvent) : (s.emitFrame e).dst = s.dst := rfl
@[simp] theorem State.emitFrame_enc (s : State) (e : FrameEvent) : (s.emitFrame e).enc = s.enc := rfl
@[simp] theorem State.emitFrame_refused (s : State) (e : FrameEvent) : (s.emitFrame e).refused = s.refused := rfl
@[simp] theorem State.emitFrame_params (s : State) (e : FrameEvent) : (s.emitFrame e).params = s.params := rfl
@[simp] theorem State.emitFrame_responses (s : State) (e : FrameEvent) : (s.emitFrame e).responses = s.responses := rfl
@[simp] theorem State.emitFrame_hostReads (s : State) (e : FrameEvent) : (s.emitFrame e).hostReads = s.hostReads := rfl
@[simp] theorem State.emitFrame_input (s : State) (e : FrameEvent) : (s.emitFrame e).input = s.input := rfl
@[simp] theorem State.emitFrame_powerOn (s : State) (e : FrameEvent) : (s.emitFrame e).powerOn = s.powerOn := rfl

@[simp] theorem State.respond_scnW (s : State) (r : Response) : (s.respond r).scnW = s.scnW := rfl
@[simp] theorem State.respond_scnP (s : State) (r : Response) : (s.respond r).scnP = s.scnP := rfl
@[simp] theorem State.respond_decStatus (s : State) (r : Response) : (s.respond r).decStatus = s.decStatus := rfl
@[simp] theorem State.respond_decCur (s : State) (r : Response) : (s.respond r).decCur = s.decCur := rfl
@[simp] theorem State.respond_decW (s : State) (r : Response) : (s.respond r).decW = s.decW := rfl
@[simp] theorem State.respond_decCap (s : State) (r : Response) : (s.respond r).decCap = s.decCap := rfl
@[simp] theorem State.respond_decLast (s : State) (r : Response) : (s.respond r).decLast = s.decLast := rfl
@[simp] theorem State.respond_frames (s : State) (r : Response) : (s.respond r).frames = s.frames := rfl
@[simp] theorem State.respond_dst (s : State) (r : Response) : (s.respond r).dst = s.dst := rfl
@[simp] theorem State.respond_enc (s : State) (r : Response) : (s.respond r).enc = s.enc := rfl
@[simp] theorem State.respond_refused (s : State) (r : Response) : (s.respond r).refused = s.refused := rfl
@[simp] theorem State.respond_params (s : State) (r : Response) : (s.respond r).params = s.params := rfl
@[simp] theorem State.respond_responses (s : State) (r : Response) : (s.respond r).responses = s.responses ++ [r] := rfl
@[simp] theorem State.respond_hostReads (s : State) (r : Response) : (s.respond r).hostReads = s.hostReads := rfl
@[simp] theorem State.respond_input (s : State) (r : Response) : (s.respond r).input = s.input := rfl
@[simp] theorem State.respond_powerOn (s : State) (r : Response) : (s.respond r).powerOn = s.powerOn := rfl

@[simp] theorem State.answerRead_scnW (s : State) (bs : List Byte) : (s.answerRead bs).scnW = s.scnW := rfl
@[simp] theorem State.answerRead_scnP (s : State) (bs : List Byte) : (s.answerRead bs).scnP = s.scnP := rfl
@[simp] theorem State.answerRead_decStatus (s : State) (bs : List Byte) : (s.answerRead bs).decStatus = s.decStatus := rfl
@[simp] theorem State.answerRead_decCur (s : State) (bs : List Byte) : (s.answerRead bs).decCur = s.decCur := rfl
@[simp] theorem State.answerRead_decW (s : State) (bs : List Byte) : (s.answerRead bs).decW = s.decW := rfl
@[simp] theorem State.answerRead_decCap (s : State) (bs : List Byte) : (s.answerRead bs).decCap = s.decCap := rfl
@[simp] theorem State.answerRead_decLast (s : State) (bs : List Byte) : (s.answerRead bs).decLast = s.decLast := rfl
@[simp] theorem State.answerRead_frames (s : State) (bs : List Byte) : (s.answerRead bs).frames = s.frames := rfl
@[simp] theorem State.answerRead_dst (s : State) (bs : List Byte) : (s.answerRead bs).dst = s.dst := rfl
@[simp] theorem State.answerRead_enc (s : State) (bs : List Byte) : (s.answerRead bs).enc = s.enc := rfl
@[simp] theorem State.answerRead_refused (s : State) (bs : List Byte) : (s.answerRead bs).refused = s.refused := rfl
@[simp] theorem State.answerRead_params (s : State) (bs : List Byte) : (s.answerRead bs).params = s.params := rfl
@[simp] theorem State.answerRead_responses (s : State) (bs : List Byte) : (s.answerRead bs).responses = s.responses := rfl
@[simp] theorem State.answerRead_hostReads (s : State) (bs : List Byte) : (s.answerRead bs).hostReads = s.hostReads ++ [bs] := rfl
@[simp] theorem State.answerRead_input (s : State) (bs : List Byte) : (s.answerRead bs).input = s.input := rfl
@[simp] theorem State.answerRead_powerOn (s : State) (bs : List Byte) : (s.answerRead bs).powerOn = s.powerOn := rfl

@[simp] theorem State.markRefused_scnW (s : State) : (s.markRefused).scnW = s.scnW := rfl
@[simp] theorem State.markRefused_scnP (s : State) : (s.markRefused).scnP = s.scnP := rfl
@[simp] theorem State.markRefused_decStatus (s : State) : (s.markRefused).decStatus = s.decStatus := rfl
@[simp] theorem State.markRefused_decCur (s : State) : (s.markRefused).decCur = s.decCur := rfl
@[simp] theorem State.markRefused_decW (s : State) : (s.markRefused).decW = s.decW := rfl
@[simp] theorem State.markRefused_decCap (s : State) : (s.markRefused).decCap = s.decCap := rfl
@[simp] theorem State.markRefused_decLast (s : State) : (s.markRefused).decLast = s.decLast := rfl
@[simp] theorem State.markRefused_frames (s : State) : (s.markRefused).frames = s.frames := rfl
@[simp] theorem State.markRefused_dst (s : State) : (s.markRefused).dst = s.dst := rfl
@[simp] theorem State.markRefused_enc (s : State) : (s.markRefused).enc = s.enc := rfl
@[simp] theorem State.markRefused_refused (s : State) : (s.markRefused).refused = true := rfl
@[simp] theorem State.markRefused_params (s : State) : (s.markRefused).params = s.params := rfl
@[simp] theorem State.markRefused_responses (s : State) : (s.markRefused).responses = s.responses := rfl
@[simp] theorem State.markRefused_hostReads (s : State) : (s.markRefused).hostReads = s.hostReads := rfl
@[simp] theorem State.markRefused_input (s : State) : (s.markRefused).input = s.input := rfl
@[simp] theorem State.markRefused_powerOn (s : State) : (s.markRefused).powerOn = s.powerOn := rfl

@[simp] theorem State.reject_scnW (s : State) : (s.reject).scnW = s.scnW := rfl
@[simp] theorem State.reject_scnP (s : State) : (s.reject).scnP = s.scnP := rfl
@[simp] theorem State.reject_decStatus (s : State) : (s.reject).decStatus = s.decStatus := rfl
@[simp] theorem State.reject_decCur (s : State) : (s.reject).decCur = s.decCur := rfl
@[simp] theorem State.reject_decW (s : State) : (s.reject).decW = s.decW := rfl
@[simp] theorem State.reject_decCap (s : State) : (s.reject).decCap = s.decCap := rfl
@[simp] theorem State.reject_decLast (s : State) : (s.reject).decLast = s.decLast := rfl
@[simp] theorem State.reject_frames (s : State) : (s.reject).frames = s.frames := rfl
@[simp] theorem State.reject_dst (s : State) : (s.reject).dst = s.dst := rfl
@[simp] theorem State.reject_enc (s : State) : (s.reject).enc = s.enc := rfl
@[simp] theorem State.reject_refused (s : State) : (s.reject).refused = s.refused := rfl
@[simp] theorem State.reject_params (s : State) : (s.reject).params = s.params := rfl
@[simp] theorem State.reject_responses (s : State) : (s.reject).responses = s.responses ++ [rejection] := rfl
@[simp] theorem State.reject_hostReads (s : State) : (s.reject).hostReads = s.hostReads := rfl
@[simp] theorem State.reject_input (s : State) : (s.reject).input = s.input := rfl
@[simp] theorem State.reject_powerOn (s : State) : (s.reject).powerOn = s.powerOn := rfl

/-! ### Memories -/

@[simp] theorem State.setMem_scnW (s : State) (m : MemId) (c : Memory) : (s.setMem m c).scnW = s.scnW := by cases m <;> rfl
@[simp] theorem State.setMem_scnP (s : State) (m : MemId) (c : Memory) : (s.setMem m c).scnP = s.scnP := by cases m <;> rfl
@[simp] theorem State.setMem_decStatus (s : State) (m : MemId) (c : Memory) : (s.setMem m c).decStatus = s.decStatus := by cases m <;> rfl
@[simp] theorem State.setMem_decCur (s : State) (m : MemId) (c : Memory) : (s.setMem m c).decCur = s.decCur := by cases m <;> rfl
@[simp] theorem State.setMem_decW (s : State) (m : MemId) (c : Memory) : (s.setMem m c).decW = s.decW := by cases m <;> rfl
@[simp] theorem State.setMem_decCap (s : State) (m : MemId) (c : Memory) : (s.setMem m c).decCap = s.decCap := by cases m <;> rfl
@[simp] theorem State.setMem_decLast (s : State) (m : MemId) (c : Memory) : (s.setMem m c).decLast = s.decLast := by cases m <;> rfl
@[simp] theorem State.setMem_frames (s : State) (m : MemId) (c : Memory) : (s.setMem m c).frames = s.frames := by cases m <;> rfl
@[simp] theorem State.setMem_refused (s : State) (m : MemId) (c : Memory) : (s.setMem m c).refused = s.refused := by cases m <;> rfl
@[simp] theorem State.setMem_params (s : State) (m : MemId) (c : Memory) : (s.setMem m c).params = s.params := by cases m <;> rfl
@[simp] theorem State.setMem_responses (s : State) (m : MemId) (c : Memory) : (s.setMem m c).responses = s.responses := by cases m <;> rfl
@[simp] theorem State.setMem_hostReads (s : State) (m : MemId) (c : Memory) : (s.setMem m c).hostReads = s.hostReads := by cases m <;> rfl
@[simp] theorem State.setMem_input (s : State) (m : MemId) (c : Memory) : (s.setMem m c).input = s.input := by cases m <;> rfl
@[simp] theorem State.setMem_powerOn (s : State) (m : MemId) (c : Memory) : (s.setMem m c).powerOn = s.powerOn := by cases m <;> rfl
@[simp] theorem State.setMem_dst_dst (s : State) (c : Memory) : (s.setMem .dst c).dst = c := rfl
@[simp] theorem State.setMem_dst_enc (s : State) (c : Memory) : (s.setMem .dst c).enc = s.enc := rfl
@[simp] theorem State.setMem_enc_enc (s : State) (c : Memory) : (s.setMem .enc c).enc = c := rfl
@[simp] theorem State.setMem_enc_dst (s : State) (c : Memory) : (s.setMem .enc c).dst = s.dst := rfl

/-! ### Combined updates -/

@[simp] theorem State.frameError_scnW (s : State) (e : Status) : (s.frameError e).scnW = s.scnW := rfl
@[simp] theorem State.frameError_scnP (s : State) (e : Status) : (s.frameError e).scnP = s.scnP := rfl
@[simp] theorem State.frameError_decStatus (s : State) (e : Status) : (s.frameError e).decStatus = e := rfl
@[simp] theorem State.frameError_decCur (s : State) (e : Status) : (s.frameError e).decCur = s.decCur := rfl
@[simp] theorem State.frameError_decW (s : State) (e : Status) : (s.frameError e).decW = s.decW := rfl
@[simp] theorem State.frameError_decCap (s : State) (e : Status) : (s.frameError e).decCap = s.decCap := rfl
@[simp] theorem State.frameError_decLast (s : State) (e : Status) : (s.frameError e).decLast = s.decLast := rfl
@[simp] theorem State.frameError_frames (s : State) (e : Status) : (s.frameError e).frames = s.frames := rfl
@[simp] theorem State.frameError_dst (s : State) (e : Status) : (s.frameError e).dst = s.dst := rfl
@[simp] theorem State.frameError_enc (s : State) (e : Status) : (s.frameError e).enc = s.enc := rfl
@[simp] theorem State.frameError_refused (s : State) (e : Status) : (s.frameError e).refused = s.refused := rfl
@[simp] theorem State.frameError_params (s : State) (e : Status) : (s.frameError e).params = s.params := rfl
@[simp] theorem State.frameError_responses (s : State) (e : Status) : (s.frameError e).responses = s.responses := rfl
@[simp] theorem State.frameError_hostReads (s : State) (e : Status) : (s.frameError e).hostReads = s.hostReads := rfl
@[simp] theorem State.frameError_input (s : State) (e : Status) : (s.frameError e).input = s.input := rfl
@[simp] theorem State.frameError_powerOn (s : State) (e : Status) : (s.frameError e).powerOn = s.powerOn := rfl

@[simp] theorem State.endOfFrameReset_scnW (s : State) : (s.endOfFrameReset).scnW = s.scnW := rfl
@[simp] theorem State.endOfFrameReset_scnP (s : State) : (s.endOfFrameReset).scnP = s.scnP := rfl
@[simp] theorem State.endOfFrameReset_decStatus (s : State) : (s.endOfFrameReset).decStatus = .parsing := rfl
@[simp] theorem State.endOfFrameReset_decCur (s : State) : (s.endOfFrameReset).decCur = 0 := rfl
@[simp] theorem State.endOfFrameReset_decW (s : State) : (s.endOfFrameReset).decW = 0 := rfl
@[simp] theorem State.endOfFrameReset_decCap (s : State) : (s.endOfFrameReset).decCap = s.decCap := rfl
@[simp] theorem State.endOfFrameReset_decLast (s : State) : (s.endOfFrameReset).decLast = s.decLast := rfl
@[simp] theorem State.endOfFrameReset_frames (s : State) : (s.endOfFrameReset).frames = s.frames := rfl
@[simp] theorem State.endOfFrameReset_dst (s : State) : (s.endOfFrameReset).dst = s.dst := rfl
@[simp] theorem State.endOfFrameReset_enc (s : State) : (s.endOfFrameReset).enc = s.enc := rfl
@[simp] theorem State.endOfFrameReset_refused (s : State) : (s.endOfFrameReset).refused = s.refused := rfl
@[simp] theorem State.endOfFrameReset_params (s : State) : (s.endOfFrameReset).params = s.params := rfl
@[simp] theorem State.endOfFrameReset_responses (s : State) : (s.endOfFrameReset).responses = s.responses := rfl
@[simp] theorem State.endOfFrameReset_hostReads (s : State) : (s.endOfFrameReset).hostReads = s.hostReads := rfl
@[simp] theorem State.endOfFrameReset_input (s : State) : (s.endOfFrameReset).input = s.input := rfl
@[simp] theorem State.endOfFrameReset_powerOn (s : State) : (s.endOfFrameReset).powerOn = s.powerOn := rfl

@[simp] theorem State.decoderInit_scnW (s : State) (cap : Word) : (s.decoderInit cap).scnW = s.scnW := rfl
@[simp] theorem State.decoderInit_scnP (s : State) (cap : Word) : (s.decoderInit cap).scnP = s.scnP := rfl
@[simp] theorem State.decoderInit_decStatus (s : State) (cap : Word) : (s.decoderInit cap).decStatus = .parsing := rfl
@[simp] theorem State.decoderInit_decCur (s : State) (cap : Word) : (s.decoderInit cap).decCur = 0 := rfl
@[simp] theorem State.decoderInit_decW (s : State) (cap : Word) : (s.decoderInit cap).decW = 0 := rfl
@[simp] theorem State.decoderInit_decCap (s : State) (cap : Word) : (s.decoderInit cap).decCap = cap := rfl
@[simp] theorem State.decoderInit_decLast (s : State) (cap : Word) : (s.decoderInit cap).decLast = .parsing := rfl
@[simp] theorem State.decoderInit_frames (s : State) (cap : Word) : (s.decoderInit cap).frames = s.frames := rfl
@[simp] theorem State.decoderInit_dst (s : State) (cap : Word) : (s.decoderInit cap).dst = s.dst := rfl
@[simp] theorem State.decoderInit_enc (s : State) (cap : Word) : (s.decoderInit cap).enc = s.enc := rfl
@[simp] theorem State.decoderInit_refused (s : State) (cap : Word) : (s.decoderInit cap).refused = s.refused := rfl
@[simp] theorem State.decoderInit_params (s : State) (cap : Word) : (s.decoderInit cap).params = s.params := rfl
@[simp] theorem State.decoderInit_responses (s : State) (cap : Word) : (s.decoderInit cap).responses = s.responses := rfl
@[simp] theorem State.decoderInit_hostReads (s : State) (cap : Word) : (s.decoderInit cap).hostReads = s.hostReads := rfl
@[simp] theorem State.decoderInit_input (s : State) (cap : Word) : (s.decoderInit cap).input = s.input := rfl
@[simp] theorem State.decoderInit_powerOn (s : State) (cap : Word) : (s.decoderInit cap).powerOn = s.powerOn := rfl

@[simp] theorem State.scanStep_scnW (s : State) (b : Byte) : (s.scanStep b).scnW = shiftWindow s.scnW b := rfl
@[simp] theorem State.scanStep_scnP (s : State) (b : Byte) : (s.scanStep b).scnP = s.scnP + 1 := rfl
@[simp] theorem State.scanStep_decStatus (s : State) (b : Byte) : (s.scanStep b).decStatus = s.decStatus := rfl
@[simp] theorem State.scanStep_decCur (s : State) (b : Byte) : (s.scanStep b).decCur = s.decCur := rfl
@[simp] theorem State.scanStep_decW (s : State) (b : Byte) : (s.scanStep b).decW = s.decW := rfl
@[simp] theorem State.scanStep_decCap (s : State) (b : Byte) : (s.scanStep b).decCap = s.decCap := rfl
@[simp] theorem State.scanStep_decLast (s : State) (b : Byte) : (s.scanStep b).decLast = s.decLast := rfl
@[simp] theorem State.scanStep_frames (s : State) (b : Byte) : (s.scanStep b).frames = s.frames := rfl
@[simp] theorem State.scanStep_dst (s : State) (b : Byte) : (s.scanStep b).dst = s.dst := rfl
@[simp] theorem State.scanStep_enc (s : State) (b : Byte) : (s.scanStep b).enc = s.enc := rfl
@[simp] theorem State.scanStep_refused (s : State) (b : Byte) : (s.scanStep b).refused = s.refused := rfl
@[simp] theorem State.scanStep_params (s : State) (b : Byte) : (s.scanStep b).params = s.params := rfl
@[simp] theorem State.scanStep_responses (s : State) (b : Byte) : (s.scanStep b).responses = s.responses := rfl
@[simp] theorem State.scanStep_hostReads (s : State) (b : Byte) : (s.scanStep b).hostReads = s.hostReads := rfl
@[simp] theorem State.scanStep_input (s : State) (b : Byte) : (s.scanStep b).input = s.input := rfl
@[simp] theorem State.scanStep_powerOn (s : State) (b : Byte) : (s.scanStep b).powerOn = s.powerOn := rfl

@[simp] theorem State.hardwareReset_scnW (s : State) : (s.hardwareReset).scnW = 0 := rfl
@[simp] theorem State.hardwareReset_scnP (s : State) : (s.hardwareReset).scnP = 0 := rfl
@[simp] theorem State.hardwareReset_decStatus (s : State) : (s.hardwareReset).decStatus = .parsing := rfl
@[simp] theorem State.hardwareReset_decCur (s : State) : (s.hardwareReset).decCur = 0 := rfl
@[simp] theorem State.hardwareReset_decW (s : State) : (s.hardwareReset).decW = 0 := rfl
@[simp] theorem State.hardwareReset_decCap (s : State) : (s.hardwareReset).decCap = BitVec.ofNat 32 s.params.dstSize := rfl
@[simp] theorem State.hardwareReset_decLast (s : State) : (s.hardwareReset).decLast = .parsing := rfl
@[simp] theorem State.hardwareReset_frames (s : State) : (s.hardwareReset).frames = [] := rfl
@[simp] theorem State.hardwareReset_dst (s : State) : (s.hardwareReset).dst = s.dst := rfl
@[simp] theorem State.hardwareReset_enc (s : State) : (s.hardwareReset).enc = s.enc := rfl
@[simp] theorem State.hardwareReset_refused (s : State) : (s.hardwareReset).refused = false := rfl
@[simp] theorem State.hardwareReset_params (s : State) : (s.hardwareReset).params = s.params := rfl
@[simp] theorem State.hardwareReset_responses (s : State) : (s.hardwareReset).responses = [] := rfl
@[simp] theorem State.hardwareReset_hostReads (s : State) : (s.hardwareReset).hostReads = [] := rfl
@[simp] theorem State.hardwareReset_input (s : State) : (s.hardwareReset).input = s.input := rfl
@[simp] theorem State.hardwareReset_powerOn (s : State) : (s.hardwareReset).powerOn = s.powerOn := rfl

/-! ### The state right after reset -/

@[simp] theorem State.resetWith_scnW (p : Params) (q : Nat) : (State.resetWith p q).scnW = 0 := rfl
@[simp] theorem State.resetWith_scnP (p : Params) (q : Nat) : (State.resetWith p q).scnP = 0 := rfl
@[simp] theorem State.resetWith_decStatus (p : Params) (q : Nat) : (State.resetWith p q).decStatus = .parsing := rfl
@[simp] theorem State.resetWith_decCur (p : Params) (q : Nat) : (State.resetWith p q).decCur = 0 := rfl
@[simp] theorem State.resetWith_decW (p : Params) (q : Nat) : (State.resetWith p q).decW = 0 := rfl
@[simp] theorem State.resetWith_decCap (p : Params) (q : Nat) : (State.resetWith p q).decCap = BitVec.ofNat 32 p.dstSize := rfl
@[simp] theorem State.resetWith_decLast (p : Params) (q : Nat) : (State.resetWith p q).decLast = .parsing := rfl
@[simp] theorem State.resetWith_frames (p : Params) (q : Nat) : (State.resetWith p q).frames = [] := rfl
@[simp] theorem State.resetWith_dst (p : Params) (q : Nat) : (State.resetWith p q).dst = [] := rfl
@[simp] theorem State.resetWith_enc (p : Params) (q : Nat) : (State.resetWith p q).enc = [] := rfl
@[simp] theorem State.resetWith_refused (p : Params) (q : Nat) : (State.resetWith p q).refused = false := rfl
@[simp] theorem State.resetWith_params (p : Params) (q : Nat) : (State.resetWith p q).params = p := rfl
@[simp] theorem State.resetWith_responses (p : Params) (q : Nat) : (State.resetWith p q).responses = [] := rfl
@[simp] theorem State.resetWith_hostReads (p : Params) (q : Nat) : (State.resetWith p q).hostReads = [] := rfl
@[simp] theorem State.resetWith_input (p : Params) (q : Nat) : (State.resetWith p q).input = [] := rfl
@[simp] theorem State.resetWith_powerOn (p : Params) (q : Nat) : (State.resetWith p q).powerOn = q := rfl

end Sys2Proof.Machine
end

