-- ==== Sys2Proof/Laws/Ops.lean ====
section
/-! SUPPORT. What each shared operation can do, said once: sequencing, byte memories, byte order, the rolling window. -/

namespace Sys2Proof.Machine

/-! ### Sequencing -/

section
variable {α β γ : Type}

@[simp] theorem andThen_next (a : α) (f : α → Result β) : andThen (.next a) f = f a := rfl
@[simp] theorem andThen_fault (r : Fault) (f : α → Result β) : andThen (.fault r) f = .fault r := rfl
@[simp] theorem andThen_refused (r : Refusal) (f : α → Result β) : andThen (.refused r) f = .refused r := rfl

/-- Sequencing completes exactly when both parts do. -/
theorem andThen_eq_next {o : Result α} {f : α → Result β} {b : β} :
    andThen o f = .next b ↔ ∃ a, o = .next a ∧ f a = .next b := by
  cases o <;> simp

/-- Sequencing faults exactly when a part does. -/
theorem andThen_eq_fault {o : Result α} {f : α → Result β} {r : Fault} :
    andThen o f = .fault r ↔ o = .fault r ∨ ∃ a, o = .next a ∧ f a = .fault r := by
  cases o <;> simp

/-- Sequencing is refused exactly when a part is. -/
theorem andThen_eq_refused {o : Result α} {f : α → Result β} {r : Refusal} :
    andThen o f = .refused r ↔ o = .refused r ∨ ∃ a, o = .next a ∧ f a = .refused r := by
  cases o <;> simp

theorem andThen_assoc (o : Result α) (f : α → Result β) (g : β → Result γ) :
    andThen (andThen o f) g = andThen o fun a => andThen (f a) g := by
  cases o <;> rfl

end

/-! ### Byte memories -/

/-- Reading where one just wrote gives the byte written. -/
@[simp] theorem Memory.written_write_same (m : Memory) (a : Nat) (b : Byte) : (m.write a b).written a = some b := by
  induction m with
  | nil => simp [Memory.write, Memory.written]
  | cons c rest ih =>
    obtain ⟨x, y⟩ := c
    simp only [Memory.write]
    split
    · simp [Memory.written]
    · split
      · simp [Memory.written]
      · rename_i h
        simp [Memory.written, Ne.symm h, ih]

/-- A write leaves every other index alone. -/
theorem Memory.written_write_other (m : Memory) {a x : Nat} (b : Byte) (h : x ≠ a) :
    (m.write a b).written x = m.written x := by
  induction m with
  | nil => simp [Memory.write, Memory.written, Ne.symm h]
  | cons c rest ih =>
    obtain ⟨z, y⟩ := c
    simp only [Memory.write]
    split
    · simp [Memory.written, Ne.symm h]
    · split
      · rename_i h2
        subst h2
        simp [Memory.written, Ne.symm h]
      · simp [Memory.written, ih]

/-- A list write leaves every index outside its range alone. -/
theorem Memory.written_writeList_other (m : Memory) (a x : Nat) (bs : List Byte) (h : x < a ∨ a + bs.length ≤ x) :
    (m.writeList a bs).written x = m.written x := by
  induction bs generalizing m a with
  | nil => rfl
  | cons b bs ih =>
    simp only [List.length_cons] at h
    simp only [Memory.writeList]
    rw [ih _ _ (by omega), Memory.written_write_other _ _ (by omega)]

/-- A list write puts its `k`-th byte at the `k`-th index of its range. -/
theorem Memory.written_writeList_at (m : Memory) (a k : Nat) (bs : List Byte) (h : k < bs.length) :
    (m.writeList a bs).written (a + k) = some bs[k] := by
  induction bs generalizing m a k with
  | nil => simp at h
  | cons b bs ih =>
    simp only [Memory.writeList]
    cases k with
    | zero => rw [Memory.written_writeList_other _ _ _ _ (by omega)]; simp
    | succ k =>
      have := ih (m.write a b) (a + 1) k (by simpa using h)
      rw [show a + (k + 1) = a + 1 + k by omega, this]
      simp

/-- A write keeps the canonical form. -/
theorem Memory.wfFrom_write {size lo : Nat} {m : Memory} {a : Nat} (b : Byte) (h : Memory.wfFrom size lo m = true)
    (hlo : lo ≤ a) (ha : a < size) : Memory.wfFrom size lo (m.write a b) = true := by
  induction m generalizing lo with
  | nil => simp [Memory.write, Memory.wfFrom, hlo, ha]
  | cons c rest ih =>
    obtain ⟨x, y⟩ := c
    simp only [Memory.wfFrom, Bool.and_eq_true, decide_eq_true_eq] at h
    obtain ⟨⟨h1, h2⟩, h3⟩ := h
    simp only [Memory.write]
    split
    · simp only [Memory.wfFrom, Bool.and_eq_true, decide_eq_true_eq]
      exact ⟨⟨hlo, ha⟩, ⟨by omega, h2⟩, h3⟩
    · split
      · rename_i h4
        subst h4
        simp only [Memory.wfFrom, Bool.and_eq_true, decide_eq_true_eq]
        exact ⟨⟨hlo, ha⟩, h3⟩
      · simp only [Memory.wfFrom, Bool.and_eq_true, decide_eq_true_eq]
        exact ⟨⟨h1, h2⟩, ih h3 (by omega)⟩

/-- A list write inside the memory keeps the canonical form. -/
theorem Memory.wf_writeList {size : Nat} {m : Memory} {a : Nat} {bs : List Byte} (h : Memory.wf size m = true)
    (ha : bs = [] ∨ a + bs.length ≤ size) : Memory.wf size (m.writeList a bs) = true := by
  induction bs generalizing m a with
  | nil => exact h
  | cons b bs ih =>
    have ha : a + (bs.length + 1) ≤ size := by simpa using ha
    exact ih (Memory.wfFrom_write b h (by omega) (by omega)) (.inr (by omega))

/-- A canonical memory lists nothing below its first index. -/
theorem Memory.written_of_lt {size lo : Nat} {m : Memory} {a : Nat} (h : Memory.wfFrom size lo m = true) (ha : a < lo) :
    m.written a = none := by
  induction m generalizing lo with
  | nil => rfl
  | cons c rest ih =>
    obtain ⟨x, y⟩ := c
    simp only [Memory.wfFrom, Bool.and_eq_true, decide_eq_true_eq] at h
    have : x ≠ a := by omega
    simp only [Memory.written, this, if_false]
    exact ih h.2 (by omega)

/-- Canonical memories are equal data when they hold the same bytes. -/
theorem Memory.ext_written {size : Nat} {m m' : Memory} (h : Memory.wf size m = true) (h' : Memory.wf size m' = true)
    (heq : ∀ a, m.written a = m'.written a) : m = m' := by
  have key : ∀ (lo : Nat) (m m' : Memory), Memory.wfFrom size lo m = true → Memory.wfFrom size lo m' = true →
      (∀ a, m.written a = m'.written a) → m = m' := by
    intro lo m
    induction m generalizing lo with
    | nil =>
      intro m' _ _ he
      cases m' with
      | nil => rfl
      | cons c r => have := he c.1; simp [Memory.written] at this
    | cons c rest ih =>
      obtain ⟨x, y⟩ := c
      intro m' hm hm' he
      cases m' with
      | nil => have := he x; simp [Memory.written] at this
      | cons c' rest' =>
        obtain ⟨x', y'⟩ := c'
        simp only [Memory.wfFrom, Bool.and_eq_true, decide_eq_true_eq] at hm hm'
        have hx : x = x' := by
          rcases Nat.lt_trichotomy x x' with hlt | heq | hgt
          · have h1 := he x
            have h2 : x' ≠ x := by omega
            simp only [Memory.written, if_true, h2, if_false] at h1
            rw [Memory.written_of_lt hm'.2 (by omega)] at h1
            cases h1
          · exact heq
          · have h1 := he x'
            have h2 : x ≠ x' := by omega
            simp only [Memory.written, if_true, h2, if_false] at h1
            rw [Memory.written_of_lt hm.2 (by omega)] at h1
            cases h1
        subst hx
        have hy : y = y' := by have h1 := he x; simpa [Memory.written] using h1
        subst hy
        have : rest = rest' := by
          refine ih (x + 1) rest' hm.2 hm'.2 fun a => ?_
          by_cases ha : x = a
          · subst ha
            rw [Memory.written_of_lt hm.2 (by omega), Memory.written_of_lt hm'.2 (by omega)]
          · have h1 := he a
            simpa only [Memory.written, ha, if_false] using h1
        rw [this]
  exact key 0 m m' h h' heq

/-- The size of each memory is a parameter. -/
@[simp] theorem State.memSize_dst (s : State) : s.memSize .dst = s.params.dstSize := rfl
@[simp] theorem State.memSize_enc (s : State) : s.memSize .enc = s.params.encSize := rfl
@[simp] theorem State.mem_dst (s : State) : s.mem .dst = s.dst := rfl
@[simp] theorem State.mem_enc (s : State) : s.mem .enc = s.enc := rfl

/-- A byte read depends on the two memories and the power-on contents only. -/
theorem State.byteAt_congr {s t : State} {m : MemId} (h : t.mem m = s.mem m) (hp : t.powerOn = s.powerOn) (a : Nat) :
    t.byteAt m a = s.byteAt m a := by
  cases m <;> simp_all [State.byteAt, State.freeByte]

section
variable (s : State) (m : MemId) (a : Nat)
@[simp] theorem State.byteAt_setScnW (v : Word) : (s.setScnW v).byteAt m a = s.byteAt m a := by cases m <;> rfl
@[simp] theorem State.byteAt_setScnP (v : Word) : (s.setScnP v).byteAt m a = s.byteAt m a := by cases m <;> rfl
@[simp] theorem State.byteAt_setDecStatus (v : Status) : (s.setDecStatus v).byteAt m a = s.byteAt m a := by
  cases m <;> rfl
@[simp] theorem State.byteAt_setDecCur (v : Word) : (s.setDecCur v).byteAt m a = s.byteAt m a := by cases m <;> rfl
@[simp] theorem State.byteAt_setDecW (v : Word) : (s.setDecW v).byteAt m a = s.byteAt m a := by cases m <;> rfl
@[simp] theorem State.byteAt_setDecCap (v : Word) : (s.setDecCap v).byteAt m a = s.byteAt m a := by cases m <;> rfl
@[simp] theorem State.byteAt_setDecLast (v : Status) : (s.setDecLast v).byteAt m a = s.byteAt m a := by cases m <;> rfl
@[simp] theorem State.byteAt_setInput (v : List Input) : (s.setInput v).byteAt m a = s.byteAt m a := by cases m <;> rfl
@[simp] theorem State.byteAt_emitFrame (e : FrameEvent) : (s.emitFrame e).byteAt m a = s.byteAt m a := by cases m <;> rfl
@[simp] theorem State.byteAt_respond (r : Response) : (s.respond r).byteAt m a = s.byteAt m a := by cases m <;> rfl
@[simp] theorem State.byteAt_answerRead (v : List Byte) : (s.answerRead v).byteAt m a = s.byteAt m a := by cases m <;> rfl
@[simp] theorem State.byteAt_reject : s.reject.byteAt m a = s.byteAt m a := by cases m <;> rfl
@[simp] theorem State.byteAt_markRefused : s.markRefused.byteAt m a = s.byteAt m a := by cases m <;> rfl
@[simp] theorem State.byteAt_frameError (e : Status) : (s.frameError e).byteAt m a = s.byteAt m a := by cases m <;> rfl
@[simp] theorem State.byteAt_endOfFrameReset : s.endOfFrameReset.byteAt m a = s.byteAt m a := by cases m <;> rfl
@[simp] theorem State.byteAt_decoderInit (c : Word) : (s.decoderInit c).byteAt m a = s.byteAt m a := by cases m <;> rfl
@[simp] theorem State.byteAt_scanStep (b : Byte) : (s.scanStep b).byteAt m a = s.byteAt m a := by cases m <;> rfl
@[simp] theorem State.byteAt_hardwareReset : s.hardwareReset.byteAt m a = s.byteAt m a := by cases m <;> rfl
end

/-- New contents of one memory leave the other one alone (R50). -/
theorem State.byteAt_setMem_other (s : State) {m m' : MemId} (c : Memory) (h : m' ≠ m) (a : Nat) :
    (s.setMem m c).byteAt m' a = s.byteAt m' a := by
  cases m <;> cases m' <;> simp_all <;> rfl

/-- A list write puts its bytes in its range. -/
theorem State.byteAt_write_at (s : State) (m : MemId) (a k : Nat) (bs : List Byte) (h : k < bs.length) :
    (s.setMem m ((s.mem m).writeList a bs)).byteAt m (a + k) = bs[k] := by
  cases m <;> simp [State.byteAt, Memory.written_writeList_at _ _ _ _ h]

/-- A list write leaves every byte outside its range alone. -/
theorem State.byteAt_write_outside (s : State) (m : MemId) (a x : Nat) (bs : List Byte)
    (h : x < a ∨ a + bs.length ≤ x) : (s.setMem m ((s.mem m).writeList a bs)).byteAt m x = s.byteAt m x := by
  cases m <;> simp [State.byteAt, State.freeByte, Memory.written_writeList_other _ _ _ _ h]

/-! ### Byte lists -/

@[simp] theorem State.length_bytesAt (s : State) (m : MemId) (a n : Nat) : (s.bytesAt m a n).length = n := by
  induction n generalizing a with
  | zero => rfl
  | succ n ih => simp [State.bytesAt, ih]

@[simp] theorem State.getElem_bytesAt (s : State) (m : MemId) (a n k : Nat) (h : k < (s.bytesAt m a n).length) :
    (s.bytesAt m a n)[k] = s.byteAt m (a + k) := by
  induction n generalizing a k with
  | zero => simp at h
  | succ n ih =>
    cases k with
    | zero => simp [State.bytesAt]
    | succ k =>
      simp only [State.bytesAt, List.getElem_cons_succ]
      rw [ih (a + 1) k (by simpa [State.bytesAt] using h)]
      congr 1
      omega

/-- A byte list is its bytes. -/
theorem State.bytesAt_eq_iff (s : State) (m : MemId) (a : Nat) (bs : List Byte) :
    s.bytesAt m a bs.length = bs ↔ ∀ k (h : k < bs.length), s.byteAt m (a + k) = bs[k] := by
  constructor
  · intro h k hk
    have h1 : (s.bytesAt m a bs.length)[k]'(by simpa using hk) = bs[k] := by simp only [h]
    rw [← h1, State.getElem_bytesAt]
  · intro h
    apply List.ext_getElem (by simp)
    intro k h1 h2
    rw [State.getElem_bytesAt]
    exact h k h2

theorem State.bytesAt_congr {s t : State} {m : MemId} {a n : Nat} (h : ∀ k, k < n → t.byteAt m (a + k) = s.byteAt m (a + k)) :
    t.bytesAt m a n = s.bytesAt m a n := by
  apply List.ext_getElem (by simp)
  intro k h1 h2
  simp only [State.getElem_bytesAt]
  exact h k (by simpa using h1)

theorem State.bytesAt_add (s : State) (m : MemId) (a n k : Nat) :
    s.bytesAt m a (n + k) = s.bytesAt m a n ++ s.bytesAt m (a + n) k := by
  apply List.ext_getElem (by simp)
  intro i h1 h2
  simp only [List.getElem_append, State.getElem_bytesAt, State.length_bytesAt]
  split
  · rfl
  · congr 1; omega

/-! ### MemRead and MemWrite -/

theorem inMemory_iff (a n size : Nat) : inMemory a n size = true ↔ n = 0 ∨ a + n ≤ size := by
  simp [inMemory]

/-- Everything MemRead can answer when it completes. -/
theorem State.memRead_eq_next {s : State} {m : MemId} {a n : Nat} {bs : List Byte} :
    s.memRead m a n = .next bs ↔ (n = 0 ∨ a + n ≤ s.memSize m) ∧ bs = s.bytesAt m a n := by
  unfold State.memRead
  split
  · rename_i h; rw [inMemory_iff] at h; simp [h, eq_comm]
  · rename_i h; rw [inMemory_iff] at h; simp [h]

theorem State.memRead_of_fits {s : State} {m : MemId} {a n : Nat} (h : a + n ≤ s.memSize m) :
    s.memRead m a n = .next (s.bytesAt m a n) := memRead_eq_next.2 ⟨.inr h, rfl⟩

theorem State.memRead_ne_refused {s : State} {m : MemId} {a n : Nat} {r : Refusal} : s.memRead m a n ≠ .refused r := by
  unfold State.memRead; split <;> simp

/-- Everything MemWrite can answer when it completes. -/
theorem State.memWrite_eq_next {s t : State} {m : MemId} {a : Nat} {bs : List Byte} :
    s.memWrite m a bs = .next t ↔
      (bs = [] ∨ a + bs.length ≤ s.memSize m) ∧ t = s.setMem m ((s.mem m).writeList a bs) := by
  unfold State.memWrite
  split
  · rename_i h; rw [inMemory_iff, List.length_eq_zero_iff] at h; simp [h, eq_comm]
  · rename_i h; rw [inMemory_iff, List.length_eq_zero_iff] at h; simp [h]

theorem State.memWrite_of_fits {s : State} {m : MemId} {a : Nat} {bs : List Byte} (h : a + bs.length ≤ s.memSize m) :
    s.memWrite m a bs = .next (s.setMem m ((s.mem m).writeList a bs)) := memWrite_eq_next.2 ⟨.inr h, rfl⟩

theorem State.memWrite_ne_refused {s : State} {m : MemId} {a : Nat} {bs : List Byte} {r : Refusal} :
    s.memWrite m a bs ≠ .refused r := by
  unfold State.memWrite; split <;> simp

/-! ### Byte order -/

/-- `BYTES32` lists four bytes. -/
@[simp] theorem length_bytes32 (v : Word) : (bytes32 v).length = 4 := rfl

/-- The number a 4-byte field stands for (R54). -/
theorem le32_toNat (b0 b1 b2 b3 : Byte) (rest : List Byte) :
    (le32 (b0 :: b1 :: b2 :: b3 :: rest)).toNat =
      b0.toNat + b1.toNat * 2 ^ 8 + b2.toNat * 2 ^ 16 + b3.toNat * 2 ^ 24 := by
  have h0 := b0.isLt; have h1 := b1.isLt; have h2 := b2.isLt; have h3 := b3.isLt
  simp only [le32, BitVec.toNat_append]
  rw [← Nat.shiftLeft_add_eq_or_of_lt (by omega), ← Nat.shiftLeft_add_eq_or_of_lt (by omega),
    ← Nat.shiftLeft_add_eq_or_of_lt (by omega)]
  simp only [Nat.shiftLeft_eq]
  omega

/-- `LE32` and `BYTES32` are inverse (R11). -/
@[simp] theorem le32_bytes32 (v : Word) : le32 (bytes32 v) = v := by
  apply BitVec.eq_of_toNat_eq
  have := v.isLt
  simp only [bytes32, le32_toNat, BitVec.extractLsb'_toNat, Nat.shiftRight_eq_div_pow]
  omega

/-- A 4-byte list is determined by its field. -/
theorem bytes32_le32 (b0 b1 b2 b3 : Byte) : bytes32 (le32 [b0, b1, b2, b3]) = [b0, b1, b2, b3] := by
  have h0 := b0.isLt; have h1 := b1.isLt; have h2 := b2.isLt; have h3 := b3.isLt
  simp only [bytes32, List.cons.injEq, and_true]
  refine ⟨?_, ?_, ?_, ?_⟩ <;> apply BitVec.eq_of_toNat_eq <;>
    simp only [BitVec.extractLsb'_toNat, le32_toNat, Nat.shiftRight_eq_div_pow] <;> omega

/-- The Marker's bytes and its word are the same (R100). -/
theorem bytes32_markerWord : bytes32 markerWord = markerBytes := by decide

/-! ### The rolling window -/

/-- The window step on numbers (R13). -/
theorem shiftWindow_toNat (w : Word) (b : Byte) : (shiftWindow w b).toNat = w.toNat / 2 ^ 8 + b.toNat * 2 ^ 24 := by
  have hw := w.isLt; have hb := b.isLt
  have h : (b.setWidth 32 <<< 24 : Word).toNat = b.toNat <<< 24 := by
    rw [BitVec.toNat_shiftLeft, BitVec.toNat_setWidth, Nat.shiftLeft_eq, Nat.shiftLeft_eq]
    omega
  simp only [shiftWindow, BitVec.toNat_or, BitVec.toNat_ushiftRight, h]
  rw [Nat.or_comm, ← Nat.shiftLeft_add_eq_or_of_lt (by simp only [Nat.shiftRight_eq_div_pow]; omega), Nat.shiftLeft_eq,
    Nat.shiftRight_eq_div_pow]
  omega

/-- After a step the window holds the three newest old bytes and the new one. -/
theorem shiftWindow_le32 (b0 b1 b2 b3 b : Byte) : shiftWindow (le32 [b0, b1, b2, b3]) b = le32 [b1, b2, b3, b] := by
  have h0 := b0.isLt; have h1 := b1.isLt; have h2 := b2.isLt; have h3 := b3.isLt
  apply BitVec.eq_of_toNat_eq
  rw [shiftWindow_toNat, le32_toNat, le32_toNat]
  omega

/-- A window equals the Marker exactly when its four bytes do (R13). -/
theorem le32_eq_markerWord (b0 b1 b2 b3 : Byte) : le32 [b0, b1, b2, b3] = markerWord ↔ [b0, b1, b2, b3] = markerBytes := by
  constructor
  · intro h; rw [← bytes32_le32, h, bytes32_markerWord]
  · intro h; rw [h]; decide

/-- Only the byte `CA` completes a Marker. -/
theorem shiftWindow_eq_marker {w : Word} {b : Byte} (h : shiftWindow w b = markerWord) : b = 0xCA ∧ w.toNat / 2 ^ 8 = 0xFEB8DA := by
  have hw := w.isLt; have hb := b.isLt
  have h1 := congrArg BitVec.toNat h
  rw [shiftWindow_toNat] at h1
  have h2 : markerWord.toNat = 0xCAFEB8DA := rfl
  rw [h2] at h1
  refine ⟨BitVec.eq_of_toNat_eq ?_, by omega⟩
  have : (0xCA : Byte).toNat = 0xCA := rfl
  omega

end Sys2Proof.Machine
end

