-- ==== Sys2Proof/Laws/Commute.lean ====
section
/-! SUPPORT. Operations commute with an update of fields they neither read nor write: for the host's queue (R59) and for the
scanner's registers (R128). -/

namespace Sys2Proof.Machine

/-- `f` updates fields that the decoder's and the encoder's commands neither read nor write. -/
structure IgnoredUpdate (f : State → State) : Prop where
  decStatus : ∀ s, (f s).decStatus = s.decStatus
  decCur : ∀ s, (f s).decCur = s.decCur
  decCap : ∀ s, (f s).decCap = s.decCap
  decW : ∀ s, (f s).decW = s.decW
  dst : ∀ s, (f s).dst = s.dst
  enc : ∀ s, (f s).enc = s.enc
  params : ∀ s, (f s).params = s.params
  powerOn : ∀ s, (f s).powerOn = s.powerOn
  setDecStatus : ∀ s v, (f s).setDecStatus v = f (s.setDecStatus v)
  setDecCur : ∀ s v, (f s).setDecCur v = f (s.setDecCur v)
  setDecCap : ∀ s v, (f s).setDecCap v = f (s.setDecCap v)
  setDecW : ∀ s v, (f s).setDecW v = f (s.setDecW v)
  setDecLast : ∀ s v, (f s).setDecLast v = f (s.setDecLast v)
  setMem : ∀ s m v, (f s).setMem m v = f (s.setMem m v)
  emitFrame : ∀ s v, (f s).emitFrame v = f (s.emitFrame v)
  respond : ∀ s v, (f s).respond v = f (s.respond v)

/-- The update made after the operation instead of before it. -/
def afterwards (f : State → State) (o : Result State) : Result State := andThen o fun t => .next (f t)

section
variable {f : State → State} (hb : IgnoredUpdate f)
include hb

/-! Each operation answers the same whether the update is made before it or after it. -/

theorem mem_ignored (s m) : (f s).mem m = s.mem m := by cases m; exact hb.dst s; exact hb.enc s
theorem memSize_ignored (s m) : (f s).memSize m = s.memSize m := by cases m <;> simp [hb.params]
theorem byteAt_ignored (s m a) : (f s).byteAt m a = s.byteAt m a :=
  State.byteAt_congr (mem_ignored hb s m) (hb.powerOn s) a
theorem bytesAt_ignored (s m a n) : (f s).bytesAt m a n = s.bytesAt m a n :=
  State.bytesAt_congr fun _ _ => byteAt_ignored hb _ _ _
theorem memRead_ignored (s m a n) : (f s).memRead m a n = s.memRead m a n := by
  simp only [State.memRead, memSize_ignored hb, bytesAt_ignored hb]
theorem memWrite_ignored (s m a bs) : (f s).memWrite m a bs = afterwards f (s.memWrite m a bs) := by
  simp only [State.memWrite, memSize_ignored hb, mem_ignored hb, hb.setMem, afterwards]
  split <;> simp
theorem frameError_ignored (s e) : (f s).frameError e = f (s.frameError e) := by simp [State.frameError, hb.setDecStatus]
theorem endOfFrameReset_ignored (s : State) : (f s).endOfFrameReset = f s.endOfFrameReset :=
  by simp [State.endOfFrameReset, hb.setDecStatus, hb.setDecCur, hb.setDecW]

theorem walk_ignored (fuel c n s) : walk fuel c n (f s) = afterwards f (walk fuel c n s) := by
  induction fuel generalizing n s with
  | zero => simp [walk, frameError_ignored hb, afterwards]
  | succ k ih =>
    simp only [walk, memRead_ignored hb]
    split
    · simp [afterwards]
    split
    · simp [afterwards, frameError_ignored hb]
    simp only [afterwards, andThen_assoc]
    congr 1; funext field
    split
    · simp [frameError_ignored hb]
    have : restoreMarker n (f s) = afterwards f (restoreMarker n s) := by
      simp only [restoreMarker]; split
      · simp [afterwards]
      · exact memWrite_ignored hb _ _ _ _
    rw [this, afterwards, andThen_assoc, andThen_assoc]
    congr 1; funext s1
    simp only [andThen_next]
    split
    · simp [frameError_ignored hb]
    · exact ih _ _

theorem endOfFrame_ignored (s) :
    endOfFrame (f s) = andThen (endOfFrame s) fun e => .next ⟨f e.state, e.delivered, e.len⟩ := by
  simp only [endOfFrame, hb.decStatus, hb.decCur, hb.setDecLast, walkFrame, walk_ignored hb]
  split
  · simp
  split
  · simp
  simp only [afterwards, andThen_assoc]
  congr 1; funext s1
  simp only [andThen_next, finishFrame, hb.decStatus, hb.setDecLast]
  split
  · simp only [deliver, memRead_ignored hb, andThen_assoc, hb.emitFrame, andThen_next]
  · simp

theorem retractMarker_ignored (s) : retractMarker (f s) = f (retractMarker s) := by
  simp only [retractMarker, hb.decStatus, hb.setDecCur, hb.decCur]; split <;> rfl

theorem execDecIngest_ignored (b s) : execDecIngest b (f s) = afterwards f (execDecIngest b s) := by
  simp only [execDecIngest, hb.decW, complete, retractMarker_ignored hb, endOfFrame_ignored hb, afterwards]
  split
  · simp [andThen_assoc, endOfFrameReset_ignored hb, hb.respond]
  · simp only [accumulate, hb.decStatus, hb.decCur, hb.decCap, hb.setDecW, memWrite_ignored hb, frameError_ignored hb, hb.respond, afterwards]
    split
    · split
      · simp [andThen_assoc, hb.setDecCur, hb.respond]
      · simp
    · simp

theorem writeLink_ignored (sl d s) : writeLink sl d (f s) = afterwards f (writeLink sl d s) := by
  simp only [writeLink, memWrite_ignored hb]; split <;> simp [afterwards]

theorem encodePass_ignored (len ps i w sl cc s) :
    encodePass len ps i w sl cc (f s) = afterwards f (encodePass len ps i w sl cc s) := by
  induction ps generalizing i w sl cc s with
  | nil => simp [encodePass, writeFoot, writeLink_ignored hb, afterwards, andThen_assoc, memWrite_ignored hb]
  | cons b ps ih =>
    simp only [encodePass]
    split
    · simp only [writeLink_ignored hb, afterwards, andThen_assoc, andThen_next]
      congr 1; funext s1; exact ih _ _ _ _ _
    · exact ih _ _ _ _ _

theorem execEncFrame_ignored (len s) : execEncFrame len (f s) = afterwards f (execEncFrame len s) := by
  have e : encFrameRejected (f s) len = encFrameRejected s len := by simp [encFrameRejected, hb.params]
  simp only [execEncFrame, e, State.reject, hb.respond, encodeFrameInPlace, memRead_ignored hb, encodePass_ignored hb]
  split
  · simp [afterwards]
  · simp [afterwards, andThen_assoc, hb.respond]

theorem execDecInit_ignored (c s) : execDecInit c (f s) = afterwards f (execDecInit c s) := by
  have e : decInitRejected (f s) c = decInitRejected s c := by simp [decInitRejected, hb.params]
  simp only [execDecInit, e, State.reject, hb.respond, State.decoderInit, hb.setDecCap, endOfFrameReset_ignored hb, hb.setDecLast, afterwards]
  split <;> simp

end

/-- The queue is such a field. -/
theorem ignored_setInput (v : List Input) : IgnoredUpdate fun s => s.setInput v := by
  constructor <;> intros <;> first | rfl | (rename_i m _; cases m <;> rfl)

/-- So are the scanner's registers (R128). -/
theorem ignored_setScanner (w p : Word) : IgnoredUpdate fun s => (s.setScnW w).setScnP p := by
  constructor <;> intros <;> first | rfl | (rename_i m _; cases m <;> rfl)

end Sys2Proof.Machine
end

