-- ==== Sys2Proof/Laws/OffsetCodec.lean ====
section
/-! SUPPORT. The offset functions as arithmetic on numbers (R103, R104, R109), and their wire bytes. -/

namespace Sys2Proof.Machine

/-- Offset encoding on numbers: the low seven bits stay, the rest moves up by one bit (R103). -/
theorem encodeOffset_toNat (v : Word) (h : v.toNat < 2 ^ 31) :
    (encodeOffset v).toNat = v.toNat % 128 + v.toNat / 128 * 256 := by
  have h1 : (v &&& 0x7F#32).toNat = v.toNat % 128 := by
    rw [BitVec.toNat_and]
    exact Nat.and_two_pow_sub_one_eq_mod v.toNat 7
  have h2 : (v >>> 7 <<< 8 : Word).toNat = (v.toNat / 128) <<< 8 := by
    rw [BitVec.toNat_shiftLeft, BitVec.toNat_ushiftRight]
    simp only [Nat.shiftRight_eq_div_pow, Nat.shiftLeft_eq]
    omega
  rw [encodeOffset, BitVec.toNat_or, h1, h2, Nat.or_comm, ← Nat.shiftLeft_add_eq_or_of_lt (by omega), Nat.shiftLeft_eq]
  omega

/-- Offset decoding on numbers: bit 7 is dropped, the rest moves down by one bit (R104). -/
theorem decodeOffset_toNat (f : Word) : (decodeOffset f).toNat = f.toNat % 128 + f.toNat / 256 * 128 := by
  have hf := f.isLt
  have h1 : (f &&& 0x7F#32).toNat = f.toNat % 128 := by
    rw [BitVec.toNat_and]
    exact Nat.and_two_pow_sub_one_eq_mod f.toNat 7
  have h2 : (f >>> 8 <<< 7 : Word).toNat = (f.toNat / 256) <<< 7 := by
    rw [BitVec.toNat_shiftLeft, BitVec.toNat_ushiftRight]
    simp only [Nat.shiftRight_eq_div_pow, Nat.shiftLeft_eq]
    omega
  rw [decodeOffset, BitVec.toNat_or, h1, h2, Nat.or_comm, ← Nat.shiftLeft_add_eq_or_of_lt (by omega), Nat.shiftLeft_eq]
  omega

/-- A decoded value has 31 bits (R104). -/
theorem decodeOffset_lt (f : Word) : (decodeOffset f).toNat < 2 ^ 31 := by
  have := f.isLt
  rw [decodeOffset_toNat]
  omega

/-- `tooBig` is the bound test of R109. -/
theorem tooBig_iff (f : Word) : tooBig f = true ↔ offsetMax < (decodeOffset f).toNat := by simp [tooBig]

theorem tooBig_eq_false_iff (f : Word) : tooBig f = false ↔ (decodeOffset f).toNat ≤ offsetMax := by
  simp [tooBig]

/-- The wire field of a distance has four bytes. -/
@[simp] theorem length_offsetField (d : Nat) : (offsetField d).length = 4 := rfl

/-- The field on the wire decodes to the distance (R105). -/
theorem decodeOffset_offsetField (d : Nat) (h : d ≤ offsetMax) : (decodeOffset (le32 (offsetField d))).toNat = d := by
  have hd : d < 2 ^ 30 := by simp only [offsetMax] at h; omega
  have h1 : (BitVec.ofNat 32 d).toNat = d := by rw [BitVec.toNat_ofNat]; omega
  rw [offsetField, le32_bytes32, decodeOffset_toNat, encodeOffset_toNat _ (by omega), h1]
  omega

/-- Bytes 0 and 3 of a wire field are below 0x80 (R103), so neither is a byte of the Marker (R101). -/
theorem offsetField_bytes (d : Nat) (h : d ≤ offsetMax) :
    ∃ b0 b1 b2 b3, offsetField d = [b0, b1, b2, b3] ∧ b0.toNat < 0x80 ∧ b3.toNat < 0x80 := by
  have hd : d < 2 ^ 30 := by simp only [offsetMax] at h; omega
  have h1 : (BitVec.ofNat 32 d).toNat = d := by rw [BitVec.toNat_ofNat]; omega
  refine ⟨_, _, _, _, rfl, ?_, ?_⟩ <;>
    rw [BitVec.extractLsb'_toNat, encodeOffset_toNat _ (by omega), h1, Nat.shiftRight_eq_div_pow] <;> omega

end Sys2Proof.Machine
end

