-- ==== Sys2Proof/Laws/Window.lean ====
section
/-! SUPPORT. The rolling window over a byte list, from a clear window (R13, R102, R127): it equals the Marker exactly when
the last four bytes do. -/

namespace Sys2Proof.Machine

/-- A window that lacks bytes lacks one fewer after a byte. -/
theorem shiftWindow_mod (w : Word) (b : Byte) (n : Nat) (h : w.toNat % 2 ^ (8 * (4 - n)) = 0) :
    (shiftWindow w b).toNat % 2 ^ (8 * (4 - (n + 1))) = 0 := by
  have hw := w.isLt
  have hb := b.isLt
  rw [shiftWindow_toNat]
  match n with
  | 0 => simp only [Nat.sub_zero] at h; simp only [Nat.zero_add]; omega
  | 1 => omega
  | 2 => omega
  | n + 3 => rw [show 4 - (n + 3 + 1) = 0 by omega]; omega

/-- The same over a byte list. -/
theorem foldl_shiftWindow_mod (bs : List Byte) (w : Word) (n : Nat) (h : w.toNat % 2 ^ (8 * (4 - n)) = 0) :
    (bs.foldl shiftWindow w).toNat % 2 ^ (8 * (4 - (n + bs.length))) = 0 := by
  induction bs generalizing w n with
  | nil => exact h
  | cons b bs ih =>
    have := ih _ _ (shiftWindow_mod w b n h)
    simpa [Nat.add_assoc, Nat.add_comm, Nat.add_left_comm] using this

/-- A window that equals the Marker lacks no byte. -/
theorem four_le_of_markerWord_mod {n : Nat} (h : markerWord.toNat % 2 ^ (8 * (4 - n)) = 0) : 4 ≤ n := by
  by_contra hc
  have hm : markerWord.toNat = 0xCAFEB8DA := rfl
  rw [hm] at h
  interval_cases n <;> simp at h

/-- After four bytes the window holds exactly them. -/
theorem foldl_shiftWindow_four (pre : List Byte) (b0 b1 b2 b3 : Byte) (w : Word) :
    (pre ++ [b0, b1, b2, b3]).foldl shiftWindow w = le32 [b0, b1, b2, b3] := by
  rw [List.foldl_append]
  generalize pre.foldl shiftWindow w = v
  apply BitVec.eq_of_toNat_eq
  have := v.isLt
  have h0 := b0.isLt
  have h1 := b1.isLt
  have h2 := b2.isLt
  have h3 := b3.isLt
  simp only [List.foldl_cons, List.foldl_nil, shiftWindow_toNat, le32_toNat]
  omega

/-- From a clear window, the window equals the Marker exactly when the last four bytes do (R127). -/
theorem foldl_shiftWindow_eq_marker (bs : List Byte) :
    bs.foldl shiftWindow 0 = markerWord ↔ 4 ≤ bs.length ∧ bs.drop (bs.length - 4) = markerBytes := by
  by_cases h : bs.length < 4
  · constructor
    · intro he
      have h1 := foldl_shiftWindow_mod bs 0 0 (by simp)
      rw [he, Nat.zero_add] at h1
      have := four_le_of_markerWord_mod h1
      omega
    · omega
  · have h4 : (bs.drop (bs.length - 4)).length = 4 := by simp; omega
    obtain ⟨b0, b1, b2, b3, hb⟩ : ∃ b0 b1 b2 b3, bs.drop (bs.length - 4) = [b0, b1, b2, b3] := by
      match bs.drop (bs.length - 4), h4 with
      | [a, b, c, d], _ => exact ⟨a, b, c, d, rfl⟩
    have hsplit : bs = bs.take (bs.length - 4) ++ [b0, b1, b2, b3] := by rw [← hb, List.take_append_drop]
    have hfold : bs.foldl shiftWindow 0 = le32 [b0, b1, b2, b3] := by
      conv_lhs => rw [hsplit]
      exact foldl_shiftWindow_four _ _ _ _ _ _
    rw [hb, hfold, le32_eq_markerWord]
    exact ⟨fun h2 => ⟨by omega, h2⟩, fun h2 => h2.2⟩

/-- An occurrence at `k` is a prefix of `k + 4` bytes whose window equals the Marker. -/
theorem occurrence_iff_window (bs : List Byte) (k : Nat) :
    (bs.drop k).take 4 = markerBytes ↔ k + 4 ≤ bs.length ∧ (bs.take (k + 4)).foldl shiftWindow 0 = markerWord := by
  rw [foldl_shiftWindow_eq_marker]
  constructor
  · intro h
    have hl := congrArg List.length h
    simp [markerBytes] at hl
    refine ⟨by omega, by simp; omega, ?_⟩
    rw [← h, List.length_take, Nat.min_eq_left (by omega), List.drop_take]
    congr 1
    omega
  · rintro ⟨h1, -, h3⟩
    rw [← h3, List.length_take, Nat.min_eq_left (by omega), List.drop_take]
    congr 1
    omega

end Sys2Proof.Machine
end

