-- ==== Sys2Proof/Laws/Decoder.lean ====
section
/-! SUPPORT. What the decoder's operations can do, said once: the chain walk against the chain it follows, end-of-frame
processing, and the two transitions of DEC_INGEST. -/

namespace Sys2Proof.Machine

/-! ### The chain of a frame -/

/-- Every frame's chain has an outcome, from every position (R169, R180). -/
theorem Chain.exists_outcome (field : Nat → Word) (c n : Nat) : ∃ links st, Chain field c n links st := by
  induction h : c - n using Nat.strong_induction_on generalizing n with
  | _ k ih =>
    by_cases hn : n = c
    · exact ⟨[], .parsing, hn ▸ .closed⟩
    · by_cases hroom : c < n + 4
      · exact ⟨[], .offsetOdd, .odd hn hroom⟩
      · by_cases hbig : offsetMax < (decodeOffset (field n)).toNat
        · exact ⟨[], .offsetTooBig, .tooBig (by omega) hbig⟩
        · obtain ⟨links, st, hc⟩ := ih (c - (n + (decodeOffset (field n)).toNat + 4)) (by omega) _ rfl
          exact ⟨_, st, .link (by omega) (by omega) hc⟩

/-- Links lie at or after the position the chain is followed from. -/
theorem Chain.le_of_mem {field : Nat → Word} {c n : Nat} {links : List Nat} {st : Status} (h : Chain field c n links st) :
    ∀ l ∈ links, n ≤ l ∧ l + 4 ≤ c := by
  induction h with
  | closed => simp
  | odd => simp
  | tooBig => simp
  | @link n links st hfit hok _ ih =>
    intro l hl
    split at hl
    · have := ih l hl; omega
    · rcases List.mem_cons.1 hl with rfl | hl
      · omega
      · have := ih l hl; omega

/-- A chain's outcome is one of three (R170, R171). -/
theorem Chain.outcome {field : Nat → Word} {c n : Nat} {links : List Nat} {st : Status} (h : Chain field c n links st) :
    st = .parsing ∨ st = .offsetOdd ∨ st = .offsetTooBig := by
  induction h with
  | closed => simp
  | odd => simp
  | tooBig => simp
  | link _ _ _ ih => exact ih

/-- A chain that closes from position 0 closes at 0 or leaves room for the head field. -/
theorem Chain.four_le {field : Nat → Word} {c : Nat} {links : List Nat} (h : Chain field c 0 links .parsing) :
    c = 0 ∨ 4 ≤ c := by
  generalize hn : 0 = n at h
  cases h with
  | closed => exact .inl rfl
  | link hfit => right; omega

/-- A chain depends only on the fields it can read. -/
theorem Chain.congr {field field' : Nat → Word} {c n : Nat} {links : List Nat} {st : Status} (h : Chain field c n links st)
    (heq : ∀ k, n ≤ k → k + 4 ≤ c → field' k = field k) : Chain field' c n links st := by
  induction h with
  | closed => exact .closed
  | odd hne hroom => exact .odd hne hroom
  | @tooBig n hfit hbig => exact .tooBig hfit (by rw [heq n (by omega) hfit]; exact hbig)
  | @link n links st hfit hok _ ih =>
    have hf := heq n (by omega) hfit
    refine .link hfit (by rw [hf]; exact hok) ?_
    rw [hf]
    exact ih fun k hk hk' => heq k (by omega) hk'

theorem restoredByte_nil (before : Nat → Byte) (a : Nat) : restoredByte [] before a = before a := rfl

theorem restoredByte_cons_in {n a : Nat} (links : List Nat) (before : Nat → Byte) (h : n ≤ a ∧ a < n + 4) :
    restoredByte (n :: links) before a = markerBytes.getD (a - n) 0 := by
  simp [restoredByte, List.find?, h]

theorem restoredByte_cons_out {n a : Nat} (links : List Nat) (before : Nat → Byte) (h : ¬ (n ≤ a ∧ a < n + 4)) :
    restoredByte (n :: links) before a = restoredByte links before a := by
  simp only [restoredByte, List.find?, h, decide_false]

/-- Outside every link the byte is the one before. -/
theorem restoredByte_outside {links : List Nat} (before : Nat → Byte) {a : Nat}
    (h : ∀ l ∈ links, ¬ (l ≤ a ∧ a < l + 4)) : restoredByte links before a = before a := by
  induction links with
  | nil => rfl
  | cons n links ih =>
    rw [restoredByte_cons_out _ _ (h n (by simp)), ih fun l hl => h l (by simp [hl])]

/-- A restored byte depends on the byte before only where nothing is restored. -/
theorem restoredByte_congr {links : List Nat} {before before' : Nat → Byte} {a : Nat} (h : before a = before' a) :
    restoredByte links before a = restoredByte links before' a := by
  induction links with
  | nil => exact h
  | cons n links ih =>
    by_cases hin : n ≤ a ∧ a < n + 4
    · rw [restoredByte_cons_in _ _ hin, restoredByte_cons_in _ _ hin]
    · rw [restoredByte_cons_out _ _ hin, restoredByte_cons_out _ _ hin, ih]

/-! ### The walk -/

/-- Everything the walk can do when it completes: DST below `c` and the status (R169 to R172). -/
theorem walk_effect {fuel c n : Nat} {s t : State} (h : walk fuel c n s = .next t) :
    ∃ m st, t = { s with dst := m, decStatus := st } ∧ (st = s.decStatus ∨ st = .offsetOdd ∨ st = .offsetTooBig) ∧
      (∀ a, c ≤ a → m.written a = s.dst.written a) ∧
      (Memory.wf s.params.dstSize s.dst = true → Memory.wf s.params.dstSize m = true) := by
  induction fuel generalizing n s with
  | zero =>
    cases h
    exact ⟨s.dst, .offsetOdd, rfl, by simp, fun _ _ => rfl, id⟩
  | succ fuel ih =>
    rw [walk] at h
    split at h
    · injection h with h
      rw [← h]
      exact ⟨s.dst, s.decStatus, rfl, by simp, fun _ _ => rfl, id⟩
    split at h
    · cases h
      exact ⟨s.dst, .offsetOdd, rfl, by simp, fun _ _ => rfl, id⟩
    rename_i hroom
    obtain ⟨field, -, h⟩ := andThen_eq_next.1 h
    split at h
    · cases h
      exact ⟨s.dst, .offsetTooBig, rfl, by simp, fun _ _ => rfl, id⟩
    obtain ⟨s1, h1, h⟩ := andThen_eq_next.1 h
    rw [if_neg (by omega)] at h
    obtain ⟨m, st, rfl, hst, hm, hwf⟩ := ih h
    rw [restoreMarker] at h1
    split at h1
    · cases h1
      exact ⟨m, st, rfl, hst, hm, hwf⟩
    · obtain ⟨hfit, rfl⟩ := State.memWrite_eq_next.1 h1
      refine ⟨m, st, rfl, hst, fun a ha => ?_, fun hw => hwf (Memory.wf_writeList hw hfit)⟩
      rw [hm a ha]
      exact Memory.written_writeList_other _ _ _ _ (.inr (by simp [markerBytes]; omega))

/-- The walk is never refused. -/
theorem walk_ne_refused {fuel c n : Nat} {s : State} {r : Refusal} : walk fuel c n s ≠ .refused r := by
  induction fuel generalizing n s with
  | zero => simp [walk]
  | succ fuel ih =>
    rw [walk]
    split
    · simp
    split
    · simp
    intro h
    rcases andThen_eq_refused.1 h with h | ⟨field, -, h⟩
    · exact State.memRead_ne_refused h
    split at h
    · simp at h
    rcases andThen_eq_refused.1 h with h | ⟨s1, -, h⟩
    · rw [restoreMarker] at h
      split at h
      · simp at h
      · exact State.memWrite_ne_refused h
    · rw [if_neg (by omega)] at h
      exact ih h

/-- Iterations beyond those that fit below `c` change nothing (R180). -/
theorem walk_fuel {fuel c n : Nat} {s : State} (extra : Nat) (h : c < n + 4 * fuel) :
    walk (fuel + extra) c n s = walk fuel c n s := by
  induction fuel generalizing n s with
  | zero =>
    cases extra with
    | zero => rfl
    | succ k =>
      rw [Nat.zero_add]
      conv_lhs => rw [walk, if_neg (by omega), if_pos (by omega)]
      rfl
  | succ fuel ih =>
    rw [show fuel + 1 + extra = fuel + extra + 1 by omega, walk, walk]
    split
    · rfl
    split
    · rfl
    congr 1
    funext field
    split
    · rfl
    congr 1
    funext s1
    split
    · rfl
    · exact ih (by omega)

/-- The walk follows the chain over the fields as they were (R169): it completes, its status is the chain's outcome, and
Marker bytes stand at exactly the chain's links (R172). -/
theorem walk_chain {fuel c n : Nat} {s : State} {field : Nat → Word} {links : List Nat} {st : Status}
    (hc : c ≤ s.params.dstSize) (hfuel : c < n + 4 * fuel) (hst : s.decStatus = .parsing)
    (hfield : ∀ k, n ≤ k → k + 4 ≤ c → s.fieldAt k = field k) (h : Chain field c n links st) :
    ∃ m, walk fuel c n s = .next { s with dst := m, decStatus := st } ∧
      ∀ a, State.byteAt { s with dst := m, decStatus := st } .dst a = restoredByte links (s.byteAt .dst) a := by
  induction h generalizing fuel s with
  | closed =>
    refine ⟨s.dst, ?_, fun a => rfl⟩
    cases fuel with
    | zero => omega
    | succ fuel => rw [walk, if_pos rfl, ← hst]
  | odd hne hroom =>
    refine ⟨s.dst, ?_, fun a => rfl⟩
    cases fuel with
    | zero => rfl
    | succ fuel => rw [walk, if_neg hne, if_pos hroom]; rfl
  | @tooBig n hfit hbig =>
    refine ⟨s.dst, ?_, fun a => rfl⟩
    cases fuel with
    | zero => omega
    | succ fuel =>
      have hb : tooBig (le32 (s.bytesAt .dst n 4)) = true := by
        rw [tooBig_iff]; rw [← hfield n (by omega) hfit] at hbig; exact hbig
      rw [walk, if_neg (by omega), if_neg (by omega), State.memRead_of_fits (by simp; omega), andThen_next, if_pos hb]
      rfl
  | @link n links st hfit hok hrest ih =>
    cases fuel with
    | zero => omega
    | succ fuel =>
      have hf : le32 (s.bytesAt .dst n 4) = field n := hfield n (by omega) hfit
      have hb : tooBig (field n) = false := (tooBig_eq_false_iff _).2 hok
      rw [walk, if_neg (by omega), if_neg (by omega), State.memRead_of_fits (by simp; omega), andThen_next, hf, hb,
        if_neg (by simp)]
      by_cases hn : n = 0
      · subst hn
        obtain ⟨m, h1, h2⟩ := ih (fuel := fuel) (s := s) hc (by omega) hst fun k hk hk' => hfield k (by omega) hk'
        refine ⟨m, ?_, h2⟩
        rw [restoreMarker, if_pos rfl, andThen_next, if_neg (by omega)]
        exact h1
      · have hw : State.memWrite s .dst n markerBytes = .next { s with dst := s.dst.writeList n markerBytes } :=
          State.memWrite_of_fits (by simp [markerBytes]; omega)
        have hout : ∀ a, ¬ (n ≤ a ∧ a < n + 4) →
            State.byteAt { s with dst := s.dst.writeList n markerBytes } .dst a = s.byteAt .dst a := fun a ha =>
          State.byteAt_write_outside s .dst n a markerBytes (by simp [markerBytes]; omega)
        obtain ⟨m, h1, h2⟩ := ih (fuel := fuel) (s := { s with dst := s.dst.writeList n markerBytes }) hc (by omega) hst
          fun k hk hk' => by
            rw [← hfield k (by omega) hk']
            simp only [State.fieldAt]
            congr 1
            exact State.bytesAt_congr fun j hj => hout _ (by omega)
        refine ⟨m, ?_, fun a => ?_⟩
        · rw [restoreMarker, if_neg hn, hw, andThen_next, if_neg (by omega)]
          exact h1
        · refine (h2 a).trans ?_
          rw [if_neg hn]
          by_cases ha : n ≤ a ∧ a < n + 4
          · rw [restoredByte_cons_in _ _ ha, restoredByte_outside]
            · have := State.byteAt_write_at s .dst n (a - n) markerBytes (by simp [markerBytes]; omega)
              rw [show n + (a - n) = a by omega] at this
              rw [List.getD_eq_getElem _ _ (by simp [markerBytes]; omega)]
              exact this
            · intro l hl
              have := hrest.le_of_mem l hl
              omega
          · rw [restoredByte_cons_out _ _ ha]
            exact restoredByte_congr (hout a ha)

/-! ### End-of-frame processing -/

/-- Everything end-of-frame processing can do when it completes (R168 to R175): DST, status, DEC.LAST, and at most one
event, reported with its length. -/
theorem endOfFrame_effect {s : State} {e : FrameEnd} (h : endOfFrame s = .next e) :
    ∃ m st last fs, e.state = { s with dst := m, decStatus := st, decLast := last, frames := fs } ∧
      ((e.delivered = true ∧ ∃ bs, bs.length = s.decCur.toNat - 4 ∧
          e.len = BitVec.ofNat 32 (s.decCur.toNat - 4) ∧ fs = s.frames ++ [⟨e.len, bs⟩]) ∨
        (e.delivered = false ∧ e.len = 0 ∧ fs = s.frames)) ∧
      (last = s.decLast ∨ last = s.decStatus ∨ last = .offsetOdd ∨ last = .offsetTooBig) ∧
      (∀ a, s.decCur.toNat ≤ a → m.written a = s.dst.written a) ∧
      (Memory.wf s.params.dstSize s.dst = true → Memory.wf s.params.dstSize m = true) := by
  rw [endOfFrame] at h
  split at h
  · cases h
    exact ⟨s.dst, s.decStatus, s.decStatus, s.frames, rfl, by simp, by simp, fun _ _ => rfl, id⟩
  split at h
  · cases h
    exact ⟨s.dst, s.decStatus, s.decLast, s.frames, rfl, by simp, by simp, fun _ _ => rfl, id⟩
  obtain ⟨s1, h1, h⟩ := andThen_eq_next.1 h
  obtain ⟨m, st, rfl, hst, hm, hwf⟩ := walk_effect h1
  rw [finishFrame] at h
  split at h
  · rw [deliver] at h
    obtain ⟨bs, hbs, h⟩ := andThen_eq_next.1 h
    cases h
    obtain ⟨-, rfl⟩ := State.memRead_eq_next.1 hbs
    exact ⟨m, st, st, _, rfl, .inl ⟨rfl, _, by simp, rfl, rfl⟩, by tauto, hm, hwf⟩
  · cases h
    exact ⟨m, st, st, s.frames, rfl, by simp, by tauto, hm, hwf⟩

/-- Everything DEC_INGEST can do when it completes (R163): it writes DST, the decoder's registers but DEC.CAP, and at most
one event; it responds with no error, and with the flag exactly when it emitted. -/
theorem execDecIngest_effect {b : Byte} {s t : State} (h : execDecIngest b s = .next t) :
    ∃ m st cur w last fs flag value,
      t = { s with dst := m, decStatus := st, decCur := cur, decW := w, decLast := last, frames := fs,
                   responses := s.responses ++ [⟨false, flag, value⟩] } ∧
      ((flag = true ∧ ∃ bs, bs.length = value.toNat ∧ fs = s.frames ++ [⟨value, bs⟩]) ∨ (flag = false ∧ value = 0 ∧ fs = s.frames)) ∧
      (last = s.decLast ∨ last = s.decStatus ∨ last = .offsetOdd ∨ last = .offsetTooBig) ∧
      (st = .parsing ∨ st = .dstOverrun ∨ st = s.decStatus) ∧
      (Memory.wf s.params.dstSize s.dst = true → Memory.wf s.params.dstSize m = true) := by
  rw [execDecIngest] at h
  split at h
  · rw [complete] at h
    obtain ⟨e, he, h⟩ := andThen_eq_next.1 h
    cases h
    have hs : ∃ cur, retractMarker s = { s with decCur := cur } := by
      rw [retractMarker]; split
      · exact ⟨_, rfl⟩
      · exact ⟨s.decCur, rfl⟩
    obtain ⟨cur, hs⟩ := hs
    rw [hs] at he
    obtain ⟨m, st, last, fs, hst, hfs, hlast, -, hwf⟩ := endOfFrame_effect he
    refine ⟨m, .parsing, 0, 0, last, fs, e.delivered, e.len, ?_, ?_, hlast, by simp, hwf⟩
    · rw [hst]; rfl
    · rcases hfs with ⟨h1, bs, hlen, hval, h2⟩ | h2
      · refine .inl ⟨h1, bs, ?_, h2⟩
        have := cur.isLt
        rw [hlen, hval, BitVec.toNat_ofNat]
        simp only
        omega
      · exact .inr h2
  · rw [accumulate] at h
    split at h
    · split at h
      · obtain ⟨s1, h1, h⟩ := andThen_eq_next.1 h
        cases h
        obtain ⟨hfit, rfl⟩ := State.memWrite_eq_next.1 h1
        exact ⟨_, s.decStatus, _, _, s.decLast, s.frames, false, 0, rfl, by simp, by simp, by simp,
          fun hw => Memory.wf_writeList hw hfit⟩
      · cases h
        exact ⟨s.dst, .dstOverrun, s.decCur, _, s.decLast, s.frames, false, 0, rfl, by simp, by simp, by simp, id⟩
    · cases h
      exact ⟨s.dst, s.decStatus, s.decCur, _, s.decLast, s.frames, false, 0, rfl, by simp, by simp, by simp, id⟩

/-- DEC_INGEST is never refused. -/
theorem execDecIngest_ne_refused {b : Byte} {s : State} {r : Refusal} : execDecIngest b s ≠ .refused r := by
  intro h
  rw [execDecIngest] at h
  split at h
  · rw [complete] at h
    rcases andThen_eq_refused.1 h with h | ⟨e, -, h⟩
    · rw [endOfFrame] at h
      split at h
      · cases h
      split at h
      · cases h
      rcases andThen_eq_refused.1 h with h | ⟨s1, -, h⟩
      · exact walk_ne_refused h
      · rw [finishFrame] at h
        split at h
        · rw [deliver] at h
          rcases andThen_eq_refused.1 h with h | ⟨bs, -, h⟩
          · exact State.memRead_ne_refused h
          · cases h
        · cases h
    · cases h
  · rw [accumulate] at h
    split at h
    · split at h
      · rcases andThen_eq_refused.1 h with h | ⟨s1, -, h⟩
        · exact State.memWrite_ne_refused h
        · cases h
      · cases h
    · cases h

/-- The walk never faults inside DST. -/
theorem walk_ne_fault {fuel c n : Nat} {s : State} {f : Fault} (hc : c ≤ s.params.dstSize) : walk fuel c n s ≠ .fault f := by
  induction fuel generalizing n s with
  | zero => simp [walk]
  | succ fuel ih =>
    rw [walk]
    split
    · simp
    split
    · simp
    rw [State.memRead_of_fits (by simp; omega), andThen_next]
    split
    · simp
    intro h
    rcases andThen_eq_fault.1 h with h | ⟨s1, h1, h⟩
    · rw [restoreMarker] at h
      split at h
      · simp at h
      · rw [State.memWrite_of_fits (by simp [markerBytes]; omega)] at h
        simp at h
    · rw [if_neg (by omega)] at h
      rw [restoreMarker] at h1
      split at h1
      · cases h1
        exact ih hc h
      · obtain ⟨-, rfl⟩ := State.memWrite_eq_next.1 h1
        exact ih (s := { s with dst := s.dst.writeList n markerBytes }) hc h

/-- End-of-frame processing never faults inside DST. -/
theorem endOfFrame_ne_fault {s : State} {f : Fault} (hc : s.decCur.toNat ≤ s.params.dstSize) (h4 : 4 ≤ s.params.dstSize) :
    endOfFrame s ≠ .fault f := by
  intro h
  rw [endOfFrame] at h
  split at h
  · cases h
  split at h
  · cases h
  rcases andThen_eq_fault.1 h with h | ⟨s1, h1, h⟩
  · exact walk_ne_fault hc h
  · obtain ⟨m, st, rfl, -⟩ := walk_effect h1
    rw [finishFrame] at h
    split at h
    · rw [deliver, State.memRead_of_fits (by simp; omega)] at h
      cases h
    · cases h

/-! ### The window and the cursor (R32, R167) -/

/-- With no error, a byte that completes a Marker finds at least three bytes accumulated: DEC.CUR never underflows (R167). -/
theorem three_le_decCur {s : State} {b : Byte} (hw : s.windowOk) (hst : s.decStatus = .parsing)
    (hm : shiftWindow s.decW b = markerWord) : 3 ≤ s.decCur.toNat := by
  have h1 := shiftWindow_mod s.decW b _ (hw hst)
  rw [hm] at h1
  have := four_le_of_markerWord_mod h1
  omega

/-- DEC_INGEST never faults in a state that meets the invariant (R63). -/
theorem execDecIngest_ne_fault {b : Byte} {s : State} {f : Fault} (hinv : s.Inv) : execDecIngest b s ≠ .fault f := by
  obtain ⟨-, -, ⟨h8, hcap, hcur⟩, -, hw, -⟩ := hinv
  intro h
  rw [execDecIngest] at h
  split at h
  · rename_i hm
    rw [complete] at h
    rcases andThen_eq_fault.1 h with h | ⟨e, -, h⟩
    · refine endOfFrame_ne_fault ?_ ?_ h
      · rw [retractMarker]
        split
        · rename_i hst
          have h3 := three_le_decCur hw hst hm
          have : (s.decCur - 3).toNat ≤ s.decCur.toNat := by
            rw [BitVec.toNat_sub]
            have := s.decCur.isLt
            have : (3 : Word).toNat = 3 := rfl
            omega
          exact le_trans this (le_trans hcur hcap)
        · exact le_trans hcur hcap
      · rw [show (retractMarker s).params = s.params by rw [retractMarker]; split <;> rfl]
        omega
    · cases h
  · rw [accumulate] at h
    split at h
    · split at h
      · rename_i hlt
        have hlt : s.decCur.toNat < s.decCap.toNat := hlt
        rw [State.memWrite_of_fits (by simp; omega)] at h
        cases h
      · cases h
    · cases h

end Sys2Proof.Machine
end

