-- ==== Sys2Proof/Laws/Encoder.lean ====
section
/-! SUPPORT. The encoded frame as a function of its payload (R140), and the in-place pass of ENC_FRAME against it (R141). -/

namespace Sys2Proof.Machine

/-! ### The encoded frame -/

theorem startsWithMarker_iff (bs : List Byte) : startsWithMarker bs = true ↔ bs.take 4 = markerBytes := by
  simp [startsWithMarker]

@[simp] theorem startsWithMarker_append (rest : List Byte) : startsWithMarker (markerBytes ++ rest) = true := by
  simp [startsWithMarker, markerBytes]

/-- A list that starts with the Marker is the Marker and a rest. -/
theorem startsWithMarker_split {bs : List Byte} (h : startsWithMarker bs = true) : bs = markerBytes ++ bs.drop 4 := by
  rw [startsWithMarker_iff] at h
  rw [← h, List.take_append_drop]

/-- A byte that starts no occurrence is one more byte of distance, stays as it is, and adds no link. -/
theorem distanceToNext_cons {b : Byte} {rest : List Byte} (h : startsWithMarker (b :: rest) = false) :
    distanceToNext (b :: rest) = distanceToNext rest + 1 := by
  simp [distanceToNext, h]

theorem threadedPayload_cons {b : Byte} {rest : List Byte} (h : startsWithMarker (b :: rest) = false) :
    threadedPayload (b :: rest) = b :: threadedPayload rest := by
  match rest with
  | [] => rfl
  | [_] => rfl
  | [_, _] => rfl
  | b1 :: b2 :: b3 :: rest => rw [threadedPayload, h]; rfl

theorem linkDistances_cons {b : Byte} {rest : List Byte} (h : startsWithMarker (b :: rest) = false) :
    linkDistances (b :: rest) = linkDistances rest := by
  match rest with
  | [] => rfl
  | [_] => rfl
  | [_, _] => rfl
  | b1 :: b2 :: b3 :: rest => rw [linkDistances, h]; rfl

/-- An occurrence is at distance 0, becomes the field of the distance that follows it, and adds that link. -/
theorem distanceToNext_marker (rest : List Byte) : distanceToNext (markerBytes ++ rest) = 0 := by
  simp [markerBytes, distanceToNext, startsWithMarker]

theorem threadedPayload_marker (rest : List Byte) :
    threadedPayload (markerBytes ++ rest) = offsetField (distanceToNext rest) ++ threadedPayload rest := by
  simp [markerBytes, threadedPayload, startsWithMarker]

theorem linkDistances_marker (rest : List Byte) :
    linkDistances (markerBytes ++ rest) = distanceToNext rest :: linkDistances rest := by
  simp [markerBytes, linkDistances, startsWithMarker]

/-- Induction over a payload the way the chain cuts it up: the end, an occurrence, or a byte that starts none. -/
theorem payload_induction {motive : List Byte → Prop} (nil : motive [])
    (marker : ∀ rest, motive rest → motive (markerBytes ++ rest))
    (byte : ∀ b rest, startsWithMarker (b :: rest) = false → motive rest → motive (b :: rest)) (p : List Byte) :
    motive p := by
  induction h : p.length using Nat.strong_induction_on generalizing p with
  | _ n ih =>
    cases p with
    | nil => exact nil
    | cons b rest =>
      cases hs : startsWithMarker (b :: rest) with
      | false => exact byte b rest hs (ih rest.length (by simp at h; omega) rest rfl)
      | true =>
        rw [startsWithMarker_split hs]
        refine marker _ (ih _ ?_ _ rfl)
        rw [List.length_drop]
        simp at h ⊢
        omega

/-- Threading keeps the length. -/
@[simp] theorem length_threadedPayload (p : List Byte) : (threadedPayload p).length = p.length := by
  induction p using payload_induction with
  | nil => rfl
  | marker rest ih => rw [threadedPayload_marker, List.length_append, List.length_append, ih]; rfl
  | byte b rest h ih => simp [threadedPayload_cons h, ih]

/-- A distance is at most the length (R144). -/
theorem distanceToNext_le (p : List Byte) : distanceToNext p ≤ p.length := by
  induction p using payload_induction with
  | nil => simp [distanceToNext]
  | marker rest ih => simp [distanceToNext_marker]
  | byte b rest h ih => simp [distanceToNext_cons h, ih]

theorem chainDistances_le (p : List Byte) : ∀ d ∈ chainDistances p, d ≤ p.length := by
  induction p using payload_induction with
  | nil => simp [chainDistances, distanceToNext, linkDistances]
  | marker rest ih =>
    intro d hd
    simp only [chainDistances, distanceToNext_marker, linkDistances_marker, List.mem_cons] at hd
    rcases hd with rfl | hd
    · omega
    · have := ih d (by simpa [chainDistances] using hd)
      simp; omega
  | byte b rest h ih =>
    intro d hd
    simp only [chainDistances, distanceToNext_cons h, linkDistances_cons h, List.mem_cons] at hd
    simp only [chainDistances, List.mem_cons, forall_eq_or_imp] at ih
    rcases hd with rfl | hd
    · simp [ih.1]
    · have := ih.2 d hd
      simp; omega

/-- The host's obligation of R233 is enough: with `L <= OFFSET_MAX` no distance is too long (R144). -/
theorem distancesFit_of_length_le {p : List Byte} (h : p.length ≤ offsetMax) : distancesFit p :=
  fun d hd => (chainDistances_le p d hd).trans h

/-- A payload the host may encode (R233 item 3) is encoded. -/
theorem State.canEncode_of_readyToEncode {s : State} {p : List Byte} (h : s.readyToEncode p.length) : s.canEncode p :=
  ⟨h.1, distancesFit_of_length_le h.2⟩

@[simp] theorem length_encodedFrame (p : List Byte) : (encodedFrame p).length = p.length + 8 := by
  simp [encodedFrame, markerBytes]; omega

/-- Bytes in front of which no occurrence starts are copied, and counted into the distance. -/
theorem unmarked_prefix (pre tail : List Byte)
    (h : ∀ k, k < pre.length → startsWithMarker ((pre ++ tail).drop k) = false) :
    distanceToNext (pre ++ tail) = pre.length + distanceToNext tail ∧
    threadedPayload (pre ++ tail) = pre ++ threadedPayload tail ∧
    linkDistances (pre ++ tail) = linkDistances tail := by
  induction pre with
  | nil => simp
  | cons b pre ih =>
    have h0 : startsWithMarker (b :: (pre ++ tail)) = false := by simpa using h 0 (by simp)
    obtain ⟨h1, h2, h3⟩ := ih fun k hk => by simpa using h (k + 1) (by simpa using hk)
    refine ⟨?_, ?_, ?_⟩
    · rw [List.cons_append, distanceToNext_cons h0, h1, List.length_cons]; omega
    · rw [List.cons_append, threadedPayload_cons h0, h2]; rfl
    · rw [List.cons_append, linkDistances_cons h0, h3]

/-- No occurrence starts where no prefix's window equals the Marker. -/
theorem not_startsWithMarker_of_window {bs : List Byte} {k : Nat}
    (h : k + 4 ≤ bs.length → (bs.take (k + 4)).foldl shiftWindow 0 ≠ markerWord) :
    startsWithMarker (bs.drop k) = false := by
  rw [Bool.eq_false_iff, ne_eq, startsWithMarker_iff, occurrence_iff_window]
  exact fun hk => h hk.1 hk.2

/-! ### The in-place pass -/

/-- Writing a link, when the slot is in ENC: refused on a too long distance, else four bytes are written. -/
theorem writeLink_eq {slot d : Nat} {s : State} (h : slot + 4 ≤ s.params.encSize) :
    writeLink slot d s = if offsetMax < d then .refused .encDistanceRange
      else .next { s with enc := s.enc.writeList slot (offsetField d) } := by
  rw [writeLink]
  split
  · rfl
  · exact State.memWrite_of_fits (by simpa using h)

/-- The bytes of ENC after a list write. -/
theorem enc_write_inside (s : State) (a x : Nat) (bs : List Byte) (h : a ≤ x) (h2 : x - a < bs.length) :
    State.byteAt { s with enc := s.enc.writeList a bs } .enc x = bs[x - a] := by
  have := State.byteAt_write_at s .enc a (x - a) bs h2
  rwa [show a + (x - a) = x by omega] at this

theorem enc_write_outside (s : State) (a x : Nat) (bs : List Byte) (h : x < a ∨ a + bs.length ≤ x) :
    State.byteAt { s with enc := s.enc.writeList a bs } .enc x = s.byteAt .enc x :=
  State.byteAt_write_outside s .enc a x bs h

/-- What the pass leaves when it completes: `body` (a link field and a threaded rest) from `cc` on, the foot after the
payload, and every other byte as before. -/
def PassDone (s t : State) (cc len : Nat) (body : List Byte) : Prop :=
  (∃ m, t = { s with enc := m } ∧ (Memory.wf s.params.encSize s.enc = true → Memory.wf s.params.encSize m = true)) ∧
  (∀ k (h : k < body.length), t.byteAt .enc (cc + k) = body[k]) ∧
  (∀ k (h : k < 4), t.byteAt .enc (4 + len + k) = markerBytes[k]'h) ∧
  (∀ a, a < cc ∨ 8 + len ≤ a → t.byteAt .enc a = s.byteAt .enc a)

/-- The pass from position `i` (R141): `seg` is the part of the payload since the chain cursor that has been scanned, `ps`
the part still to scan. It is refused exactly when a remaining distance is too long; otherwise it leaves the link field
and the threaded rest. The slot is always where the cursor is. -/
theorem encodePass_spec (ps seg : List Byte) (cc i len : Nat) (s : State) (hi : i = cc + seg.length)
    (hlen : len = cc + (seg ++ ps).length) (hfit : len + 8 ≤ s.params.encSize)
    (hwin : ∀ k, k ≤ seg.length → (seg.take k).foldl shiftWindow 0 ≠ markerWord)
    (hpay : ∀ k (h : k < (seg ++ ps).length), s.byteAt .enc (4 + cc + k) = (seg ++ ps)[k]) :
    ((∃ d ∈ chainDistances (seg ++ ps), offsetMax < d) ∧
      encodePass len ps i (seg.foldl shiftWindow 0) cc cc s = .refused .encDistanceRange) ∨
    ((∀ d ∈ chainDistances (seg ++ ps), d ≤ offsetMax) ∧
      ∃ t, encodePass len ps i (seg.foldl shiftWindow 0) cc cc s = .next t ∧
        PassDone s t cc len (offsetField (distanceToNext (seg ++ ps)) ++ threadedPayload (seg ++ ps))) := by
  induction ps generalizing seg cc i s with
  | nil =>
    simp only [List.append_nil] at hlen hpay ⊢
    have hno := unmarked_prefix seg [] fun k hk => by
      rw [List.append_nil]
      exact not_startsWithMarker_of_window fun h => by
        exact hwin _ (by omega)
    simp only [List.append_nil, distanceToNext, threadedPayload, linkDistances, Nat.add_zero] at hno
    obtain ⟨h1, h2, h3⟩ := hno
    have hd : len - cc = seg.length := by omega
    rw [encodePass, writeFoot, writeLink_eq (by omega), h1, h2, chainDistances, h1, h3, hd]
    simp only [List.mem_cons, List.not_mem_nil, or_false, exists_eq_left, forall_eq]
    by_cases hbig : offsetMax < seg.length
    · exact .inl ⟨hbig, by rw [if_pos hbig]; rfl⟩
    · refine .inr ⟨by omega, ?_⟩
      rw [if_neg hbig, andThen_next, State.memWrite_of_fits (by simp [markerBytes]; omega)]
      refine ⟨_, rfl, ⟨_, rfl, fun hw => ?_⟩, ?_, ?_, ?_⟩
      · exact Memory.wf_writeList (Memory.wf_writeList hw (.inr (by simp; omega))) (.inr (by simp [markerBytes]; omega))
      · intro k hk
        simp only [List.length_append, length_offsetField] at hk
        refine (enc_write_outside _ _ _ _ (.inl (by omega))).trans ?_
        by_cases h4 : k < 4
        · rw [enc_write_inside _ _ _ _ (by omega) (by simp; omega), List.getElem_append_left (by simpa using h4)]
          congr 1; omega
        · rw [enc_write_outside _ _ _ _ (.inr (by simp; omega)), List.getElem_append_right (by simp; omega)]
          have := hpay (k - 4) (by omega)
          rw [show 4 + cc + (k - 4) = cc + k by omega] at this
          simp [this]
      · intro k hk
        refine (enc_write_inside _ _ _ _ (by omega) (by simp [markerBytes]; omega)).trans ?_
        congr 1; omega
      · intro a ha
        refine (enc_write_outside _ _ _ _ (by simp [markerBytes]; omega)).trans ?_
        exact enc_write_outside _ _ _ _ (by simp; omega)
  | cons b ps ih =>
    have hstep : shiftWindow (seg.foldl shiftWindow 0) b = (seg ++ [b]).foldl shiftWindow 0 := by simp
    have happ : seg ++ b :: ps = (seg ++ [b]) ++ ps := by simp
    rw [encodePass, hstep]
    by_cases hm : (seg ++ [b]).foldl shiftWindow 0 = markerWord
    · rw [if_pos hm]
      obtain ⟨h4, hlast⟩ := (foldl_shiftWindow_eq_marker _).1 hm
      simp only [List.length_append, List.length_cons, List.length_nil] at h4 hlast
      generalize hpre : (seg ++ [b]).take (seg.length - 3) = pre
      have hprelen : pre.length = seg.length - 3 := by rw [← hpre]; simp; omega
      have hsplit : seg ++ [b] = pre ++ markerBytes := by
        rw [← hpre, ← hlast, show seg.length + (0 + 1) - 4 = seg.length - 3 by omega, List.take_append_drop]
      have hp : seg ++ b :: ps = pre ++ (markerBytes ++ ps) := by rw [happ, hsplit, List.append_assoc]
      have hno := unmarked_prefix pre (markerBytes ++ ps) fun k hk => by
        have hk' : k + 4 ≤ seg.length := by omega
        refine not_startsWithMarker_of_window fun _ => ?_
        have : (pre ++ (markerBytes ++ ps)).take (k + 4) = seg.take (k + 4) := by
          rw [← hp, List.take_append_of_le_length hk']
        rw [this]
        exact hwin _ (by omega)
      rw [distanceToNext_marker, threadedPayload_marker, linkDistances_marker, Nat.add_zero] at hno
      obtain ⟨h1, h2, h3⟩ := hno
      have hlen' : len = cc + (pre.length + 4 + ps.length) := by
        rw [hlen, hp]; simp [markerBytes]; omega
      have hi' : i = cc + pre.length + 3 := by omega
      have hd : i - 3 - cc = pre.length := by omega
      have hcc : i - 3 + 4 = cc + pre.length + 4 := by omega
      have hslot : 4 + (i - 3) = cc + pre.length + 4 := by omega
      rw [writeLink_eq (by omega), hd, hcc, hslot, hp, h1, h2, chainDistances, h1, h3]
      by_cases hbig : offsetMax < pre.length
      · exact .inl ⟨⟨_, by simp, hbig⟩, by rw [if_pos hbig]; rfl⟩
      rw [if_neg hbig, andThen_next]
      have hpay' : ∀ k (h : k < ([] ++ ps : List Byte).length),
          State.byteAt { s with enc := s.enc.writeList cc (offsetField pre.length) } .enc (4 + (cc + pre.length + 4) + k) =
            ([] ++ ps : List Byte)[k] := by
        intro k hk
        simp only [List.nil_append] at hk
        rw [enc_write_outside _ _ _ _ (.inr (by simp; omega))]
        have := hpay (pre.length + 4 + k) (by rw [hp]; simp [markerBytes]; omega)
        rw [show 4 + cc + (pre.length + 4 + k) = 4 + (cc + pre.length + 4) + k by omega] at this
        rw [this]
        simp only [hp, List.nil_append]
        rw [List.getElem_append_right (by omega), List.getElem_append_right (by simp [markerBytes]; omega)]
        congr 1
        simp [markerBytes]; omega
      have := ih [] (cc + pre.length + 4) (i + 1) { s with enc := s.enc.writeList cc (offsetField pre.length) }
        (by simp; omega) (by simp; omega) hfit (by simp [markerWord]) hpay'
      simp only [List.nil_append, List.foldl_nil, chainDistances] at this
      rcases this with ⟨⟨d, hd1, hd2⟩, hr⟩ | ⟨hall, t, ht, ⟨m, rfl, hwf⟩, hb, hf, hrest⟩
      · exact .inl ⟨⟨d, by simp only [List.mem_cons] at hd1 ⊢; tauto, hd2⟩, hr⟩
      · refine .inr ⟨?_, _, ht, ⟨m, rfl, fun hw => hwf (Memory.wf_writeList hw (.inr (by simp; omega)))⟩, ?_, hf, ?_⟩
        · simp only [List.mem_cons, forall_eq_or_imp] at hall ⊢
          exact ⟨by omega, hall.1, hall.2⟩
        · intro k hk
          have hk' : k < 4 + (pre.length + (4 + ps.length)) := by
            simpa only [List.length_append, length_offsetField, length_threadedPayload] using hk
          by_cases hk4 : k < 4
          · rw [hrest _ (.inl (by omega)), enc_write_inside _ _ _ _ (by omega) (by simp; omega),
              List.getElem_append_left (by simpa using hk4)]
            congr 1; omega
          · rw [List.getElem_append_right (by simp; omega)]
            by_cases hkp : k < pre.length + 4
            · rw [hrest _ (.inl (by omega)), enc_write_outside _ _ _ _ (.inr (by simp; omega)),
                List.getElem_append_left (by simp; omega)]
              have := hpay (k - 4) (by rw [hp]; simp; omega)
              rw [show 4 + cc + (k - 4) = cc + k by omega] at this
              rw [this]
              simp only [hp, length_offsetField]
              rw [List.getElem_append_left (by omega)]
            · have hlt : k - (pre.length + 4) < (offsetField (distanceToNext ps) ++ threadedPayload ps).length := by
                rw [List.length_append, length_offsetField, length_threadedPayload]; omega
              have := hb (k - (pre.length + 4)) hlt
              rw [show cc + pre.length + 4 + (k - (pre.length + 4)) = cc + k by omega] at this
              rw [this]
              simp only [length_offsetField]
              conv_rhs => rw [List.getElem_append_right (by omega)]
              congr 1
              omega
        · intro a ha
          rw [hrest _ (by omega), enc_write_outside _ _ _ _ (by simp; omega)]
    · rw [if_neg hm]
      have := ih (seg ++ [b]) cc (i + 1) s (by simp; omega) (by rw [hlen, happ]) hfit
        (fun k hk => by
          by_cases hk' : k ≤ seg.length
          · rw [List.take_append_of_le_length hk']; exact hwin k hk'
          · rw [List.take_of_length_le (by simp at hk ⊢; omega)]; exact hm)
        (fun k h => by
          have := hpay k (by rw [happ]; exact h)
          rw [this]
          simp only [happ])
      rwa [happ]

/-- Writing a link, when it completes: four bytes of ENC at the slot. -/
theorem writeLink_eq_next {slot d : Nat} {s t : State} :
    writeLink slot d s = .next t ↔
      d ≤ offsetMax ∧ slot + 4 ≤ s.params.encSize ∧ t = { s with enc := s.enc.writeList slot (offsetField d) } := by
  rw [writeLink]
  split
  · simp; omega
  · have hne : offsetField d ≠ [] := by simp [← List.length_eq_zero_iff]
    rw [State.memWrite_eq_next]
    simp only [hne, false_or, length_offsetField, State.memSize_enc]
    exact ⟨fun h => ⟨by omega, h⟩, fun h => h.2⟩

/-- Everything the pass can do when it completes, from any state: ENC below `len + 8`. -/
theorem encodePass_effect {ps : List Byte} {len i slot cc : Nat} {w : Word} {s t : State}
    (h : encodePass len ps i w slot cc s = .next t) (hi : i + ps.length ≤ len) (hslot : slot ≤ len + 4) :
    ∃ m, t = { s with enc := m } ∧ (∀ a, len + 8 ≤ a → m.written a = s.enc.written a) ∧
      (Memory.wf s.params.encSize s.enc = true → Memory.wf s.params.encSize m = true) := by
  induction ps generalizing i w slot cc s with
  | nil =>
    rw [encodePass, writeFoot] at h
    obtain ⟨s1, h1, h⟩ := andThen_eq_next.1 h
    obtain ⟨-, hfit, rfl⟩ := writeLink_eq_next.1 h1
    obtain ⟨hfit2, rfl⟩ := State.memWrite_eq_next.1 h
    refine ⟨_, rfl, fun a ha => ?_, fun hw => Memory.wf_writeList (Memory.wf_writeList hw (.inr hfit)) hfit2⟩
    refine (Memory.written_writeList_other _ _ _ _ (.inr (by simp [markerBytes]; omega))).trans ?_
    exact Memory.written_writeList_other _ _ _ _ (.inr (by simp; omega))
  | cons b ps ih =>
    simp only [List.length_cons] at hi
    rw [encodePass] at h
    split at h
    · obtain ⟨s1, h1, h⟩ := andThen_eq_next.1 h
      obtain ⟨-, hfit, rfl⟩ := writeLink_eq_next.1 h1
      obtain ⟨m, rfl, hm, hwf⟩ := ih h (by omega) (by omega)
      refine ⟨m, rfl, fun a ha => (hm a ha).trans ?_, fun hw => hwf (Memory.wf_writeList hw (.inr hfit))⟩
      exact Memory.written_writeList_other _ _ _ _ (.inr (by simp; omega))
    · exact ih h (by omega) hslot

/-- The pass never leaves ENC when the frame fits. -/
theorem encodePass_ne_fault {ps : List Byte} {len i slot cc : Nat} {w : Word} {s : State} {f : Fault}
    (hfit : len + 8 ≤ s.params.encSize) (hi : i + ps.length ≤ len) (hslot : slot ≤ len + 4) :
    encodePass len ps i w slot cc s ≠ .fault f := by
  have hlink : ∀ (sl d : Nat) (u : State), sl ≤ len + 4 → u.params.encSize = s.params.encSize → writeLink sl d u ≠ .fault f := by
    intro sl d u h1 h2
    rw [writeLink_eq (by omega)]
    split <;> simp
  induction ps generalizing i w slot cc s with
  | nil =>
    rw [encodePass, writeFoot]
    intro h
    rcases andThen_eq_fault.1 h with h | ⟨s1, h1, h⟩
    · exact hlink _ _ _ hslot rfl h
    · obtain ⟨-, -, rfl⟩ := writeLink_eq_next.1 h1
      rw [State.memWrite_of_fits (by simp [markerBytes]; omega)] at h
      simp at h
  | cons b ps ih =>
    simp only [List.length_cons] at hi
    rw [encodePass]
    split
    · intro h
      rcases andThen_eq_fault.1 h with h | ⟨s1, h1, h⟩
      · exact hlink _ _ _ hslot rfl h
      · obtain ⟨-, -, rfl⟩ := writeLink_eq_next.1 h1
        exact ih (s := { s with enc := s.enc.writeList slot (offsetField (i - 3 - cc)) }) hfit (by omega) (by omega) hlink h
    · exact ih hfit (by omega) hslot hlink

/-- Everything ENC_FRAME can do when it completes: a rejection, or ENC below `L + 8` and the response `(0, 0, L + 8)`. -/
theorem execEncFrame_effect {len : Word} {s t : State} (h : execEncFrame len s = .next t) :
    (s.params.encSize < len.toNat + 8 ∧ t = s.reject) ∨
    (len.toNat + 8 ≤ s.params.encSize ∧ ∃ m, t = State.respond { s with enc := m } (accepted false (len + 8)) ∧
      (∀ a, len.toNat + 8 ≤ a → m.written a = s.enc.written a) ∧
      (Memory.wf s.params.encSize s.enc = true → Memory.wf s.params.encSize m = true)) := by
  rw [execEncFrame] at h
  split at h
  · rename_i hr
    cases h
    exact .inl ⟨by simpa [encFrameRejected] using hr, rfl⟩
  · rename_i hr
    obtain ⟨s1, h1, h⟩ := andThen_eq_next.1 h
    cases h
    rw [encodeFrameInPlace] at h1
    obtain ⟨bs, hbs, h1⟩ := andThen_eq_next.1 h1
    obtain ⟨-, rfl⟩ := State.memRead_eq_next.1 hbs
    obtain ⟨m, rfl, hm, hwf⟩ := encodePass_effect h1 (by simp) (by omega)
    exact .inr ⟨by simpa [encFrameRejected] using hr, m, rfl, hm, hwf⟩

/-- ENC_FRAME never faults: a frame that does not fit is rejected (R62, R143). -/
theorem execEncFrame_ne_fault {len : Word} {s : State} {f : Fault} : execEncFrame len s ≠ .fault f := by
  intro h
  rw [execEncFrame] at h
  split at h
  · cases h
  · rename_i hr
    have hfit : len.toNat + 8 ≤ s.params.encSize := by simpa [encFrameRejected] using hr
    rcases andThen_eq_fault.1 h with h | ⟨s1, -, h⟩
    · rw [encodeFrameInPlace, State.memRead_of_fits (by simp; omega), andThen_next] at h
      exact encodePass_ne_fault hfit (by simp) (by omega) h
    · cases h

/-- ENC_FRAME on a payload that stands in ENC and fits (R142 to R145): refused exactly when a distance is too long, else
ENC holds the encoded frame. -/
theorem execEncFrame_spec (s : State) (len : Word) (p : List Byte) (hp : p.length = len.toNat)
    (hfit : len.toNat + 8 ≤ s.params.encSize) (hpay : s.holdsPayload p) :
    ((∃ d ∈ chainDistances p, offsetMax < d) ∧ execEncFrame len s = .refused .encDistanceRange) ∨
    ((∀ d ∈ chainDistances p, d ≤ offsetMax) ∧
      ∃ m, execEncFrame len s = .next (State.respond { s with enc := m } (accepted false (len + 8))) ∧
        (Memory.wf s.params.encSize s.enc = true → Memory.wf s.params.encSize m = true) ∧
        State.bytesAt { s with enc := m } .enc 0 (len.toNat + 8) = encodedFrame p ∧
        ∀ a, len.toNat + 8 ≤ a → State.byteAt { s with enc := m } .enc a = s.byteAt .enc a) := by
  have hread : s.memRead .enc 4 len.toNat = .next p := by
    rw [State.memRead_of_fits (by simp; omega), ← hp, hpay]
  have hnr : encFrameRejected s len = false := by simp [encFrameRejected]; omega
  have hspec := encodePass_spec p [] 0 0 len.toNat s (by simp) (by simp [hp]) hfit (by simp [markerWord])
    (fun k h => by
      have := (State.bytesAt_eq_iff s .enc 4 p).1 hpay k (by simpa using h)
      simpa using this)
  simp only [List.nil_append, List.foldl_nil] at hspec
  rw [execEncFrame, hnr, encodeFrameInPlace, hread, andThen_next]
  simp only [Bool.false_eq_true, if_false]
  rcases hspec with ⟨hd, hr⟩ | ⟨hall, t, ht, ⟨m, rfl, hwf⟩, hb, hf, hrest⟩
  · exact .inl ⟨hd, by rw [hr]; rfl⟩
  · refine .inr ⟨hall, m, by rw [ht]; rfl, hwf, ?_, fun a ha => hrest a (.inr (by omega))⟩
    have hl : len.toNat + 8 = (encodedFrame p).length := by simp [hp]
    rw [hl, State.bytesAt_eq_iff]
    intro k hk
    rw [length_encodedFrame] at hk
    simp only [encodedFrame, List.length_append, length_offsetField, length_threadedPayload] at hb ⊢
    by_cases hkb : k < 4 + p.length
    · rw [List.getElem_append_left (by simp; omega)]
      exact hb k hkb
    · rw [List.getElem_append_right (by simp; omega)]
      have := hf (k - (4 + p.length)) (by omega)
      rw [show 4 + len.toNat + (k - (4 + p.length)) = 0 + k by omega] at this
      exact this.trans (by congr 1; rw [List.length_append, length_offsetField, length_threadedPayload])

/-- With fitting distances a payload's frame is encoded and never refused (R144). -/
theorem execEncFrame_of_canEncode {s : State} {len : Word} {p : List Byte} (hp : p.length = len.toNat)
    (h : s.canEncode p) (hpay : s.holdsPayload p) :
    ∃ m, execEncFrame len s = .next (State.respond { s with enc := m } (accepted false (len + 8))) ∧
      (Memory.wf s.params.encSize s.enc = true → Memory.wf s.params.encSize m = true) ∧
      State.bytesAt { s with enc := m } .enc 0 (len.toNat + 8) = encodedFrame p ∧
      ∀ a, len.toNat + 8 ≤ a → State.byteAt { s with enc := m } .enc a = s.byteAt .enc a :=
  (execEncFrame_spec s len p hp (hp ▸ h.1) hpay).elim (fun ⟨⟨d, hd, hbig⟩, _⟩ => absurd (h.2 d hd) (Nat.not_le.2 hbig)) And.right

end Sys2Proof.Machine
end

