-- ==== Sys2Proof/Laws/PerInstr.lean ====
section
/-! SUPPORT. Properties of every command as syntax, one lemma per constructor. -/

namespace Sys2Proof.Laws

/-- The encoded word selects its own row of the opcode table (R79), its opcode field is the row's opcode (R70), and the
command is well-formed. -/
def EncodingSelectsRow.Statement (i : Instr) : Prop :=
  i.row.selects (encode i) = true ∧ opcodeOf (encode i) = i.row.opcode ∧ i.row ∈ opcodeTable ∧ i.wellFormed = true

/-- Masking a command word masks its two fields. -/
theorem and_fields (a c : Byte) (b d : Word) : (a ++ b) &&& (c ++ d) = (a &&& c) ++ (b &&& d) := BitVec.and_append

/-- The opcode field of a word built from two fields. -/
theorem opcodeOf_fields (a : Byte) (b : Word) : opcodeOf (a ++ b) = a := by
  simp only [opcodeOf]
  exact BitVec.extractLsb'_append_eq_left

/-- The operand field of a word built from two fields. -/
theorem argOf_fields (a : Byte) (b : Word) : argOf (a ++ b) = b := by
  simp only [argOf]
  exact BitVec.extractLsb'_append_eq_right

/-- A word is its two fields. -/
theorem fields_of_word (w : CmdWord) : opcodeOf w ++ argOf w = w := by
  simp only [opcodeOf, argOf]
  rw [BitVec.extractLsb'_append_extractLsb'_eq_extractLsb' (by rfl)]
  exact BitVec.extractLsb'_eq_self

/-- A byte operand sets no reserved bit of form B8. -/
theorem byteOperand_reserved (b : Byte) : b.setWidth 32 &&& 0xFFFFFF00#32 = 0#32 := by
  revert b
  decide

/-- A word of form V32 selects its row. -/
theorem selects_v32 (m : String) (op : Byte) (v : Word) : (Row.mk m op .v32).selects (op ++ v) = true := by
  simp only [Row.selects, Row.maskWord, Row.matchWord, Form.reservedMask, and_fields, beq_iff_eq]
  congr 1
  · exact BitVec.and_allOnes
  · exact BitVec.and_zero

/-- A word of form Z selects its row. -/
theorem selects_z (m : String) (op : Byte) : (Row.mk m op .z).selects (op ++ (0 : Word)) = true := by
  simp only [Row.selects, Row.maskWord, Row.matchWord, Form.reservedMask, and_fields, beq_iff_eq]
  congr 1
  exact BitVec.and_allOnes

/-- A word of form B8 selects its row. -/
theorem selects_b8 (m : String) (op : Byte) (b : Byte) : (Row.mk m op .b8).selects (op ++ b.setWidth 32) = true := by
  simp only [Row.selects, Row.maskWord, Row.matchWord, Form.reservedMask, and_fields, beq_iff_eq]
  congr 1
  · exact BitVec.and_allOnes
  · exact byteOperand_reserved b

/-- A command whose row is in the table and whose operand sets no reserved bit of its form is well-formed: opcodes are
assigned once. -/
theorem wellFormed_of_fits {i : Instr} (hrow : i.row ∈ opcodeTable)
    (hres : i.command.arg &&& i.row.form.reservedMask = 0) : i.wellFormed = true := by
  have hop : i.command.opcode = i.row.opcode := rfl
  have honce : ∀ r ∈ opcodeTable, ∀ r' ∈ opcodeTable, r.opcode = r'.opcode → r = r' := by decide
  simp only [Instr.wellFormed, Command.wellFormed, Command.assigned, Command.reservedClear, Bool.and_eq_true,
    List.any_eq_true, List.all_eq_true, Bool.or_eq_true, bne_iff_ne, beq_iff_eq, ne_eq]
  refine ⟨⟨i.row, hrow, rfl⟩, fun r hr => ?_⟩
  by_cases h : r.opcode = i.command.opcode
  · right
    rw [honce r hr i.row hrow (h.trans hop)]
    exact hres
  · exact .inl h

namespace EncodingSelectsRow

/-- The statement for a command of form V32. -/
theorem of_v32 {i : Instr} {m : String} {op : Byte} {v : Word} (hr : i.row = ⟨m, op, .v32⟩) (he : encode i = op ++ v)
    (ht : (⟨m, op, .v32⟩ : Row) ∈ opcodeTable) : Statement i := by
  refine ⟨?_, ?_, hr ▸ ht, wellFormed_of_fits (hr ▸ ht) ?_⟩
  · rw [hr, he]; exact selects_v32 m op v
  · rw [hr, he]; exact opcodeOf_fields op v
  · rw [hr]; exact BitVec.and_zero

/-- The statement for a command of form B8. -/
theorem of_b8 {i : Instr} {m : String} {op : Byte} {b : Byte} (hr : i.row = ⟨m, op, .b8⟩)
    (he : encode i = op ++ b.setWidth 32) (ha : i.command.arg = b.setWidth 32)
    (ht : (⟨m, op, .b8⟩ : Row) ∈ opcodeTable) : Statement i := by
  refine ⟨?_, ?_, hr ▸ ht, wellFormed_of_fits (hr ▸ ht) ?_⟩
  · rw [hr, he]; exact selects_b8 m op b
  · rw [hr, he]; exact opcodeOf_fields op _
  · rw [hr, ha]; exact byteOperand_reserved b

/-- The statement for a command of form Z. -/
theorem of_z {i : Instr} {m : String} {op : Byte} (hr : i.row = ⟨m, op, .z⟩) (he : encode i = op ++ (0 : Word))
    (ha : i.command.arg = 0) (ht : (⟨m, op, .z⟩ : Row) ∈ opcodeTable) : Statement i := by
  refine ⟨?_, ?_, hr ▸ ht, wellFormed_of_fits (hr ▸ ht) ?_⟩
  · rw [hr, he]; exact selects_z m op
  · rw [hr, he]; exact opcodeOf_fields op 0
  · rw [hr, ha]; exact BitVec.zero_and

theorem encOffset (v : Word) : Statement (.encOffset v) := of_v32 rfl rfl (by decide)
theorem decOffset (v : Word) : Statement (.decOffset v) := of_v32 rfl rfl (by decide)
theorem scanSetw (v : Word) : Statement (.scanSetw v) := of_v32 rfl rfl (by decide)
theorem scanGetw : Statement (.scanGetw) := of_z rfl rfl rfl (by decide)
theorem scanStart : Statement (.scanStart) := of_z rfl rfl rfl (by decide)
theorem scanByte (b : Byte) : Statement (.scanByte b) := of_b8 rfl rfl rfl (by decide)
theorem decInit (cap : Word) : Statement (.decInit cap) := of_v32 rfl rfl (by decide)
theorem decIngest (b : Byte) : Statement (.decIngest b) := of_b8 rfl rfl rfl (by decide)
theorem decStatus : Statement (.decStatus) := of_z rfl rfl rfl (by decide)
theorem decLast : Statement (.decLast) := of_z rfl rfl rfl (by decide)
theorem encFrame (len : Word) : Statement (.encFrame len) := of_v32 rfl rfl (by decide)

end EncodingSelectsRow

end Sys2Proof.Laws
end

