-- ==== Sys2Proof/Tests/Slice0.lean ====
section
/-! SUPPORT. Tests and witnesses. A test's expected result is copied from the vector of spec/95_test_vectors.md or the rule
that its comment names. A theorem `witness_<Name>` shows a state and operands that meet the hypotheses of
`Obligations.<Name>`, at boundary values where a hypothesis is a range. -/

namespace Sys2Proof.Tests

open Sys2Proof Sys2Proof.Machine

/-! ### Helpers -/

/-- What a completed step lets one see; nothing if it stopped. -/
def seen {α : Type} (o : Result State) (f : State → α) : Option α :=
  match o with
  | .next t => some (f t)
  | .fault _ => none
  | .refused _ => none

/-- Why a step was refused. -/
def refusal (o : Result State) : Option Refusal :=
  match o with
  | .refused r => some r
  | .next _ => none
  | .fault _ => none

/-- Why a step faulted. -/
def faultOf (o : Result State) : Option Fault :=
  match o with
  | .fault r => some r
  | .next _ => none
  | .refused _ => none

/-- Bytes listed at consecutive indices. -/
def listed (a : Nat) : List Byte → Memory
  | [] => []
  | b :: bs => (a, b) :: listed (a + 1) bs

/-- The reset state after the decoder accumulated `bs`. -/
def accumulated (bs : List Byte) : State :=
  { State.reset with dst := listed 0 bs, decCur := BitVec.ofNat 32 bs.length, decW := bs.foldl shiftWindow 0 }

/-- The reset state with a payload at `ENC[4..)`. -/
def holding (p : List Byte) : State := { State.reset with enc := listed 4 p }

/-- One command word presented to `s`, and one step. -/
def present (s : State) (w : Nat) : Result State := step (s.withFetchWord 40 w)

/-- The 20-byte payload of W2. -/
def payloadW2 : List Byte :=
  [0x00, 0x01, 0x02, 0x03, 0x04, 0x05, 0x06, 0x07, 0xDA, 0xB8, 0xFE, 0xCA, 0x0C, 0x0D, 0x0E, 0x0F, 0x10, 0x11, 0x12, 0x13]

/-- The 28 encoded bytes of W2. -/
def encodedW2 : List Byte :=
  [0x08, 0x00, 0x00, 0x00, 0x00, 0x01, 0x02, 0x03, 0x04, 0x05, 0x06, 0x07, 0x08, 0x00, 0x00, 0x00] ++
  [0x0C, 0x0D, 0x0E, 0x0F, 0x10, 0x11, 0x12, 0x13, 0xDA, 0xB8, 0xFE, 0xCA]

/-! ### The well-formedness checks refuse ill-formed terms -/

theorem test_wellFormed_refuses_unassigned_opcode : Command.assigned ⟨0x24, 0⟩ = false := by decide
theorem test_wellFormed_refuses_reserved_bit_b8 : Command.reservedClear ⟨0x13, 0x100⟩ = false := by decide
theorem test_wellFormed_refuses_reserved_bit_z : Command.reservedClear ⟨0x22, 1⟩ = false := by decide
theorem test_wellFormed_refuses_raw_commands :
    Command.wellFormed ⟨0x00, 0⟩ = false ∧ Command.wellFormed ⟨0x11, 0x80000000⟩ = false ∧
      Command.wellFormed ⟨0x21, 0xFF⟩ = true := by decide
theorem test_params_refuse_dstSize :
    Params.dstSizeLegal ⟨7, 64, 0⟩ = false ∧ Params.dstSizeLegal ⟨2 ^ 31 + 1, 64, 0⟩ = false := by decide
theorem test_params_refuse_encSize :
    Params.encSizeLegal ⟨64, 7, 0⟩ = false ∧ Params.encSizeLegal ⟨64, 2 ^ 31 + 1, 0⟩ = false := by decide
theorem test_params_refuse_maxFrame : Params.maxFrameLegal ⟨64, 64, 2 ^ 30⟩ = false := by decide
theorem test_memory_wf_refuses :
    Memory.wf 8 [(3, 1), (3, 2)] = false ∧ Memory.wf 8 [(4, 1), (3, 2)] = false ∧ Memory.wf 8 [(8, 1)] = false ∧
      Memory.wf 8 [(0, 1), (7, 2)] = true := by decide

/-! ### Decoding: one word of every command, written out from R70, R72 and R74 -/

theorem test_decode_encOffset : decode 0x0112345678 = .ok (.encOffset 0x12345678) := rfl
theorem test_decode_decOffset : decode 0x02CAFEB8DA = .ok (.decOffset 0xCAFEB8DA) := rfl
theorem test_decode_scanSetw : decode 0x10FEB8DA00 = .ok (.scanSetw 0xFEB8DA00) := rfl
theorem test_decode_scanGetw : decode 0x1100000000 = .ok .scanGetw := rfl
theorem test_decode_scanStart : decode 0x1200000000 = .ok .scanStart := rfl
theorem test_decode_scanByte : decode 0x13000000CA = .ok (.scanByte 0xCA) := rfl
theorem test_decode_decInit : decode 0x2000000040 = .ok (.decInit 64) := rfl
theorem test_decode_decIngest : decode 0x21000000DA = .ok (.decIngest 0xDA) := rfl
theorem test_decode_decStatus : decode 0x2200000000 = .ok .decStatus := rfl
theorem test_decode_decLast : decode 0x2300000000 = .ok .decLast := rfl
theorem test_decode_encFrame : decode 0x3000000014 = .ok (.encFrame 20) := rfl

/-- V-CMD-1 to V-CMD-4: unassigned opcodes. -/
theorem test_decode_unassigned :
    decode 0x0000000000 = .error .unassignedOpcode ∧ decode 0x0300000000 = .error .unassignedOpcode ∧
      decode 0x2400000000 = .error .unassignedOpcode ∧ decode 0xFF00000000 = .error .unassignedOpcode :=
  ⟨rfl, rfl, rfl, rfl⟩

/-- V-CMD-6, V-CMD-8, V-SCN-10, V-DEC-17: reserved bits. -/
theorem test_decode_reserved :
    decode 0x1300000100 = .error .reservedBits ∧ decode 0x2380000000 = .error .reservedBits ∧
      decode 0x1200000080 = .error .reservedBits ∧ decode 0x21000001DA = .error .reservedBits :=
  ⟨rfl, rfl, rfl, rfl⟩

/-- The rows' mnemonics, match values and masks are those of spec/opcode_table.json. -/
theorem test_opcodeTable :
    (opcodeTable.map fun r => (r.mnemonic, r.matchWord.toNat, r.maskWord.toNat)) =
      [("ENC_OFFSET", 0x0100000000, 0xFF00000000), ("DEC_OFFSET", 0x0200000000, 0xFF00000000),
       ("SCAN_SETW", 0x1000000000, 0xFF00000000), ("SCAN_GETW", 0x1100000000, 0xFFFFFFFFFF),
       ("SCAN_START", 0x1200000000, 0xFFFFFFFFFF), ("SCAN_BYTE", 0x1300000000, 0xFFFFFFFF00),
       ("DEC_INIT", 0x2000000000, 0xFF00000000), ("DEC_INGEST", 0x2100000000, 0xFFFFFFFF00),
       ("DEC_STATUS", 0x2200000000, 0xFFFFFFFFFF), ("DEC_LAST", 0x2300000000, 0xFFFFFFFFFF),
       ("ENC_FRAME", 0x3000000000, 0xFF00000000)] := by decide

theorem test_decodeTableWord :
    decodeTableWord 40 0x21000000DA = some (.decIngest 0xDA) ∧ decodeTableWord 40 0x2400000000 = none := by decide

/-- R86's examples, V32 in decimal (P3), and lines that are no commands. -/
theorem test_assemble :
    assemble "DEC_INGEST 0xDA".toList = some 0x21000000DA ∧ assemble "ENC_OFFSET 0x12345678".toList = some 0x0112345678 ∧
    assemble "SCAN_START".toList = some 0x1200000000 ∧ assemble "ENC_FRAME 20".toList = some 0x3000000014 ∧
    assemble "DEC_INGEST 0x1DA".toList = none ∧ assemble "SCAN_START 0".toList = none ∧
    assemble "ENC_OFFSET 4294967296".toList = none ∧ assemble "NOP".toList = none := by decide

/-! ### One step of each command (from spec/95_test_vectors.md) -/

/-- V-OFF-8. -/
theorem test_encOffset_max :
    seen (present State.reset 0x013FFFFFFF) (·.responses) = some [⟨false, false, 0x7FFFFF7F⟩] := by decide
/-- V-OFF-9. -/
theorem test_encOffset_refused : refusal (present State.reset 0x0140000000) = some .encOffsetRange := by decide
/-- V-OFF-20. -/
theorem test_decOffset_marker :
    seen (present State.reset 0x02CAFEB8DA) (·.responses) = some [⟨false, true, 0x657F5C5A⟩] := by decide
/-- V-OFF-16. -/
theorem test_decOffset_ignores_bit7 :
    seen (present State.reset 0x027FFFFFFF) (·.responses) = some [⟨false, false, 0x3FFFFFFF⟩] := by decide
/-- V-SCN-3, its first command. -/
theorem test_scanSetw :
    seen (present State.reset 0x10FEB8DA00) (fun t => (t.scnW, t.responses)) =
      some (0xFEB8DA00, [⟨false, false, 0⟩]) := by decide
/-- P2, step 9. -/
theorem test_scanGetw :
    seen (present (State.reset.setScnW 0xCAFEB8DA) 0x1100000000) (·.responses) =
      some [⟨false, false, 0xCAFEB8DA⟩] := by decide
/-- P2, step 6: the window is kept. -/
theorem test_scanStart :
    seen (present ((State.reset.setScnW 0xB8DA1100).setScnP 3) 0x1200000000) (fun t => (t.scnW, t.scnP)) =
      some (0xB8DA1100, 0) := by decide
/-- V-SCN-3, its last command. -/
theorem test_scanByte_found :
    seen (present (State.reset.setScnW 0xFEB8DA00) 0x13000000CA) (fun t => (t.scnW, t.responses)) =
      some (0xCAFEB8DA, [⟨false, true, 1⟩]) := by decide
/-- R124: `SCN.P` wraps from `0xFFFFFFFF` to 0. -/
theorem test_scanByte_wraps :
    seen (present (State.reset.setScnP 0xFFFFFFFF) 0x13000000DA) (fun t => (t.scnW, t.scnP)) =
      some (0xDA000000, 0) := by decide
/-- V-DEC-19: a frame in progress is discarded. -/
theorem test_decInit_discards :
    seen (present (accumulated [0, 0, 0, 0, 1, 2]) 0x2000000008) (fun t => (t.decCur, t.decW, t.decCap, t.frames)) =
      some (0, 0, 8, []) := by decide
/-- V-DEC-17: `DEC_INIT 65` with `DST_SIZE = 64`. -/
theorem test_decInit_rejected :
    seen (present State.reset 0x2000000041) (fun t => (t.decCap, t.responses)) = some (64, [⟨true, false, 0⟩]) := by decide
/-- V-DEC-1 and V-DEC-11: the last byte of the frame of W2. -/
theorem test_decIngest_delivers :
    seen (present (accumulated (encodedW2.take 27)) 0x21000000CA) (fun t => (t.frames, t.responses, t.bytesAt .dst 12 4)) =
      some ([⟨20, payloadW2⟩], [⟨false, true, 20⟩], [0xDA, 0xB8, 0xFE, 0xCA]) := by decide
/-- V-DEC-16: the restoration stays, the frame is discarded. -/
theorem test_decIngest_restores_then_fails :
    seen (present (accumulated [0, 0, 0, 0, 5, 0, 0, 0, 0xAA, 0xDA, 0xB8, 0xFE]) 0x21000000CA)
        (fun t => (t.frames, t.decLast, t.bytesAt .dst 0 9)) =
      some ([], .offsetOdd, [0, 0, 0, 0, 0xDA, 0xB8, 0xFE, 0xCA, 0xAA]) := by decide
/-- V-DEC-23: the live status of a frame that has overrun. -/
theorem test_decStatus :
    seen (present (State.reset.setDecStatus .dstOverrun) 0x2200000000) (·.responses) = some [⟨false, false, 1⟩] := by decide
/-- V-DEC-4. -/
theorem test_decLast :
    seen (present (State.reset.setDecLast .offsetOdd) 0x2300000000) (·.responses) = some [⟨false, false, 4⟩] := by decide
/-- W2, V-ENC-6. -/
theorem test_encFrame_w2 :
    seen (present (holding payloadW2) 0x3000000014) (fun t => (t.bytesAt .enc 0 28, t.responses)) =
      some (encodedW2, [⟨false, false, 28⟩]) := by decide
/-- V-ENC-14: `ENC_FRAME 9` with `ENC_SIZE = 16`. -/
theorem test_encFrame_rejected :
    seen (present (State.resetWith ⟨64, 16, 0⟩ 0) 0x3000000009) (fun t => (t.enc, t.responses)) =
      some ([], [⟨true, false, 0⟩]) := by decide

/-! ### Inputs other than commands -/

/-- P3, steps 1 and 3: a host write, then a host read. -/
theorem test_host_access :
    seen (andThen (hostWrite .enc 4 [0xAA, 0xBB] State.reset) (hostRead .enc 4 2)) (·.hostReads) =
      some [[0xAA, 0xBB]] := by decide
/-- Log 6: an index that names no byte. -/
theorem test_host_access_outside : faultOf (hostRead .dst 63 2 State.reset) = some (.noSuchByte .dst) := by decide
/-- R230: reset from a state in the middle of an overrun frame. -/
theorem test_hardware_reset :
    seen (step (((accumulated [1, 2]).setDecStatus .dstOverrun).setInput [.reset]))
        (fun t => (t.decStatus, t.decCur, t.decCap, t.bytesAt .dst 0 2)) =
      some (.parsing, 0, 64, [1, 2]) := by decide
/-- R36, R252: a refused run has no meaning. -/
theorem test_refused_run :
    refusal (present State.reset.markRefused 0x1200000000) = some .meaninglessRun := by decide

/-! ### The encoded frame of R140 on the vectors of section 2.3 -/

/-- V-ENC-1 to V-ENC-5. -/
theorem test_encodedFrame_1_to_5 :
    encodedFrame [] = [0, 0, 0, 0, 0xDA, 0xB8, 0xFE, 0xCA] ∧
    encodedFrame [0xDA, 0xB8, 0xFE, 0xCA] = [0, 0, 0, 0, 0, 0, 0, 0, 0xDA, 0xB8, 0xFE, 0xCA] ∧
    encodedFrame [0xDA, 0xB8, 0xFE, 0xCA, 0xDA, 0xB8, 0xFE, 0xCA] =
      [0, 0, 0, 0, 0, 0, 0, 0, 0, 0, 0, 0, 0xDA, 0xB8, 0xFE, 0xCA] ∧
    encodedFrame [0xDA, 0xB8, 0xFE] = [3, 0, 0, 0, 0xDA, 0xB8, 0xFE, 0xDA, 0xB8, 0xFE, 0xCA] ∧
    encodedFrame [1, 0xDA, 0xB8, 0xFE, 0xCA, 2] = [1, 0, 0, 0, 1, 1, 0, 0, 0, 2, 0xDA, 0xB8, 0xFE, 0xCA] := by decide
/-- V-ENC-7 to V-ENC-9. -/
theorem test_encodedFrame_7_to_9 :
    encodedFrame [0xDA, 0xDA, 0xB8, 0xFE, 0xCA] = [1, 0, 0, 0, 0xDA, 0, 0, 0, 0, 0xDA, 0xB8, 0xFE, 0xCA] ∧
    encodedFrame [0xDA, 0xB8, 0xFE, 0xCA, 0x55] = [0, 0, 0, 0, 1, 0, 0, 0, 0x55, 0xDA, 0xB8, 0xFE, 0xCA] ∧
    encodedFrame [0x55, 0xDA, 0xB8, 0xFE, 0xCA] = [1, 0, 0, 0, 0x55, 0, 0, 0, 0, 0xDA, 0xB8, 0xFE, 0xCA] := by decide

/-! ### Witnesses: command words -/

theorem witness_DecodeInvertsEncode :
    (Instr.encFrame 0xFFFFFFFF).wellFormed = true ∧ (Instr.scanByte 0xFF).wellFormed = true ∧
      Instr.decLast.wellFormed = true := by decide
theorem witness_EncodeInvertsDecode :
    decode 0x30FFFFFFFF = .ok (.encFrame 0xFFFFFFFF) ∧ decode 0x13000000FF = .ok (.scanByte 0xFF) ∧
      decode 0x2300000000 = .ok .decLast := ⟨rfl, rfl, rfl⟩
theorem witness_DecoderAgreesWithOpcodeTable :
    (∃ r ∈ opcodeTable, ∃ r' ∈ opcodeTable, r.selects 0x13000000FF = true ∧ r'.selects 0x13000000FF = true) ∧
      decode 0x13000000FF = .ok (.scanByte 0xFF) ∧ decode 0x1300000100 = .error .reservedBits :=
  ⟨⟨⟨"SCAN_BYTE", 0x13, .b8⟩, by decide, ⟨"SCAN_BYTE", 0x13, .b8⟩, by decide, by decide⟩, rfl, rfl⟩
theorem witness_IllegalWordsAreRejected :
    (∀ r ∈ opcodeTable, r.opcode ≠ opcodeOf 0x2400000000) ∧
      (⟨"SCAN_BYTE", 0x13, .b8⟩ : Row) ∈ opcodeTable ∧ (0x13 : Byte) = opcodeOf 0x1300000100 ∧
      argOf 0x1300000100 &&& Form.b8.reservedMask ≠ 0 := by decide
theorem witness_RejectionChangesNothing :
    decode 0x2400000000 = .error .unassignedOpcode ∧ (7 : Word).toNat < 8 ∧
      State.reset.params.dstSize < (65 : Word).toNat ∧ State.reset.params.encSize < (57 : Word).toNat + 8 :=
  ⟨rfl, by decide, by decide, by decide⟩

/-! ### Witnesses: steps, runs and reset -/

theorem witness_StepRunsPresentedCommand :
    ∃ s u : State, s.input = [.command 0x2300000000] ∧ s.refused = false ∧ decode 0x2300000000 = .ok .decLast ∧
      Instr.decLast.wellFormed = true ∧
      u.input = [.command 0x2380000000] ∧ u.refused = false ∧ decode 0x2380000000 = .error .reservedBits :=
  ⟨State.reset.setInput [.command 0x2300000000], State.reset.setInput [.command 0x2380000000],
    rfl, rfl, rfl, by decide, rfl, rfl, rfl⟩
theorem witness_StepWaitsForTheHost : State.reset.input = [] := rfl
theorem witness_HostAccessReadsAndWritesBytes :
    State.reset.refused = false ∧ 0 + 64 ≤ State.reset.memSize .enc ∧ 62 + [(1 : Byte), 2].length ≤ State.reset.memSize .dst ∧
      64 + ([] : List Byte).length ≤ State.reset.memSize .enc := by decide
theorem witness_HostAccessOutsideMemoryFaults :
    State.reset.refused = false ∧ [(1 : Byte)] ≠ [] ∧ State.reset.memSize .dst < 64 + [(1 : Byte)].length ∧
      (1 : Nat) ≠ 0 ∧ State.reset.memSize .enc < 64 + 1 := by decide
theorem witness_SteppingIsRunning :
    State.reset.refused = false ∧
      ∃ t, runInputs [.command 0x1200000000, .hostRead .enc 0 0] State.reset = .next t ∧ t.refused = false :=
  ⟨rfl, _, rfl, rfl⟩
theorem witness_RefusedIsMarkedAndStays :
    State.reset.refused = false ∧ decode 0x0140000000 = .ok (.encOffset 0x40000000) ∧
      exec (.encOffset 0x40000000) State.reset = .refused .encOffsetRange ∧
      State.reset.markRefused.refused = true ∧ Input.reset ∉ [Input.command 0x1200000000] ∧
      (∃ t, runInputs [.command 0x1200000000] State.reset.markRefused = .next t) ∧
      ∃ t, exec .scanStart State.reset = .next t :=
  ⟨rfl, rfl, rfl, rfl, by decide, ⟨_, rfl⟩, ⟨_, rfl⟩⟩
theorem witness_HardwareResetSetsEveryRegister :
    ((accumulated [1, 2]).setInput [.reset]).input = [.reset] := rfl
theorem witness_ResetEqualsInitialisation : State.reset.params.wellFormed = true := by decide
theorem witness_ResetMeetsInvariant :
    Params.wellFormed ⟨8, 8, 0⟩ = true ∧ Params.wellFormed ⟨2 ^ 31, 2 ^ 31, offsetMax⟩ = true := by decide
theorem witness_EveryStepKeepsInvariant :
    (accumulated [1, 2]).Inv ∧ ∃ t, step ((accumulated [1, 2]).setInput []) = .next t :=
  ⟨by decide, _, rfl⟩
theorem witness_NoCommandLeavesMemory : (accumulated [0, 0, 0, 0, 0xDA, 0xB8, 0xFE]).Inv := by decide

/-! ### Witnesses: all commands -/

theorem witness_EveryCommandRespondsOnce :
    (∃ t, exec .decLast State.reset = .next t) ∧ ∃ t, exec (.decInit 7) State.reset = .next t ∧
      t.responses = [] ++ [⟨true, false, 0⟩] := ⟨⟨_, rfl⟩, _, rfl, rfl⟩
theorem witness_OnlyIngestEmitsFrames :
    isIngestCommand .decLast = false ∧ ∃ t, exec .decLast State.reset = .next t := ⟨rfl, _, rfl⟩
theorem witness_EventsAreNeverTakenBack :
    Input.hostRead .dst 0 0 ≠ Input.reset ∧ ∃ t, applyInput (.hostRead .dst 0 0) State.reset = .next t :=
  ⟨by decide, _, rfl⟩
theorem witness_UnitsWriteOnlyTheirMemory :
    State.reset.Inv ∧ (∃ t, exec (.encFrame 0) State.reset = .next t) ∧ isIngestCommand (.encFrame 0) = false ∧
      (∀ len, Instr.decLast ≠ .encFrame len) ∧ (∃ t, exec .decLast State.reset = .next t) ∧
      State.reset.decCap.toNat ≤ 64 ∧ (0 : Word).toNat + 8 ≤ 8 :=
  ⟨by decide, ⟨_, rfl⟩, rfl, fun _ => by simp, ⟨_, rfl⟩, by decide, by decide⟩
theorem witness_WindowsAreIndependent :
    isScannerCommand .decLast = false ∧ (∃ t, exec .decLast State.reset = .next t) ∧
      isScannerCommand .scanGetw = true ∧ ∃ t, exec .scanGetw State.reset = .next t :=
  ⟨rfl, ⟨_, rfl⟩, rfl, _, rfl⟩
theorem witness_OutOfBoundsIsNeverReached :
    State.reset.decStatus ≠ .offsetOutOfBounds ∧ State.reset.decLast ≠ .offsetOutOfBounds ∧
      ∃ t, applyInput (.command 0x21000000CA) State.reset = .next t :=
  ⟨by decide, by decide, _, rfl⟩

/-! ### Witnesses: offset codec and scanner -/

theorem witness_EncOffsetRespondsField :
    (0x3FFFFFFF : Word).toNat ≤ offsetMax ∧ offsetMax < (0x40000000 : Word).toNat := by decide
theorem witness_OffsetFunctionsAreInverse :
    (0x3FFFFFFF : Word).toNat ≤ offsetMax ∧ (0x7FFFFF7F : Word).getLsbD 7 = false ∧
      (0x7FFFFF7F : Word).getLsbD 31 = false := by decide
theorem witness_NoWindowOverAnOffsetFieldIsMarker :
    offsetMax ≤ offsetMax ∧ 4 < [(0xDA : Byte)].length + 4 ∧ [(0xDA : Byte)].length < 0 + 4 := by decide
theorem witness_ScanIsSplitIndependent :
    scanForMarker [0x11, 0xDA, 0xB8] 0 = (false, 3, 0xB8DA1100) ∧ scanForMarker [] 0 = (false, 0, 0) := by decide
theorem witness_ScanFindsFirstOccurrence :
    (scanForMarker markerBytes 0).1 = true ∧ 0 + 4 < (scanForMarker (0x11 :: markerBytes) 0).2.1 ∧
      (scanForMarker [] 0).1 = false := by decide
theorem witness_ScanRangeComputesScanForMarker : ([] : List Byte).length < 2 ^ 32 ∧ markerBytes.length < 2 ^ 32 := by
  decide

/-! ### Witnesses: frame decoder -/

theorem witness_DecInitStartsDecoder :
    8 ≤ (8 : Word).toNat ∧ (64 : Word).toNat ≤ State.reset.params.dstSize := by decide

/-- The capacity is 8: the last byte that fits, the first that does not, and a byte of an overrun frame. -/
theorem witness_IngestAccumulates :
    ((accumulated [0, 0, 0, 0, 0, 0, 0]).setDecCap 8).Inv ∧ shiftWindow 0 0xCA ≠ markerWord ∧
      ((accumulated [0, 0, 0, 0, 0, 0, 0]).setDecCap 8).decCur.toNat < 8 ∧
      ((accumulated [0, 0, 0, 0, 0, 0, 0, 0]).setDecCap 8).Inv ∧
      ((accumulated [0, 0, 0, 0, 0, 0, 0, 0]).setDecCap 8).decCur = 8 ∧
      (State.reset.setDecStatus .dstOverrun).Inv := by decide
theorem witness_FailedAndEmptyFramesAreSkipped :
    (accumulated [0xDA, 0xB8, 0xFE]).Inv ∧ (accumulated [0xDA, 0xB8, 0xFE]).decCur = 3 ∧
      shiftWindow (accumulated [0xDA, 0xB8, 0xFE]).decW 0xCA = markerWord ∧
      ((accumulated [0xDA, 0xB8, 0xFE]).setDecStatus .dstOverrun).Inv := by decide

/-- A frame that closes, with `c = 4`. -/
theorem witness_CompletedFrameFollowsChain_closed :
    ∃ s : State, s.Inv ∧ shiftWindow s.decW 0xCA = markerWord ∧ s.decStatus = .parsing ∧ s.decCur.toNat = 4 + 3 ∧
      Chain s.fieldAt 4 0 [] .parsing :=
  ⟨accumulated [0, 0, 0, 0, 0xDA, 0xB8, 0xFE], by decide, by decide, rfl, by decide,
    Chain.link (n := 0) (links := []) (by decide) (by decide) Chain.closed⟩
/-- A frame of one byte, the smallest that is walked: the chain does not fit. -/
theorem witness_CompletedFrameFollowsChain_odd :
    ∃ s : State, s.Inv ∧ shiftWindow s.decW 0xCA = markerWord ∧ s.decStatus = .parsing ∧ s.decCur.toNat = 1 + 3 ∧
      Chain s.fieldAt 1 0 [] .offsetOdd :=
  ⟨accumulated [0x11, 0xDA, 0xB8, 0xFE], by decide, by decide, rfl, by decide, Chain.odd (by decide) (by decide)⟩
/-- A frame whose head is too big. -/
theorem witness_CompletedFrameFollowsChain_tooBig :
    ∃ s : State, s.Inv ∧ shiftWindow s.decW 0xCA = markerWord ∧ s.decStatus = .parsing ∧ s.decCur.toNat = 4 + 3 ∧
      Chain s.fieldAt 4 0 [] .offsetTooBig :=
  ⟨accumulated [0, 0, 0, 0x80, 0xDA, 0xB8, 0xFE], by decide, by decide, rfl, by decide,
    Chain.tooBig (by decide) (by decide)⟩
theorem witness_IngestFlagReportsDelivery :
    ∃ t, exec (.decIngest 0xCA) (accumulated [0, 0, 0, 0, 0xDA, 0xB8, 0xFE]) = .next t ∧ t.frames = [⟨0, []⟩] :=
  ⟨_, rfl, rfl⟩

/-- No occurrence in eight zero bytes, which fill a capacity of 8. -/
theorem witness_AccumulatedBytesStandInDst :
    (State.reset.setDecCap 8).Inv ∧ (State.reset.setDecCap 8).atFrameStart ∧
      (List.replicate 8 (0 : Byte)).length ≤ (State.reset.setDecCap 8).decCap.toNat ∧
      ∀ k, ((List.replicate 8 (0 : Byte)).drop k).take 4 ≠ markerBytes := by
  refine ⟨by decide, by decide, by decide, fun k => ?_⟩
  rw [List.drop_replicate, List.take_replicate]
  intro h
  have := congrArg (fun bs => (0xDA : Byte) ∈ bs) h
  simp [markerBytes, List.mem_replicate] at this
theorem witness_MarkerResynchronises : ((accumulated [0xDA]).setDecStatus .dstOverrun).Inv := by decide
/-- `DA` before a Marker is a frame of one byte; a Marker alone is an empty frame. -/
theorem witness_endsNonEmptyFrame : endsNonEmptyFrame (markerBytes ++ [0xDA] ++ markerBytes ++ [1]) :=
  ⟨1, [0xDA], [1], by decide, by decide, by decide⟩
/-- DEC_INIT at both ends of its range, in two states that differ. -/
theorem witness_DecodingDependsOnlyOnBytes_init :
    (accumulated [0xDA]).Inv ∧ State.reset.Inv ∧ 8 ≤ (8 : Word).toNat ∧ (64 : Word).toNat ≤ State.reset.params.dstSize ∧
      (8 : Word).toNat ≤ (accumulated [0xDA]).params.dstSize ∧
      (∃ t, exec (.decInit 8) (accumulated [0xDA]) = .next t) ∧ ∃ u, exec (.decInit 8) State.reset = .next u :=
  ⟨by decide, by decide, by decide, by decide, by decide, ⟨_, rfl⟩, ⟨_, rfl⟩⟩
theorem witness_DecodingDependsOnlyOnBytes :
    ∃ s u : State, s.Inv ∧ u.Inv ∧ s.atFrameStart ∧ u.atFrameStart ∧ s.decCap = u.decCap ∧ s.dst ≠ u.dst ∧
      s.decLast ≠ u.decLast ∧ s.refused = false ∧ State.reset.decLast = s.decLast :=
  ⟨State.reset, { State.reset with dst := [(0, 1)], decLast := .offsetOdd },
    by decide, by decide, by decide, by decide, rfl, by decide, by decide, rfl, rfl⟩

/-! ### Witnesses: frame encoder, and the two together -/

/-- A payload of 56 bytes would be the largest that fits; these two are the smallest and one with an occurrence. -/
theorem witness_EncFrameWritesEncodedFrame :
    ([] : List Byte).length = (0 : Word).toNat ∧ State.reset.canEncode [] ∧ State.reset.holdsPayload [] ∧
      payloadW2.length = (20 : Word).toNat ∧ (holding payloadW2).canEncode payloadW2 ∧
      (holding payloadW2).holdsPayload payloadW2 ∧ State.reset.params.wellFormed = true ∧
      State.reset.canEncode (List.replicate 56 0) := by decide
theorem witness_EncodeFramePseudoEncodes :
    State.reset.refused = false ∧ State.reset.canEncode payloadW2 ∧ payloadW2.length < 2 ^ 32 := by decide
theorem witness_EncodedFrameShape :
    ∀ j, j ≤ 0 → 0 < j + 4 → (([0x55, 0xDA, 0xB8, 0xFE, 0xCA] : List Byte).drop j).take 4 ≠ markerBytes := by
  intro j hj _
  obtain rfl : j = 0 := by omega
  decide
theorem witness_EncodedFrameHasOneMarker : distancesFit [] ∧ distancesFit payloadW2 := by decide

/-- The distance of a payload of zero bytes is its length. -/
theorem distanceToNext_zeros (n : Nat) : distanceToNext (List.replicate n 0) = n := by
  induction n with
  | zero => rfl
  | succ n ih =>
    have h : startsWithMarker (0 :: List.replicate n 0) = false := by
      simp [startsWithMarker, markerBytes]
    rw [List.replicate_succ, distanceToNext_cons h, ih]

/-- A state that holds a payload which fits in the largest ENC. -/
theorem holds_payload (p : List Byte) (hp : p.length + 8 ≤ 2 ^ 31) :
    ∃ (s : State) (len : Word), p.length = len.toNat ∧ s.refused = false ∧ p.length + 8 ≤ s.params.encSize ∧
      s.holdsPayload p :=
  ⟨(State.resetWith ⟨8, 2 ^ 31, 0⟩ 0).setMem .enc (Memory.writeList [] 4 p), BitVec.ofNat 32 p.length,
    by rw [BitVec.toNat_ofNat]; omega, rfl, hp,
    (State.bytesAt_eq_iff _ _ _ _).2 fun k hk => State.byteAt_write_at (State.resetWith ⟨8, 2 ^ 31, 0⟩ 0) .enc 4 k p hk⟩

/-- A payload longer than OFFSET_MAX whose distances fit: OFFSET_MAX zero bytes, then a Marker (R144). -/
theorem witness_EncFrameWritesEncodedFrame_long :
    ∃ (s : State) (len : Word) (p : List Byte), offsetMax < p.length ∧ p.length = len.toNat ∧ s.canEncode p ∧
      s.holdsPayload p := by
  have hz := unmarked_prefix (List.replicate offsetMax 0) markerBytes fun k hk => by
    rw [List.length_replicate] at hk
    obtain ⟨j, hj⟩ : ∃ j, offsetMax - k = j + 1 := ⟨offsetMax - k - 1, by omega⟩
    rw [List.drop_append_of_le_length (by simp; omega), List.drop_replicate, hj, List.replicate_succ]
    simp [startsWithMarker, markerBytes]
  have hl : (List.replicate offsetMax (0 : Byte) ++ markerBytes).length = offsetMax + 4 := by
    rw [List.length_append, List.length_replicate]; rfl
  obtain ⟨s, len, h1, -, h2, h3⟩ := holds_payload (List.replicate offsetMax 0 ++ markerBytes) (by rw [hl]; decide)
  refine ⟨s, len, _, by rw [hl]; omega, h1, ⟨h2, ?_⟩, h3⟩
  intro d hd
  rw [chainDistances, hz.1, hz.2.2, List.length_replicate] at hd
  have hm : distanceToNext markerBytes = 0 ∧ linkDistances markerBytes = [0] := by decide
  rw [hm.1, hm.2] at hd
  simp only [List.mem_cons, List.not_mem_nil, or_false] at hd
  rcases hd with rfl | rfl <;> omega

/-- A payload of `2^30` bytes fits in the largest ENC, and its one distance is above OFFSET_MAX. -/
theorem witness_EncFrameRefusesOnlyLongDistances :
    ∃ (s : State) (len : Word) (p : List Byte), p.length = len.toNat ∧ len.toNat + 8 ≤ s.params.encSize ∧
      s.holdsPayload p ∧ ∃ d ∈ chainDistances p, offsetMax < d := by
  obtain ⟨s, len, h1, -, h2, h3⟩ := holds_payload (List.replicate (offsetMax + 1) 0) (by rw [List.length_replicate]; decide)
  refine ⟨s, len, _, h1, h1 ▸ h2, h3, offsetMax + 1, ?_, Nat.lt_succ_self _⟩
  rw [chainDistances, distanceToNext_zeros]
  exact List.mem_cons_self

/-- The two refused cases: an offset just above OFFSET_MAX, and the payload above. -/
theorem witness_ExactlyTwoRefusals :
    (State.reset.refused = false ∧ ∃ r, exec (.encOffset 0x40000000) State.reset = .refused r) ∧
      ∃ (s : State) (len : Word), s.refused = false ∧ len.toNat + 8 ≤ s.params.encSize ∧
        ∃ d ∈ chainDistances (s.bytesAt .enc 4 len.toNat), offsetMax < d := by
  refine ⟨⟨rfl, _, rfl⟩, ?_⟩
  obtain ⟨s, len, h1, h2, h3, h4⟩ := holds_payload (List.replicate (offsetMax + 1) 0) (by rw [List.length_replicate]; decide)
  refine ⟨s, len, h2, h1 ▸ h3, offsetMax + 1, ?_, Nat.lt_succ_self _⟩
  rw [State.holdsPayload, h1] at h4
  rw [h4, chainDistances, distanceToNext_zeros]
  exact List.mem_cons_self
theorem witness_RefusedRunEndsAsMarked :
    State.reset.refused = false ∧ (∃ r, exec (.encOffset 0x40000000) State.reset = .refused r) ∧
      Input.hostRead .dst 0 0 ≠ Input.reset := ⟨rfl, ⟨_, rfl⟩, by decide⟩

/-- Five bytes, and a capacity of exactly `L + 7 = 12`. -/
theorem witness_RoundTripThroughEncAndDst :
    ((holding [1, 2, 3, 4, 5]).setDecCap 12).Inv ∧ [(1 : Byte), 2, 3, 4, 5].length = (5 : Word).toNat ∧
      ((holding [1, 2, 3, 4, 5]).setDecCap 12).canEncode [1, 2, 3, 4, 5] ∧
      ((holding [1, 2, 3, 4, 5]).setDecCap 12).holdsPayload [1, 2, 3, 4, 5] ∧
      ((holding [1, 2, 3, 4, 5]).setDecCap 12).atFrameStart ∧ [(1 : Byte), 2, 3, 4, 5].length + 7 ≤ 12 := by decide
theorem witness_ConformingStreamIsDelivered :
    (State.reset.setDecCap 12).Inv ∧ (State.reset.setDecCap 12).atFrameStart ∧
      ∀ p ∈ [([] : List Byte), [1, 2, 3, 4, 5]], distancesFit p ∧
        p.length + 7 ≤ (State.reset.setDecCap 12).decCap.toNat := by decide
/-- A capacity of `L + 6`, one less than is enough (V-DEC-7). -/
theorem witness_FrameBeyondCapacityOverruns :
    (State.reset.setDecCap 11).Inv ∧ (State.reset.setDecCap 11).atFrameStart ∧
      distancesFit [1, 2, 3, 4, 5] ∧
      (State.reset.setDecCap 11).decCap.toNat < [(1 : Byte), 2, 3, 4, 5].length + 7 := by decide
theorem witness_CorruptionIsContained :
    ((accumulated [0x99, 0x98]).setDecCap 12).Inv ∧ distancesFit [1, 2, 3, 4, 5] ∧
      [(1 : Byte), 2, 3, 4, 5].length + 7 ≤ ((accumulated [0x99, 0x98]).setDecCap 12).decCap.toNat := by decide

end Sys2Proof.Tests
end

section
/-! SUPPORT. The statements of file 10 (state): what a step does to the block's state, and the invariant every step keeps.
`CommandEffect` and `InputEffect` say once what a command and an input can do; the whole-machine rules are read off them. -/

namespace Sys2Proof.Machine

/-! ### What a command can do -/

/-- `CommandEffect i s t`: from `s`, command `i` can complete in `t`. Every command but three only responds or moves the
scanner; DEC_INIT restarts the decoder, DEC_INGEST does what `execDecIngest_effect` says, ENC_FRAME writes ENC. -/
inductive CommandEffect : Instr → State → State → Prop
  | responds (i : Instr) (s : State) (r : Response) : CommandEffect i s (s.respond r)
  | scans (i : Instr) (s : State) (w p : Word) (r : Response) : CommandEffect i s (((s.setScnW w).setScnP p).respond r)
  | initialises (cap : Word) (s : State) (r : Response) (hmin : 8 ≤ cap.toNat) (hmax : cap.toNat ≤ s.params.dstSize) :
      CommandEffect (.decInit cap) s ((s.decoderInit cap).respond r)
  | ingests (b : Byte) (s t : State) (h : execDecIngest b s = .next t) : CommandEffect (.decIngest b) s t
  | encodes (len : Word) (s : State) (m : Memory) (r : Response)
      (hwf : Memory.wf s.params.encSize s.enc = true → Memory.wf s.params.encSize m = true) :
      CommandEffect (.encFrame len) s ((s.setMem .enc m).respond r)

/-- A command that completes has one of these effects. -/
theorem exec_effect {i : Instr} {s t : State} (h : exec i s = .next t) : CommandEffect i s t := by
  cases i with
  | encOffset v =>
    simp only [exec, execEncOffset] at h
    split at h
    · cases h
    · cases h; exact .responds ..
  | decOffset v => cases h; exact .responds ..
  | scanSetw v => cases h; exact .scans _ s v s.scnP _
  | scanGetw => cases h; exact .responds ..
  | scanStart => cases h; exact .scans _ s s.scnW 0 _
  | scanByte b => cases h; exact .scans ..
  | decInit cap =>
    simp only [exec, execDecInit] at h
    split at h
    · cases h; exact .responds ..
    · rename_i hin
      simp only [decInitRejected, Bool.or_eq_true, decide_eq_true_eq, not_or, Nat.not_lt] at hin
      cases h; exact .initialises _ _ _ hin.1 hin.2
  | decIngest b => exact .ingests b s t h
  | decStatus => cases h; exact .responds ..
  | decLast => cases h; exact .responds ..
  | encFrame len =>
    rcases execEncFrame_effect h with ⟨-, rfl⟩ | ⟨-, m, rfl, -, hwf⟩
    · exact .responds ..
    · exact .encodes len s m _ hwf

/-- A presented word is run as the command it decodes to. -/
theorem runCommand_of_decode {w : CmdWord} {i : Instr} (h : decode w = .ok i) (s : State) : runCommand w s = exec i s := by
  rw [runCommand, h]

/-- A presented word that is no command is rejected (R76 to R78). -/
theorem runCommand_of_not_decode {w : CmdWord} {e : Reject} (h : decode w = .error e) (s : State) :
    runCommand w s = .next s.reject := by
  rw [runCommand, h]

/-! In a run that is not refused a presented word is run, and a host access is made. -/

theorem applyInput_command {s : State} (h : s.refused = false) (w : CmdWord) :
    applyInput (.command w) s = runCommand w s := by
  simp [applyInput, h]

theorem applyInput_hostWrite {s : State} (h : s.refused = false) (m : MemId) (a : Nat) (bs : List Byte) :
    applyInput (.hostWrite m a bs) s = s.memWrite m a bs := by
  simp [applyInput, h, hostWrite]

theorem applyInput_hostRead {s : State} (h : s.refused = false) (m : MemId) (a n : Nat) :
    applyInput (.hostRead m a n) s = andThen (s.memRead m a n) fun bs => .next (s.answerRead bs) := by
  simp [applyInput, h, hostRead]

/-- From a refused run only a reset is taken (R36, R252). -/
theorem applyInput_of_refused {s : State} {x : Input} (h : s.refused = true) (hx : x ≠ .reset) :
    applyInput x s = .refused .meaninglessRun := by
  cases x with
  | reset => exact absurd rfl hx
  | command w => simp [applyInput, h]
  | hostWrite m a bs => simp [applyInput, h]
  | hostRead m a n => simp [applyInput, h]

/-- `InputEffect x s t`: from `s`, the input `x` can complete in `t` (R59). -/
inductive InputEffect : Input → State → State → Prop
  | resets (s : State) : InputEffect .reset s s.hardwareReset
  | rejects (w : CmdWord) (s : State) : InputEffect (.command w) s s.reject
  | runs (w : CmdWord) {i : Instr} {s t : State} (h : CommandEffect i s t) : InputEffect (.command w) s t
  | writes (m : MemId) (a : Nat) (bs : List Byte) (s : State) (hfit : bs = [] ∨ a + bs.length ≤ s.memSize m) :
      InputEffect (.hostWrite m a bs) s (s.setMem m ((s.mem m).writeList a bs))
  | answers (m : MemId) (a n : Nat) (s : State) (bs : List Byte) : InputEffect (.hostRead m a n) s (s.answerRead bs)

/-- An input that completes has one of these effects. -/
theorem applyInput_effect {x : Input} {s t : State} (h : applyInput x s = .next t) : InputEffect x s t := by
  have hlive : x = .reset ∨ s.refused = false := by
    by_contra! hdead
    rw [applyInput_of_refused (by simpa using hdead.2) hdead.1] at h
    cases h
  cases x with
  | reset => cases h; exact .resets s
  | command w =>
    rw [applyInput_command (by simpa using hlive)] at h
    cases hd : decode w with
    | ok i => rw [runCommand_of_decode hd] at h; exact .runs w (exec_effect h)
    | error e => rw [runCommand_of_not_decode hd] at h; cases h; exact .rejects w s
  | hostWrite m a bs =>
    rw [applyInput_hostWrite (by simpa using hlive)] at h
    obtain ⟨hfit, rfl⟩ := State.memWrite_eq_next.1 h
    exact .writes m a bs s hfit
  | hostRead m a n =>
    rw [applyInput_hostRead (by simpa using hlive)] at h
    obtain ⟨bs, -, hbs⟩ := andThen_eq_next.1 h
    cases hbs
    exact .answers m a n s bs

/-! ### FRAMES and REFUSED -/

/-- DEC_INGEST emits at most one event (R33). -/
theorem execDecIngest_frames {b : Byte} {s t : State} (h : execDecIngest b s = .next t) :
    t.frames = s.frames ∨ ∃ e, t.frames = s.frames ++ [e] := by
  obtain ⟨m, st, cur, w, last, fs, flag, value, rfl, hfs, -⟩ := execDecIngest_effect h
  rcases hfs with ⟨-, bs, -, hfs⟩ | ⟨-, -, hfs⟩
  · exact .inr ⟨_, hfs⟩
  · exact .inl hfs

/-- A command that does not ingest emits nothing. -/
theorem CommandEffect.frames_of_not_ingest {i : Instr} {s t : State} (h : CommandEffect i s t)
    (hi : isIngestCommand i = false) : t.frames = s.frames := by
  cases h with
  | ingests b => simp [isIngestCommand] at hi
  | _ => simp

/-- A command emits at most one event. -/
theorem CommandEffect.frames {i : Instr} {s t : State} (h : CommandEffect i s t) :
    t.frames = s.frames ∨ ∃ e, t.frames = s.frames ++ [e] := by
  cases h with
  | ingests b _ _ h => exact execDecIngest_frames h
  | _ => exact .inl (by simp)

/-- No command that completes writes REFUSED. -/
theorem CommandEffect.refused {i : Instr} {s t : State} (h : CommandEffect i s t) : t.refused = s.refused := by
  cases h with
  | ingests b _ _ h =>
    obtain ⟨m, st, cur, w, last, fs, flag, value, rfl, -⟩ := execDecIngest_effect h
    rfl
  | _ => simp

/-! ### The invariant between commands -/

/-- Legal parameters: the initial capacity is DST_SIZE itself, which the 32-bit register holds (R8, R29). -/
theorem Params.dstSize_of_wellFormed {p : Params} (h : p.wellFormed = true) :
    8 ≤ p.dstSize ∧ (BitVec.ofNat 32 p.dstSize).toNat = p.dstSize := by
  simp only [Params.wellFormed, Params.dstSizeLegal, Bool.and_eq_true, decide_eq_true_eq] at h
  obtain ⟨⟨⟨hmin, hmax⟩, -⟩, -⟩ := h
  exact ⟨hmin, by rw [BitVec.toNat_ofNat]; omega⟩

/-- At the start of a frame the cursor and window clauses of the invariant hold of themselves. -/
theorem State.inv_of_atFrameStart {s : State} (hp : s.params.wellFormed = true) (hm : s.memoriesOk)
    (hmin : 8 ≤ s.decCap.toNat) (hmax : s.decCap.toNat ≤ s.params.dstSize) (hstart : s.atFrameStart)
    (hlast : s.decLast ≠ .offsetOutOfBounds) (hf : s.framesOk) : s.Inv := by
  obtain ⟨hst, hcur, hw⟩ := hstart
  exact ⟨hp, hm, ⟨hmin, hmax, by simp [hcur]⟩, ⟨.inl hst, hlast⟩, fun _ => by simp [hw], hf⟩

/-- The invariant holds right after reset, whatever the memories hold. -/
theorem State.inv_hardwareReset {s : State} (hp : s.params.wellFormed = true) (hm : s.memoriesOk) :
    s.hardwareReset.Inv := by
  obtain ⟨hmin, hcap⟩ := Params.dstSize_of_wellFormed hp
  exact inv_of_atFrameStart hp hm (by simpa [hcap] using hmin) (by simp [hcap]) ⟨rfl, rfl, rfl⟩ (by simp)
    fun _ he => absurd he (by simp)

/-- Right after reset nothing is listed in either memory. -/
theorem State.inv_resetWith {p : Params} (hp : p.wellFormed = true) (q : Nat) : (State.resetWith p q).Inv :=
  inv_hardwareReset (s := State.resetWith p q) hp ⟨rfl, rfl⟩

/-! The invariant reads neither the scanner, nor the host's side, nor the responses. -/

theorem State.Inv.setInput {s : State} (h : s.Inv) (v : List Input) : (s.setInput v).Inv := h
theorem State.Inv.respond {s : State} (h : s.Inv) (r : Response) : (s.respond r).Inv := h
theorem State.Inv.answerRead {s : State} (h : s.Inv) (bs : List Byte) : (s.answerRead bs).Inv := h
theorem State.Inv.setScanner {s : State} (h : s.Inv) (w p : Word) : ((s.setScnW w).setScnP p).Inv := h

/-- New contents of a memory keep the invariant when they are canonical. -/
theorem State.Inv.setMem {s : State} (h : s.Inv) {m : MemId} {c : Memory} (hc : Memory.wf (s.memSize m) c = true) :
    (s.setMem m c).Inv := by
  obtain ⟨hp, ⟨hdst, henc⟩, hrest⟩ := h
  cases m with
  | dst => exact ⟨hp, ⟨hc, henc⟩, hrest⟩
  | enc => exact ⟨hp, ⟨hdst, hc⟩, hrest⟩

/-- Either memory of a state that meets the invariant is canonical. -/
theorem State.Inv.mem_wf {s : State} (h : s.Inv) (m : MemId) : Memory.wf (s.memSize m) (s.mem m) = true := by
  obtain ⟨-, ⟨hdst, henc⟩, -⟩ := h
  cases m with
  | dst => exact hdst
  | enc => exact henc

/-- An accepted DEC_INIT starts a frame with a capacity that fits in DST. -/
theorem State.Inv.decoderInit {s : State} (h : s.Inv) {cap : Word} (hmin : 8 ≤ cap.toNat)
    (hmax : cap.toNat ≤ s.params.dstSize) : (s.decoderInit cap).Inv := by
  obtain ⟨hp, hm, -, -, -, hf⟩ := h
  exact inv_of_atFrameStart hp hm hmin hmax ⟨rfl, rfl, rfl⟩ (by simp) hf

/-! ### DEC_INGEST keeps the invariant -/

/-- What DEC_INGEST leaves in DEC.W and DEC.CUR (R164 to R166, R174): the start of a frame after a Marker; else the moved
window, with one more byte counted, or an error and no byte counted. -/
theorem execDecIngest_cursor {b : Byte} {s t : State} (h : execDecIngest b s = .next t) :
    t.atFrameStart ∨
      (t.decW = shiftWindow s.decW b ∧
        ((s.decStatus = .parsing ∧ s.decCur < s.decCap ∧ t.decCur = s.decCur + 1) ∨
          (t.decStatus ≠ .parsing ∧ t.decCur = s.decCur))) := by
  rw [execDecIngest] at h
  split at h
  · obtain ⟨e, -, he⟩ := andThen_eq_next.1 h
    cases he
    exact .inl ⟨rfl, rfl, rfl⟩
  rw [accumulate] at h
  split at h
  · rename_i hst
    split at h
    · rename_i hroom
      obtain ⟨s1, h1, h⟩ := andThen_eq_next.1 h
      obtain ⟨-, rfl⟩ := State.memWrite_eq_next.1 h1
      cases h
      exact .inr ⟨rfl, .inl ⟨hst, hroom, rfl⟩⟩
    · cases h
      exact .inr ⟨rfl, .inr ⟨by simp, rfl⟩⟩
  · rename_i hst
    cases h
    exact .inr ⟨rfl, .inr ⟨hst, rfl⟩⟩

/-- A cursor below the capacity counts one more byte without wrap (R165). -/
theorem toNat_succ_of_lt {cur cap : Word} (h : cur < cap) : (cur + 1).toNat = cur.toNat + 1 := by
  have hlt : cur.toNat < cap.toNat := h
  have := cap.isLt
  rw [BitVec.toNat_add, show (1 : Word).toNat = 1 from rfl]
  omega

/-- The invariant's clauses on DEC.CUR and DEC.W are kept by DEC_INGEST: a byte is counted only while it fits, and with no
error every byte that moves the window is counted (R27, R32). -/
theorem execDecIngest_keeps_cursor {b : Byte} {s t : State} (h : execDecIngest b s = .next t)
    (hcur : s.decCur.toNat ≤ s.decCap.toNat) (hw : s.windowOk) :
    t.decCur.toNat ≤ s.decCap.toNat ∧ t.windowOk := by
  rcases execDecIngest_cursor h with ⟨-, hcur0, hw0⟩ | ⟨hshift, ⟨hst, hroom, hcount⟩ | ⟨hbad, hsame⟩⟩
  · exact ⟨by simp [hcur0], fun _ => by simp [hw0]⟩
  · have hlt : s.decCur.toNat < s.decCap.toNat := hroom
    have hsucc : t.decCur.toNat = s.decCur.toNat + 1 := by rw [hcount, toNat_succ_of_lt hroom]
    refine ⟨by omega, fun _ => ?_⟩
    rw [hshift, hsucc]
    exact shiftWindow_mod _ _ _ (hw hst)
  · exact ⟨by rw [hsame]; exact hcur, fun hst => absurd hst hbad⟩

/-- DEC_INGEST keeps the invariant. -/
theorem execDecIngest_inv {b : Byte} {s t : State} (hinv : s.Inv) (h : execDecIngest b s = .next t) : t.Inv := by
  obtain ⟨hp, ⟨hdst, henc⟩, ⟨hmin, hmax, hcur⟩, ⟨hst, hlast⟩, hw, hf⟩ := hinv
  obtain ⟨hcur', hw'⟩ := execDecIngest_keeps_cursor h hcur hw
  obtain ⟨m, st, cur, w, last, fs, flag, value, rfl, hfs, hlast', hst', hwf⟩ := execDecIngest_effect h
  refine ⟨hp, ⟨hwf hdst, henc⟩, ⟨hmin, hmax, hcur'⟩, ⟨?_, ?_⟩, hw', ?_⟩
  · rcases hst' with rfl | rfl | rfl
    · exact .inl rfl
    · exact .inr rfl
    · exact hst
  · rcases hlast' with rfl | rfl | rfl | rfl
    · exact hlast
    · rcases hst with hst | hst <;> simp [hst]
    · simp
    · simp
  · rcases hfs with ⟨-, bs, hlen, rfl⟩ | ⟨-, -, rfl⟩
    · exact List.forall_mem_append.2 ⟨hf, by simpa using hlen⟩
    · exact hf

/-! ### Every step keeps the invariant -/

/-- Every command keeps the invariant. -/
theorem CommandEffect.inv {i : Instr} {s t : State} (h : CommandEffect i s t) (hinv : s.Inv) : t.Inv := by
  cases h with
  | responds => exact hinv.respond _
  | scans => exact (hinv.setScanner _ _).respond _
  | initialises _ _ _ hmin hmax => exact (hinv.decoderInit hmin hmax).respond _
  | ingests _ _ _ h => exact execDecIngest_inv hinv h
  | encodes _ _ _ _ hwf => exact (hinv.setMem (m := .enc) (hwf (hinv.mem_wf .enc))).respond _

/-- Every input keeps the invariant. -/
theorem applyInput_inv {x : Input} {s t : State} (hinv : s.Inv) (h : applyInput x s = .next t) : t.Inv := by
  cases applyInput_effect h with
  | resets =>
    obtain ⟨hp, hm, -⟩ := hinv
    exact State.inv_hardwareReset hp hm
  | rejects => exact hinv.respond _
  | runs _ heff => exact heff.inv hinv
  | writes m _ _ _ hfit => exact hinv.setMem (Memory.wf_writeList (hinv.mem_wf m) hfit)
  | answers => exact hinv.answerRead _

/-- Settles O18, by cases on what the input taken can do; the case with content is DEC_INGEST. -/
theorem everyStepKeepsInvariant : Obligations.EveryStepKeepsInvariant := by
  intro s t hinv h
  rw [step] at h
  split at h
  · cases h; exact hinv
  · exact applyInput_inv (hinv.setInput _) h

/-- Settles O17. -/
theorem resetMeetsInvariant : Obligations.ResetMeetsInvariant :=
  ⟨fun _ q hp => State.inv_resetWith hp q, rfl, State.inv_resetWith (by decide) 0⟩

/-! ### Steps, REFUSED and FRAMES -/

/-- Settles O8. -/
theorem stepRunsPresentedCommand : Obligations.StepRunsPresentedCommand := by
  intro s w rest hin href
  have hstep : step s = runCommand w (s.setInput rest) := by
    rw [step, hin]
    exact applyInput_command (s := s.setInput rest) href w
  refine ⟨fun i hd _ => ?_, fun ⟨e, hd⟩ => ?_⟩
  · rw [hstep, runCommand_of_decode hd]
  · rw [hstep, runCommand_of_not_decode hd]

/-- Settles O9. -/
theorem stepWaitsForTheHost : Obligations.StepWaitsForTheHost := by
  intro s hin
  rw [step, hin]

/-- A refused input ends the run, marked (R36). -/
theorem runInputs_of_refused {x : Input} {s : State} {r : Refusal} (h : applyInput x s = .refused r) (xs : List Input) :
    runInputs (x :: xs) s = .next s.markRefused := by
  rw [runInputs, h]

/-- A refused run stays refused: it takes no input but a reset. -/
theorem runInputs_keeps_refused {xs : List Input} {s t : State} (hs : s.refused = true) (hxs : .reset ∉ xs)
    (h : runInputs xs s = .next t) : t.refused = true := by
  cases xs with
  | nil => cases h; exact hs
  | cons x xs =>
    rw [runInputs_of_refused (applyInput_of_refused hs fun hx => hxs (hx ▸ List.mem_cons_self))] at h
    cases h
    rfl

/-- Settles O13. -/
theorem refusedIsMarkedAndStays : Obligations.RefusedIsMarkedAndStays := by
  refine ⟨fun s w i r xs href hd h => ⟨s.markRefused, ?_, rfl⟩, fun s t xs hs hxs h => runInputs_keeps_refused hs hxs h,
    fun s t i h => (exec_effect h).refused⟩
  exact runInputs_of_refused (by rw [applyInput_command href, runCommand_of_decode hd, h]) xs

/-- Settles O21. -/
theorem onlyIngestEmitsFrames : Obligations.OnlyIngestEmitsFrames :=
  fun _ _ _ h => ⟨(exec_effect h).frames_of_not_ingest, (exec_effect h).frames⟩

/-- Settles O26: only a command appends, and at most one event. -/
theorem eventsAreNeverTakenBack : Obligations.EventsAreNeverTakenBack := by
  intro x s t hx h
  cases applyInput_effect h with
  | resets => exact absurd rfl hx
  | runs _ heff =>
    rcases heff.frames with hsame | ⟨e, hone⟩
    · exact ⟨[], by simp [hsame]⟩
    · exact ⟨[e], hone⟩
  | rejects => exact ⟨[], by simp⟩
  | writes => exact ⟨[], by simp⟩
  | answers => exact ⟨[], by simp⟩

end Sys2Proof.Machine
end

section
/-! SUPPORT. The frame in progress (R32): what the decoder holds of the bytes accumulated since the start of a frame. -/

namespace Sys2Proof.Machine

/-! ### The bytes of the rolling window -/

/-- The newest byte of the window is the one that moved it (R13). -/
theorem shiftWindow_newest (w : Word) (b : Byte) : (shiftWindow w b).extractLsb' 24 8 = b := by
  apply BitVec.eq_of_toNat_eq
  have hw := w.isLt
  have hb := b.isLt
  rw [BitVec.extractLsb'_toNat, shiftWindow_toNat, Nat.shiftRight_eq_div_pow]
  omega

/-- An older byte of the window stood one position higher before (R13). -/
theorem shiftWindow_older (w : Word) (b : Byte) {k : Nat} (hk : k < 3) :
    (shiftWindow w b).extractLsb' (8 * k) 8 = w.extractLsb' (8 * (k + 1)) 8 := by
  apply BitVec.eq_of_toNat_eq
  have hw := w.isLt
  have hb := b.isLt
  simp only [BitVec.extractLsb'_toNat, shiftWindow_toNat, Nat.shiftRight_eq_div_pow]
  interval_cases k <;> omega

/-- From a clear window, position `k` counted from the newest holds the `k`-th last byte, or a zero byte if there are not
that many (R13, R32). -/
theorem foldl_shiftWindow_bytes (bs : List Byte) {k : Nat} (hk : k < 4) :
    (bs.foldl shiftWindow 0).extractLsb' (8 * (3 - k)) 8 = if h : k < bs.length then bs[bs.length - 1 - k] else 0 := by
  induction bs using List.reverseRecOn generalizing k with
  | nil => simp
  | append_singleton bs b ih =>
    rw [List.foldl_append, List.foldl_cons, List.foldl_nil]
    cases k with
    | zero => rw [dif_pos (by simp)]; simpa using shiftWindow_newest _ _
    | succ k =>
      rw [shiftWindow_older _ _ (by omega), show 3 - (k + 1) + 1 = 3 - k by omega, ih (by omega)]
      by_cases hlt : k < bs.length
      · rw [dif_pos hlt, dif_pos (by simpa using hlt), List.getElem_append_left (by simp; omega)]
        congr 1
        simp
        omega
      · rw [dif_neg hlt, dif_neg (by simpa using hlt)]

/-- Where no Marker occurs, the window over the first bytes is never the Marker (R102, R127). -/
theorem window_ne_marker_of_no_occurrence {bs pre : List Byte} (h : ∀ k, (bs.drop k).take 4 ≠ markerBytes)
    (hpre : pre <+: bs) : pre.foldl shiftWindow 0 ≠ markerWord := by
  intro hm
  obtain ⟨rest, rfl⟩ := hpre
  have h4 := ((foldl_shiftWindow_eq_marker pre).1 hm).1
  refine h (pre.length - 4) ((occurrence_iff_window _ _).2 ⟨by simp; omega, ?_⟩)
  rw [show pre.length - 4 + 4 = pre.length by omega, List.take_left, hm]

/-! ### Accumulating bytes -/

/-- DEC_INGEST of a byte that completes no Marker, with no error and with room (R164, R165). -/
theorem execDecIngest_of_room {s : State} {b : Byte} (hm : shiftWindow s.decW b ≠ markerWord)
    (hst : s.decStatus = .parsing) (hroom : s.decCur < s.decCap) (hfit : s.decCur.toNat + 1 ≤ s.params.dstSize) :
    execDecIngest b s = .next ((((s.setDecW (shiftWindow s.decW b)).setMem .dst
      (s.dst.writeList s.decCur.toNat [b])).setDecCur (s.decCur + 1)).respond (accepted false 0)) := by
  rw [execDecIngest, if_neg hm, accumulate, if_pos hst, if_pos hroom, State.memWrite_of_fits (by simpa using hfit)]
  rfl

/-- `s.Accumulated t bs`: from the start of a frame in `s`, the decoder took in exactly the bytes `bs` with no error, and
stands in `t` (R32). -/
structure State.Accumulated (s t : State) (bs : List Byte) : Prop where
  decStatus : t.decStatus = .parsing
  decCur : t.decCur.toNat = bs.length
  decW : t.decW = bs.foldl shiftWindow 0
  dst : t.bytesAt .dst 0 bs.length = bs
  frames : t.frames = s.frames
  decLast : t.decLast = s.decLast
  decCap : t.decCap = s.decCap
  params : t.params = s.params

/-- At the start of a frame nothing is accumulated. -/
theorem State.accumulated_nil {s : State} (h : s.atFrameStart) : s.Accumulated s [] := by
  obtain ⟨hst, hcur, hw⟩ := h
  exact ⟨hst, by simp [hcur], hw, rfl, rfl, rfl, rfl, rfl⟩

/-- Writing the byte after a byte list in DST extends the list. -/
theorem State.bytesAt_write_snoc {s : State} {bs : List Byte} (h : s.bytesAt .dst 0 bs.length = bs) (b : Byte) :
    (s.setMem .dst (s.dst.writeList bs.length [b])).bytesAt .dst 0 (bs.length + 1) = bs ++ [b] := by
  rw [bytesAt_add]
  congr 1
  · conv_rhs => rw [← h]
    exact bytesAt_congr fun k hk => byteAt_write_outside s .dst _ _ [b] (.inl (by omega))
  · have hb := byteAt_write_at s .dst bs.length 0 [b] (by simp)
    simpa [bytesAt] using hb

/-- One more byte that completes no Marker is accumulated while there is room (R165). -/
theorem State.Accumulated.ingest {s t : State} {bs : List Byte} (h : s.Accumulated t bs) {b : Byte}
    (hroom : bs.length < s.decCap.toNat) (hcap : s.decCap.toNat ≤ s.params.dstSize)
    (hm : (bs ++ [b]).foldl shiftWindow 0 ≠ markerWord) :
    ∃ u, execDecIngest b t = .next u ∧ s.Accumulated u (bs ++ [b]) := by
  obtain ⟨hst, hcur, hw, hdst, hframes, hlast, hdecCap, hparams⟩ := h
  have hshift : shiftWindow t.decW b = (bs ++ [b]).foldl shiftWindow 0 := by
    rw [hw, List.foldl_append, List.foldl_cons, List.foldl_nil]
  have hlt : t.decCur < t.decCap := by rw [BitVec.lt_def, hcur, hdecCap]; exact hroom
  refine ⟨_, execDecIngest_of_room (hshift ▸ hm) hst hlt (by rw [hcur, hparams]; omega), ?_⟩
  refine ⟨by simpa using hst, ?_, by simpa using hshift, ?_, by simpa using hframes, by simpa using hlast,
    by simpa using hdecCap, by simpa using hparams⟩
  · have hsucc := toNat_succ_of_lt hlt
    simpa [hcur] using hsucc
  · rw [List.length_append, List.length_singleton, ← bytesAt_write_snoc hdst b, hcur]
    exact bytesAt_congr fun _ _ => rfl

/-- Bytes without a Marker that fit in DEC.CAP are accumulated, after those accumulated before. -/
theorem State.Accumulated.ingestAll {s t : State} {pre bs : List Byte} (h : s.Accumulated t pre)
    (hfit : (pre ++ bs).length ≤ s.decCap.toNat) (hcap : s.decCap.toNat ≤ s.params.dstSize)
    (hm : ∀ k, ((pre ++ bs).drop k).take 4 ≠ markerBytes) :
    ∃ u, ingestBytes bs t = .next u ∧ s.Accumulated u (pre ++ bs) := by
  induction bs generalizing t pre with
  | nil => exact ⟨t, rfl, by simpa using h⟩
  | cons b bs ih =>
    have hsplit : pre ++ b :: bs = pre ++ [b] ++ bs := by simp
    rw [hsplit] at hfit hm ⊢
    have hroom : pre.length < s.decCap.toNat := by
      simp only [List.length_append, List.length_singleton] at hfit
      omega
    obtain ⟨t1, ht1, hacc⟩ := h.ingest hroom hcap (window_ne_marker_of_no_occurrence hm ⟨bs, rfl⟩)
    obtain ⟨u, hu, hacc'⟩ := ih hacc hfit hm
    exact ⟨u, by rw [ingestBytes, exec, ht1, andThen_next, hu], hacc'⟩

/-- Settles O43: the bytes are accumulated one by one, and DEC.W is the window over them. -/
theorem accumulatedBytesStandInDst : Obligations.AccumulatedBytesStandInDst := by
  intro s bs hinv hstart hfit hm
  obtain ⟨-, -, ⟨-, hcap, -⟩, -⟩ := hinv
  obtain ⟨t, ht, hacc⟩ := (State.accumulated_nil hstart).ingestAll (bs := bs) hfit hcap hm
  rw [List.nil_append] at hacc
  refine ⟨t, ht, hacc.decStatus, hacc.decCur, hacc.dst, hacc.frames, hacc.decLast, fun k hk => ?_⟩
  rw [hacc.decW]
  exact foldl_shiftWindow_bytes bs hk

end Sys2Proof.Machine
end

section
/-! SUPPORT. The statements of file 20 (memory): host accesses, the queue of inputs, and which command reaches which bytes
of DST and ENC. -/

namespace Sys2Proof.Machine

/-! ### Memory accesses inside and outside a memory -/

/-- Replacing a memory's contents moves no bound (R34, R35). -/
@[simp] theorem State.memSize_setMem (s : State) (m m' : MemId) (c : Memory) : (s.setMem m c).memSize m' = s.memSize m' := by
  cases m' <;> simp

/-- Reading the range just written returns the bytes written (R58). -/
theorem State.bytesAt_write_same (s : State) (m : MemId) (a : Nat) (bs : List Byte) :
    (s.setMem m ((s.mem m).writeList a bs)).bytesAt m a bs.length = bs :=
  (bytesAt_eq_iff _ m a bs).2 fun k hk => byteAt_write_at s m a k bs hk

/-- A byte reads the same when its index holds the same written byte, or none. -/
theorem State.byteAt_of_written {s t : State} {m : MemId} {a : Nat} (h : (t.mem m).written a = (s.mem m).written a)
    (hp : t.powerOn = s.powerOn) : t.byteAt m a = s.byteAt m a := by
  cases m <;> simp only [byteAt, freeByte, h, hp]

/-- A read that names a byte outside the memory faults (R50). -/
theorem State.memRead_of_outside {s : State} {m : MemId} {a n : Nat} (hn : n ≠ 0) (h : s.memSize m < a + n) :
    s.memRead m a n = .fault (.noSuchByte m) := by
  have hout : ¬ inMemory a n (s.memSize m) = true := by rw [inMemory_iff]; omega
  rw [memRead, if_neg hout]

/-- A write that names a byte outside the memory faults (R50). -/
theorem State.memWrite_of_outside {s : State} {m : MemId} {a : Nat} {bs : List Byte} (hbs : bs ≠ [])
    (h : s.memSize m < a + bs.length) : s.memWrite m a bs = .fault (.noSuchByte m) := by
  have hlen : bs.length ≠ 0 := by simpa using hbs
  have hout : ¬ inMemory a bs.length (s.memSize m) = true := by rw [inMemory_iff]; omega
  rw [memWrite, if_neg hout]

/-! ### Host accesses (R52, R53, R58) -/

/-- A host read inside a memory answers with the bytes that stand there, whoever wrote them. -/
theorem applyInput_hostRead_of_fits {s : State} {m : MemId} {a n : Nat} (href : s.refused = false)
    (hfit : a + n ≤ s.memSize m) : applyInput (.hostRead m a n) s = .next (s.answerRead (s.bytesAt m a n)) := by
  rw [applyInput_hostRead href, State.memRead_of_fits hfit, andThen_next]

/-- A host write inside a memory is one list write. -/
theorem applyInput_hostWrite_of_fits {s : State} {m : MemId} {a : Nat} {bs : List Byte} (href : s.refused = false)
    (hfit : a + bs.length ≤ s.memSize m) :
    applyInput (.hostWrite m a bs) s = .next (s.setMem m ((s.mem m).writeList a bs)) := by
  rw [applyInput_hostWrite href, State.memWrite_of_fits hfit]

/-- Settles O10: a host write is one list write, whose bytes the read that follows finds. -/
theorem hostAccessReadsAndWritesBytes : Obligations.HostAccessReadsAndWritesBytes := by
  refine ⟨fun s m a n href hfit => applyInput_hostRead_of_fits href hfit, fun s m a bs href hfit => ?_⟩
  have hread := applyInput_hostRead_of_fits (s := s.setMem m ((s.mem m).writeList a bs)) (a := a) (n := bs.length)
    (by simpa using href) (by simpa using hfit)
  rw [State.bytesAt_write_same] at hread
  exact ⟨_, _, applyInput_hostWrite_of_fits href hfit, hread,
    fun k hk => State.byteAt_write_at s m a k bs hk,
    fun x hx => State.byteAt_write_outside s m a x bs hx,
    fun m' hm' x => State.byteAt_setMem_other s _ hm' x,
    by simp [State.sameScanner], by simp [State.sameDecoder], by simp, by simp, by simp [State.sameSurroundings], rfl⟩

/-- Settles O11. -/
theorem hostAccessOutsideMemoryFaults : Obligations.HostAccessOutsideMemoryFaults := by
  refine fun s m a bs n href => ⟨fun hbs hout => ?_, fun hn hout => ?_⟩
  · rw [applyInput_hostWrite href, State.memWrite_of_outside hbs hout]
  · rw [applyInput_hostRead href, State.memRead_of_outside hn hout, andThen_fault]

/-! ### The queue of inputs (R59) -/

/-- No command outside the scanner reads or writes the fields of an update the decoder and the encoder ignore. -/
theorem exec_ignored {f : State → State} (hb : IgnoredUpdate f) (hlast : ∀ s, (f s).decLast = s.decLast) {i : Instr}
    (hi : isScannerCommand i = false) (s : State) : exec i (f s) = afterwards f (exec i s) := by
  cases i with
  | encOffset v => simp only [exec, execEncOffset, hb.respond]; split <;> rfl
  | decOffset v => simp only [exec, execDecOffset, hb.respond]; rfl
  | decInit cap => exact execDecInit_ignored hb cap s
  | decIngest b => exact execDecIngest_ignored hb b s
  | decStatus => simp only [exec, execDecStatus, hb.respond, hb.decStatus]; rfl
  | decLast => simp only [exec, execDecLast, hb.respond, hlast]; rfl
  | encFrame len => exact execEncFrame_ignored hb len s
  | scanSetw | scanGetw | scanStart | scanByte => simp [isScannerCommand] at hi

/-- No command reads or writes the queue. -/
theorem exec_setInput (i : Instr) (s : State) (v : List Input) :
    exec i (s.setInput v) = afterwards (·.setInput v) (exec i s) := by
  cases hi : isScannerCommand i with
  | false => exact exec_ignored (ignored_setInput v) (fun _ => rfl) hi s
  | true =>
    cases i with
    | scanSetw | scanGetw | scanStart | scanByte => rfl
    | _ => simp [isScannerCommand] at hi

/-- Running a presented word neither reads nor writes the queue. -/
theorem runCommand_setInput (w : CmdWord) (s : State) (v : List Input) :
    runCommand w (s.setInput v) = afterwards (·.setInput v) (runCommand w s) := by
  cases hd : decode w with
  | ok i => rw [runCommand_of_decode hd, runCommand_of_decode hd, exec_setInput]
  | error e => rw [runCommand_of_not_decode hd, runCommand_of_not_decode hd]; rfl

/-- No input reads or writes what waits behind it in the queue. -/
theorem applyInput_setInput (x : Input) (s : State) (v : List Input) :
    applyInput x (s.setInput v) = afterwards (·.setInput v) (applyInput x s) := by
  cases x with
  | reset => rfl
  | command w =>
    simp only [applyInput, State.setInput_refused, runCommand_setInput]
    split <;> rfl
  | hostWrite m a bs =>
    have hw := memWrite_ignored (ignored_setInput v) s m a bs
    simp only [applyInput, State.setInput_refused, hostWrite, hw]
    split <;> rfl
  | hostRead m a n =>
    have hr := memRead_ignored (ignored_setInput v) s m a n
    simp only [applyInput, State.setInput_refused, hostRead, hr, afterwards]
    split
    · rfl
    · rw [andThen_assoc]; rfl

/-- A step that completes is the first step of a run. -/
theorem core_run_succ {s s' : State} (h : step s = .next s') (k : Nat) :
    Host.Core.run Sys2Proof.core (k + 1) s = Host.Core.run Sys2Proof.core k s' := by
  have hcore : Sys2Proof.core.step s = .next s' := h
  simp only [Host.Core.run, hcore]

/-- An input that completes is taken from the front of the queue by one step (R59). -/
theorem step_of_applyInput {x : Input} {s s' : State} (h : applyInput x s = .next s') (v : List Input) :
    step (s.setInput (x :: v)) = .next (s'.setInput v) := by
  have hstep : step (s.setInput (x :: v)) = applyInput x (s.setInput v) := rfl
  rw [hstep, applyInput_setInput, h]
  rfl

/-- The run over a nonempty list that ends unrefused starts with an input that completes. -/
theorem runInputs_cons_of_unrefused {x : Input} {xs : List Input} {s t : State} (h : runInputs (x :: xs) s = .next t)
    (ht : t.refused = false) : ∃ s', applyInput x s = .next s' ∧ runInputs xs s' = .next t := by
  rw [runInputs] at h
  split at h
  · exact ⟨_, ‹_›, h⟩
  · cases h
  · cases h; simp at ht

/-- One step per input is the run over the inputs, and leaves the rest of the queue waiting, unless the run ends refused. -/
theorem core_run_of_runInputs {xs : List Input} {s t : State} (h : runInputs xs s = .next t) (ht : t.refused = false)
    (rest : List Input) :
    Host.Core.run Sys2Proof.core xs.length (s.setInput (xs ++ rest)) = .next (t.setInput rest) := by
  induction xs generalizing s with
  | nil => cases h; rfl
  | cons x xs ih =>
    obtain ⟨s', hx, hxs⟩ := runInputs_cons_of_unrefused h ht
    rw [List.length_cons, List.cons_append, core_run_succ (step_of_applyInput hx _)]
    exact ih hxs

/-- Settles O12, by induction on the inputs: a step takes one and leaves those behind it in the queue. -/
theorem steppingIsRunning : Obligations.SteppingIsRunning :=
  fun _ rest _ _ _ h ht => core_run_of_runInputs h ht rest

/-! ### No command leaves the memories (R63) -/

/-- Settles O19: the commands that touch a memory are DEC_INGEST and ENC_FRAME. -/
theorem noCommandLeavesMemory : Obligations.NoCommandLeavesMemory := by
  intro s i f hinv
  cases i with
  | decIngest b => exact execDecIngest_ne_fault hinv
  | encFrame len => exact execEncFrame_ne_fault
  | encOffset v => simp only [exec, execEncOffset]; split <;> simp
  | decInit cap => simp only [exec, execDecInit]; split <;> simp
  | decOffset | scanSetw | scanGetw | scanStart | scanByte | decStatus | decLast => exact nofun

/-! ### Which command writes which bytes (R51, R62) -/

@[simp] theorem retractMarker_dst (s : State) : (retractMarker s).dst = s.dst := by
  rw [retractMarker]; split <;> rfl

/-- Taking a Marker's bytes back never moves the cursor up: it does not wrap (R167). -/
theorem retractMarker_decCur_le {s : State} {b : Byte} (hw : s.windowOk) (hm : shiftWindow s.decW b = markerWord) :
    (retractMarker s).decCur.toNat ≤ s.decCur.toNat := by
  rw [retractMarker]
  split
  · rename_i hst
    have h3 : 3 ≤ s.decCur.toNat := three_le_decCur hw hst hm
    have hlt := s.decCur.isLt
    rw [State.setDecCur_decCur, BitVec.toNat_sub, show (3 : Word).toNat = 3 from rfl]
    omega
  · exact le_rfl

/-- DEC_INGEST writes DST below DEC.CAP only: one byte at a cursor below it, or links of a frame that ends at or below it
(R165, R172). -/
theorem execDecIngest_dst_above {b : Byte} {s t : State} (hinv : s.Inv) (h : execDecIngest b s = .next t) {a : Nat}
    (ha : s.decCap.toNat ≤ a) : t.dst.written a = s.dst.written a := by
  obtain ⟨-, -, ⟨-, -, hcur⟩, -, hw, -⟩ := hinv
  rw [execDecIngest] at h
  split at h
  · rename_i hm
    have hback := retractMarker_decCur_le hw hm
    obtain ⟨e, he, h⟩ := andThen_eq_next.1 h
    obtain ⟨m, st, last, fs, hstate, -, -, habove, -⟩ := endOfFrame_effect he
    cases h
    simpa [hstate] using habove a (by omega)
  rw [accumulate] at h
  split at h
  · split at h
    · rename_i hroom
      have hlt : s.decCur.toNat < s.decCap.toNat := hroom
      obtain ⟨s1, h1, h⟩ := andThen_eq_next.1 h
      obtain ⟨-, rfl⟩ := State.memWrite_eq_next.1 h1
      cases h
      exact Memory.written_writeList_other _ _ _ _ (.inr (by simp; omega))
    · cases h; rfl
  · cases h; rfl

/-- DEC_INGEST writes neither ENC nor the power-on contents. -/
theorem execDecIngest_keeps_enc {b : Byte} {s t : State} (h : execDecIngest b s = .next t) :
    t.enc = s.enc ∧ t.powerOn = s.powerOn := by
  obtain ⟨m, st, cur, w, last, fs, flag, value, rfl, -⟩ := execDecIngest_effect h
  exact ⟨rfl, rfl⟩

/-- A command leaves DST, or it is DEC_INGEST (R51). -/
theorem CommandEffect.sameBytes_dst_or_ingests {i : Instr} {s t : State} (h : CommandEffect i s t) :
    State.sameBytes s t .dst ∨ ∃ b, i = .decIngest b ∧ execDecIngest b s = .next t := by
  cases h with
  | ingests b _ _ h => exact .inr ⟨b, rfl, h⟩
  | encodes => exact .inl fun a => by simpa using State.byteAt_setMem_other s _ (by simp) a
  | _ => exact .inl fun a => by simp

/-- A command that does not ingest leaves DST. -/
theorem CommandEffect.dst_of_not_ingest {i : Instr} {s t : State} (h : CommandEffect i s t)
    (hi : isIngestCommand i = false) : State.sameBytes s t .dst := by
  rcases h.sameBytes_dst_or_ingests with hsame | ⟨b, rfl, -⟩
  · exact hsame
  · simp [isIngestCommand] at hi

/-- No command writes a DST byte at or above DEC.CAP (R34). -/
theorem CommandEffect.dst_above_cap {i : Instr} {s t : State} (h : CommandEffect i s t) (hinv : s.Inv) {a : Nat}
    (ha : s.decCap.toNat ≤ a) : t.byteAt .dst a = s.byteAt .dst a := by
  rcases h.sameBytes_dst_or_ingests with hsame | ⟨b, -, hb⟩
  · exact hsame a
  · exact State.byteAt_of_written (execDecIngest_dst_above hinv hb ha) (execDecIngest_keeps_enc hb).2

/-- A command other than ENC_FRAME leaves ENC. -/
theorem CommandEffect.enc_of_not_encFrame {i : Instr} {s t : State} (h : CommandEffect i s t)
    (hi : ∀ len, i ≠ .encFrame len) : State.sameBytes s t .enc := by
  intro a
  cases h with
  | ingests _ _ _ h =>
    obtain ⟨henc, hp⟩ := execDecIngest_keeps_enc h
    exact State.byteAt_congr (m := .enc) henc hp a
  | encodes len => exact absurd rfl (hi len)
  | _ => simp

/-- ENC_FRAME writes ENC below `L + 8` only (R62). -/
theorem execEncFrame_enc_above {len : Word} {s t : State} (h : execEncFrame len s = .next t) {a : Nat}
    (ha : len.toNat + 8 ≤ a) : t.byteAt .enc a = s.byteAt .enc a := by
  rcases execEncFrame_effect h with ⟨-, rfl⟩ | ⟨-, m, rfl, habove, -⟩
  · simp
  · exact State.byteAt_of_written (habove a ha) rfl

/-- Settles O22, from what a command that completes can do. -/
theorem unitsWriteOnlyTheirMemory : Obligations.UnitsWriteOnlyTheirMemory := by
  intro i s t hinv h
  have heff := exec_effect h
  refine ⟨heff.dst_of_not_ingest, fun a ha => heff.dst_above_cap hinv ha, heff.enc_of_not_encFrame, ?_⟩
  rintro len a rfl ha
  exact execEncFrame_enc_above h ha

end Sys2Proof.Machine
end

section
/-! SUPPORT. The statements of file 30 (encoding) about command words: decoding a word against the opcode table (R70 to
R79). `DecodesTo` says once what the decoder can answer, and the statements are read off it. -/

namespace Sys2Proof.Laws

open Sys2Proof.Machine

/-! ### The rows of the table -/

/-- Every command's word selects the command's row, which is in the table. -/
theorem encodingSelectsRow (i : Instr) : EncodingSelectsRow.Statement i := by
  cases i with
  | encOffset v => exact EncodingSelectsRow.encOffset v
  | decOffset v => exact EncodingSelectsRow.decOffset v
  | scanSetw v => exact EncodingSelectsRow.scanSetw v
  | scanGetw => exact EncodingSelectsRow.scanGetw
  | scanStart => exact EncodingSelectsRow.scanStart
  | scanByte b => exact EncodingSelectsRow.scanByte b
  | decInit cap => exact EncodingSelectsRow.decInit cap
  | decIngest b => exact EncodingSelectsRow.decIngest b
  | decStatus => exact EncodingSelectsRow.decStatus
  | decLast => exact EncodingSelectsRow.decLast
  | encFrame len => exact EncodingSelectsRow.encFrame len

/-- An opcode is assigned once (R74). -/
theorem row_eq_of_opcode_eq : ∀ r ∈ opcodeTable, ∀ r' ∈ opcodeTable, r.opcode = r'.opcode → r = r' := by decide

/-- A word selects a row exactly when it has the row's opcode and sets no reserved bit of its form (R79). -/
theorem selects_iff (r : Row) (w : CmdWord) :
    r.selects w = true ↔ opcodeOf w = r.opcode ∧ argOf w &&& r.form.reservedMask = 0 := by
  have hmasked : w &&& r.maskWord = (opcodeOf w &&& 0xFF) ++ (argOf w &&& r.form.reservedMask) := by
    conv_lhs => rw [← fields_of_word w]
    exact and_fields ..
  have hall : opcodeOf w &&& 0xFF = opcodeOf w := BitVec.and_allOnes
  rw [Row.selects, beq_iff_eq, hmasked, hall, Row.matchWord]
  refine ⟨fun h => ⟨?_, ?_⟩, fun ⟨hop, harg⟩ => by rw [hop, harg]⟩
  · simpa only [opcodeOf_fields] using congrArg opcodeOf h
  · simpa only [argOf_fields] using congrArg argOf h

/-! ### A command and its fields -/

/-- The word of a command is its raw command's two fields (R70, R86). -/
theorem encode_eq_fields (i : Instr) : encode i = i.command.opcode ++ i.command.arg := by
  cases i <;> rfl

/-- An operand field is its 24 high bits and its byte. -/
theorem arg_eq_append (arg : Word) : arg.extractLsb' 8 24 ++ arg.extractLsb' 0 8 = arg := by
  rw [BitVec.extractLsb'_append_extractLsb'_eq_extractLsb' (by rfl)]
  exact BitVec.extractLsb'_eq_self

/-- Form B8's mask keeps the 24 high bits. -/
theorem and_reservedMask_b8 (arg : Word) : arg &&& Form.b8.reservedMask = arg.extractLsb' 8 24 ++ (0 : Byte) := by
  have hmask : Form.b8.reservedMask = (0xFFFFFF : BitVec 24) ++ (0 : Byte) := by decide
  have hhigh : arg.extractLsb' 8 24 &&& (0xFFFFFF : BitVec 24) = arg.extractLsb' 8 24 := BitVec.and_allOnes
  conv_lhs => rw [← arg_eq_append arg, hmask]
  exact BitVec.and_append.trans (by rw [hhigh]; exact congrArg _ BitVec.and_zero)

/-- Reading a byte operand gives it back: no reserved bit of form B8 is set (R71, R72). -/
theorem readB8_setWidth (mk : Byte → Instr) (b : Byte) : readB8 mk (b.setWidth 32) = .ok (mk b) := by
  have hhigh : (b.setWidth 32).extractLsb' 8 24 = 0 := by revert b; decide
  have hlow : (b.setWidth 32).extractLsb' 0 8 = b := by revert b; decide
  rw [readB8, if_pos hhigh, hlow]

/-- The decoder reads a command back from its fields. -/
theorem decodeFields_command (i : Instr) : decodeFields i.command.opcode i.command.arg = .ok i := by
  cases i with
  | scanByte b => exact readB8_setWidth .scanByte b
  | decIngest b => exact readB8_setWidth .decIngest b
  | _ => rfl

/-! ### What the decoder can answer -/

/-- `DecodesTo op arg o`: the answer `o` fits the fields `op` and `arg`, in the order of R78. -/
inductive DecodesTo (op : Byte) (arg : Word) : Except Reject Instr → Prop
  /-- the fields are those of a command -/
  | command {i : Instr} (hfields : i.command = ⟨op, arg⟩) : DecodesTo op arg (.ok i)
  /-- the opcode has a row, and a reserved bit of its form is set (R76) -/
  | reserved {r : Row} (hr : r ∈ opcodeTable) (hop : r.opcode = op) (hbits : arg &&& r.form.reservedMask ≠ 0) :
      DecodesTo op arg (.error .reservedBits)
  /-- no row has the opcode (R77) -/
  | unassigned (hop : ∀ r ∈ opcodeTable, r.opcode ≠ op) : DecodesTo op arg (.error .unassignedOpcode)

/-- Form B8: the bits it tests are the reserved ones of its mask. -/
theorem DecodesTo.of_readB8 {m : String} {op : Byte} {arg : Word} {mk : Byte → Instr}
    (hr : (⟨m, op, .b8⟩ : Row) ∈ opcodeTable) (hmk : ∀ b, (mk b).command = ⟨op, b.setWidth 32⟩) :
    DecodesTo op arg (readB8 mk arg) := by
  rw [readB8]
  split
  · rename_i hhigh
    have harg : (arg.extractLsb' 0 8).setWidth 32 = arg := by
      conv_rhs => rw [← arg_eq_append arg, hhigh]
      exact BitVec.setWidth_eq_append (by decide)
    exact .command ((hmk _).trans (congrArg _ harg))
  · rename_i hhigh
    refine .reserved hr rfl fun hbits => hhigh ?_
    rw [and_reservedMask_b8] at hbits
    calc arg.extractLsb' 8 24 = (arg.extractLsb' 8 24 ++ (0 : Byte)).extractLsb' 8 24 :=
          BitVec.extractLsb'_append_eq_left.symm
      _ = 0 := by rw [hbits]; decide

/-- Form Z: any set bit of the operand field is reserved. -/
theorem DecodesTo.of_readZ {m : String} {op : Byte} {arg : Word} {i : Instr}
    (hr : (⟨m, op, .z⟩ : Row) ∈ opcodeTable) (hi : i.command = ⟨op, 0⟩) : DecodesTo op arg (readZ i arg) := by
  rw [readZ]
  split
  · rename_i harg
    exact .command (by rw [hi, harg])
  · rename_i harg
    have hmask : arg &&& Form.z.reservedMask = arg := BitVec.and_allOnes
    exact .reserved hr rfl (by rwa [hmask])

/-- The decoder's answer fits the fields: one case per row, and the opcodes no row has. -/
theorem decodesTo_decodeFields (op : Byte) (arg : Word) : DecodesTo op arg (decodeFields op arg) := by
  have hop {k : Nat} (h : op.toNat = k) : op = BitVec.ofNat 8 k := by rw [← h, BitVec.ofNat_toNat, BitVec.setWidth_eq]
  rw [decodeFields]
  split
  case h_1 h | h_2 h | h_3 h | h_7 h | h_11 h => obtain rfl := hop h; exact .command rfl
  case h_4 h => obtain rfl := hop h; exact .of_readZ (m := "SCAN_GETW") (by decide) rfl
  case h_5 h => obtain rfl := hop h; exact .of_readZ (m := "SCAN_START") (by decide) rfl
  case h_6 h => obtain rfl := hop h; exact .of_readB8 (m := "SCAN_BYTE") (by decide) fun _ => rfl
  case h_8 h => obtain rfl := hop h; exact .of_readB8 (m := "DEC_INGEST") (by decide) fun _ => rfl
  case h_9 h => obtain rfl := hop h; exact .of_readZ (m := "DEC_STATUS") (by decide) rfl
  case h_10 h => obtain rfl := hop h; exact .of_readZ (m := "DEC_LAST") (by decide) rfl
  case h_12 =>
    refine .unassigned ?_
    simp_all [opcodeTable, ← BitVec.toNat_inj, eq_comm]

theorem decodesTo_decode (w : CmdWord) : DecodesTo (opcodeOf w) (argOf w) (decode w) :=
  decodesTo_decodeFields _ _

/-! ### The statements -/

/-- Settles O1. -/
theorem exampleWordsDecode : Obligations.ExampleWordsDecode := ⟨rfl, rfl, rfl, rfl, rfl, rfl⟩

/-- The word of a command decodes to it. -/
@[simp] theorem decode_encode (i : Instr) : decode (encode i) = .ok i := by
  rw [decode, encode_eq_fields, opcodeOf_fields, argOf_fields, decodeFields_command]

/-- Settles O2. -/
theorem decodeInvertsEncode : Obligations.DecodeInvertsEncode := fun i _ => decode_encode i

/-- A word that decodes to a command is the command's word. -/
theorem encode_of_decode {w : CmdWord} {i : Instr} (h : decode w = .ok i) : encode i = w := by
  have hw := decodesTo_decode w
  rw [h] at hw
  cases hw with
  | command hfields => rw [encode_eq_fields, hfields, fields_of_word]

/-- Settles O3. -/
theorem encodeInvertsDecode : Obligations.EncodeInvertsDecode := fun _ _ h => encode_of_decode h

/-- A command's row selects every word that decodes to it. -/
theorem row_selects_of_decode {w : CmdWord} {i : Instr} (h : decode w = .ok i) :
    i.row ∈ opcodeTable ∧ i.row.selects w = true := by
  obtain ⟨hsel, -, hrow, -⟩ := encodingSelectsRow i
  exact ⟨hrow, encode_of_decode h ▸ hsel⟩

/-- A rejected word selects no row. -/
theorem selects_eq_false_of_reject {w : CmdWord} {e : Reject} (h : decode w = .error e) {r : Row}
    (hr : r ∈ opcodeTable) : r.selects w = false := by
  rw [Bool.eq_false_iff, ne_eq, selects_iff]
  rintro ⟨hop, hclear⟩
  have hw := decodesTo_decode w
  rw [h] at hw
  cases hw with
  | reserved hr' hop' hbits =>
    obtain rfl := row_eq_of_opcode_eq _ hr _ hr' (hop.symm.trans hop'.symm)
    exact hbits hclear
  | unassigned hnone => exact hnone r hr hop.symm

/-- Settles O4: a row is selected by its opcode, which is assigned once. -/
theorem decoderAgreesWithOpcodeTable : Obligations.DecoderAgreesWithOpcodeTable := by
  refine fun w => ⟨fun r hr r' hr' h h' => ?_, fun i h => row_selects_of_decode h,
    fun ⟨e, h⟩ r hr => selects_eq_false_of_reject h hr, fun hnone => ?_⟩
  · exact row_eq_of_opcode_eq r hr r' hr' (((selects_iff r w).1 h).1.symm.trans ((selects_iff r' w).1 h').1)
  · cases hd : decode w with
    | error e => exact ⟨e, rfl⟩
    | ok i =>
      obtain ⟨hrow, hsel⟩ := row_selects_of_decode hd
      exact absurd hsel (by simp [hnone _ hrow])

/-- R77's list is the opcodes no row has. -/
theorem unassignedOpcode_iff (op : Byte) : unassignedOpcode op = true ↔ ∀ r ∈ opcodeTable, r.opcode ≠ op := by
  have hlt := op.isLt
  simp [unassignedOpcode, opcodeTable, ← BitVec.toNat_inj]
  omega

/-- A word whose opcode no row has is rejected for its opcode (R77). -/
theorem decode_of_unassigned {w : CmdWord} (h : ∀ r ∈ opcodeTable, r.opcode ≠ opcodeOf w) :
    decode w = .error .unassignedOpcode := by
  generalize hd : decode w = o
  have hw := hd ▸ decodesTo_decode w
  cases hw with
  | command hfields =>
    obtain ⟨hrow, hsel⟩ := row_selects_of_decode hd
    exact absurd ((selects_iff _ w).1 hsel).1.symm (h _ hrow)
  | reserved hr hop => exact absurd hop (h _ hr)
  | unassigned => rfl

/-- A word with a reserved bit of its opcode's form set is rejected for it (R76). -/
theorem decode_of_reservedBits {w : CmdWord} {r : Row} (hr : r ∈ opcodeTable) (hop : r.opcode = opcodeOf w)
    (hbits : argOf w &&& r.form.reservedMask ≠ 0) : decode w = .error .reservedBits := by
  generalize hd : decode w = o
  have hw := hd ▸ decodesTo_decode w
  cases hw with
  | command hfields =>
    obtain ⟨hrow, hsel⟩ := row_selects_of_decode hd
    obtain ⟨hop', hclear⟩ := (selects_iff _ w).1 hsel
    obtain rfl := row_eq_of_opcode_eq r hr _ hrow (hop.trans hop')
    exact absurd hclear hbits
  | reserved => rfl
  | unassigned hnone => exact absurd hop (hnone r hr)

/-- Settles O5. -/
theorem illegalWordsAreRejected : Obligations.IllegalWordsAreRejected := by
  refine ⟨unassignedOpcode_iff, fun w s hop => ?_, fun w r s hr hop hbits => ?_⟩
  · have hd := decode_of_unassigned ((unassignedOpcode_iff _).1 hop)
    exact ⟨hd, runCommand_of_not_decode hd s⟩
  · have hd := decode_of_reservedBits hr hop hbits
    exact ⟨hd, runCommand_of_not_decode hd s⟩

end Sys2Proof.Laws
end

section
/-! SUPPORT. The statement of file 30 (encoding) about assembler lines (R86): a number written in hex is read back. -/

namespace Sys2Proof.Laws

/-! ### Hex digits -/

/-- A hex digit is read as the number it was written for. -/
theorem hexDigit_hexChar {d : Nat} (h : d < 16) : hexDigit (hexChar d) = some d := by
  have hall : ∀ d : Fin 16, hexDigit (hexChar d) = some d.val := by decide
  exact hall ⟨d, h⟩

/-- The `n` lowest hex digits of `v`, read after `acc`, are `n` more digits. -/
theorem readDigits_hexChars (n v acc : Nat) :
    readDigits 16 hexDigit (hexChars n v) acc = some (acc * 16 ^ n + v % 16 ^ n) := by
  induction n generalizing acc with
  | zero => simp [hexChars, readDigits, Nat.mod_one]
  | succ n ih =>
    have hsplit : v % 16 ^ (n + 1) = v % 16 ^ n + 16 ^ n * (v / 16 ^ n % 16) := by rw [pow_succ, Nat.mod_mul]
    rw [hexChars, readDigits, hexDigit_hexChar (Nat.mod_lt _ (by omega))]
    simp only [ih, hsplit, Option.some.injEq]
    ring

/-! ### Mnemonics and operands -/

/-- No mnemonic holds a blank. -/
theorem mnemonic_no_blank : ∀ r ∈ opcodeTable, ∀ c ∈ r.mnemonic.toList, (c != ' ') = true := by
  have hall : (opcodeTable.all fun r => r.mnemonic.toList.all (· != ' ')) = true := by decide
  simpa only [List.all_eq_true] using hall

/-- A mnemonic names its row. -/
theorem find_mnemonic : ∀ r ∈ opcodeTable,
    opcodeTable.find? (fun r' => r'.mnemonic.toList == r.mnemonic.toList) = some r := by decide

/-- A line that is a mnemonic, and then nothing or a blank, is assembled in the mnemonic's row. -/
theorem assemble_row {r : Row} (hr : r ∈ opcodeTable) {operand : List Char}
    (hblank : operand.head?.all (· == ' ') = true) :
    assemble (r.mnemonic.toList ++ operand) = assembleOperand r.opcode r.form operand := by
  have hname : operand.takeWhile (· != ' ') = [] := by
    cases operand with
    | nil => rfl
    | cons c cs => simp_all
  have hrest : operand.dropWhile (· != ' ') = operand := by
    cases operand with
    | nil => rfl
    | cons c cs => simp_all
  rw [assemble, List.takeWhile_append_of_pos (mnemonic_no_blank r hr),
    List.dropWhile_append_of_pos (mnemonic_no_blank r hr), hname, hrest, List.append_nil, find_mnemonic r hr]

/-- The line of form V32, its value in eight hex digits, gives the opcode and the value. -/
theorem assemble_lineV32 {m : String} {op : Byte} (hr : (⟨m, op, .v32⟩ : Row) ∈ opcodeTable) (v : Word) :
    assemble (lineV32 m v) = some (op ++ v) := by
  have hread : readValue ('0' :: 'x' :: hexChars 8 v.toNat) = some v.toNat := by
    have hlt : v.toNat < 16 ^ 8 := v.isLt
    refine (readDigits_hexChars 8 v.toNat 0).trans ?_
    rw [Nat.zero_mul, Nat.zero_add, Nat.mod_eq_of_lt hlt]
  refine (assemble_row hr rfl).trans ?_
  simp only [assembleOperand, hread, v.isLt, if_true, BitVec.ofNat_toNat, BitVec.setWidth_eq]

/-- The line of form B8, its byte in two hex digits, gives the opcode and the byte. -/
theorem assemble_lineB8 {m : String} {op : Byte} (hr : (⟨m, op, .b8⟩ : Row) ∈ opcodeTable) (b : Byte) :
    assemble (lineB8 m b) = some (op ++ b.setWidth 32) := by
  have hread : readByte ('0' :: 'x' :: hexChars 2 b.toNat) = some b.toNat := by
    have hlt : b.toNat < 16 ^ 2 := b.isLt
    refine (readDigits_hexChars 2 b.toNat 0).trans ?_
    rw [Nat.zero_mul, Nat.zero_add, Nat.mod_eq_of_lt hlt]
  refine (assemble_row hr rfl).trans ?_
  simp only [assembleOperand, hread, BitVec.ofNat_toNat]

/-- The line of form Z, the mnemonic alone, gives the opcode and an operand of zero. -/
theorem assemble_mnemonic {m : String} {op : Byte} (hr : (⟨m, op, .z⟩ : Row) ∈ opcodeTable) :
    assemble m.toList = some (op ++ (0 : Word)) := by
  simpa [assembleOperand] using assemble_row hr (operand := []) rfl

/-- Settles O6, form by form. -/
theorem assembledLineIsTheWord : Obligations.AssembledLineIsTheWord := by
  intro i
  cases i with
  | encOffset v => exact assemble_lineV32 (by decide) v
  | decOffset v => exact assemble_lineV32 (by decide) v
  | scanSetw v => exact assemble_lineV32 (by decide) v
  | scanGetw => exact assemble_mnemonic (by decide)
  | scanStart => exact assemble_mnemonic (by decide)
  | scanByte b => exact assemble_lineB8 (by decide) b
  | decInit cap => exact assemble_lineV32 (by decide) cap
  | decIngest b => exact assemble_lineB8 (by decide) b
  | decStatus => exact assemble_mnemonic (by decide)
  | decLast => exact assemble_mnemonic (by decide)
  | encFrame len => exact assemble_lineV32 (by decide) len

end Sys2Proof.Laws
end

section
/-! SUPPORT. The statements of file 30 (encoding) about responses (R73) and the pseudo-instruction ENCODE_FRAME
(R87). -/

namespace Sys2Proof.Machine

/-! ### One response per command (R73) -/

/-- From `s` to `t` one response was returned, and one with `err = 1` is all that changed. -/
def RespondsOnce (s t : State) : Prop :=
  ∃ r, t.responses = s.responses ++ [r] ∧ (r.err = true → r = rejection ∧ t = s.respond r)

/-- A rejection is the one response. -/
theorem respondsOnce_reject (s : State) : RespondsOnce s s.reject := ⟨rejection, rfl, fun _ => ⟨rfl, rfl⟩⟩

/-- So is the acceptance of a command that returned none before it. -/
theorem respondsOnce_accepted {s u : State} {flag : Bool} {value : Word} (h : u.responses = s.responses) :
    RespondsOnce s (u.respond (accepted flag value)) :=
  ⟨accepted flag value, by simp [h], fun herr => by cases herr⟩

/-- Every command that completes returns one response. -/
theorem exec_respondsOnce {i : Instr} {s t : State} (h : exec i s = .next t) : RespondsOnce s t := by
  cases i with
  | encOffset v =>
    simp only [exec, execEncOffset] at h
    split at h
    · cases h
    · cases h; exact respondsOnce_accepted rfl
  | decOffset v => cases h; exact respondsOnce_accepted rfl
  | scanSetw v => cases h; exact respondsOnce_accepted rfl
  | scanGetw => cases h; exact respondsOnce_accepted rfl
  | scanStart => cases h; exact respondsOnce_accepted rfl
  | scanByte b => cases h; exact respondsOnce_accepted rfl
  | decInit cap =>
    simp only [exec, execDecInit] at h
    split at h
    · cases h; exact respondsOnce_reject s
    · cases h; exact respondsOnce_accepted rfl
  | decIngest b =>
    obtain ⟨m, st, cur, w, last, fs, flag, value, rfl, -⟩ := execDecIngest_effect h
    exact ⟨⟨false, flag, value⟩, rfl, fun herr => by cases herr⟩
  | decStatus => cases h; exact respondsOnce_accepted rfl
  | decLast => cases h; exact respondsOnce_accepted rfl
  | encFrame len =>
    rcases execEncFrame_effect h with ⟨-, rfl⟩ | ⟨-, m, rfl, -⟩
    · exact respondsOnce_reject s
    · exact respondsOnce_accepted rfl

/-- No command that completes touches REFUSED, the parameters or the host's side (R21, R36). -/
theorem CommandEffect.sameSurroundings {i : Instr} {s t : State} (h : CommandEffect i s t) : s.sameSurroundings t := by
  cases h with
  | ingests b _ _ h =>
    obtain ⟨m, st, cur, w, last, fs, flag, value, rfl, -⟩ := execDecIngest_effect h
    simp [State.sameSurroundings]
  | _ => simp [State.sameSurroundings]

/-- Settles O20. -/
theorem everyCommandRespondsOnce : Obligations.EveryCommandRespondsOnce := by
  intro w s t h
  cases hd : decode w with
  | ok i =>
    rw [runCommand_of_decode hd] at h
    exact ⟨exec_respondsOnce h, (exec_effect h).sameSurroundings⟩
  | error e =>
    rw [runCommand_of_not_decode hd] at h
    cases h
    exact ⟨respondsOnce_reject s, by simp [State.sameSurroundings]⟩

/-! ### ENCODE_FRAME (R87, R146) -/

/-- In a run that is not refused, presenting a command's word runs the command. -/
theorem applyInput_ofInstr {s : State} (h : s.refused = false) (i : Instr) :
    applyInput (.ofInstr i) s = exec i s := by
  rw [Input.ofInstr, applyInput_command h, runCommand_of_decode (Laws.decode_encode i)]

/-- The run of two inputs that both complete. -/
theorem runInputs_pair {x y : Input} {s t u : State} (hx : applyInput x s = .next t) (hy : applyInput y t = .next u) :
    runInputs [x, y] s = .next u := by
  simp only [runInputs, hx, hy]

/-- ENC_FRAME of a payload that stands in ENC and may be encoded replaces ENC's contents and responds. -/
theorem exec_encFrame_of_canEncode {s : State} {len : Word} {p : List Byte} (hp : p.length = len.toNat)
    (hcan : s.canEncode p) (hpay : s.holdsPayload p) :
    ∃ m, exec (.encFrame len) s = .next ((s.setMem .enc m).respond (accepted false (len + 8))) ∧
      (s.setMem .enc m).bytesAt .enc 0 (len.toNat + 8) = encodedFrame p ∧
      ∀ a, len.toNat + 8 ≤ a → (s.setMem .enc m).byteAt .enc a = s.byteAt .enc a := by
  obtain ⟨m, hrun, -, hframe, habove⟩ := execEncFrame_of_canEncode hp hcan hpay
  exact ⟨m, hrun, hframe, habove⟩

/-- Settles O48: the host's write makes the payload stand in ENC, where ENC_FRAME finds it. -/
theorem encodeFramePseudoEncodes : Obligations.EncodeFramePseudoEncodes := by
  intro s p href hcan hlen
  obtain ⟨hfit, hdist⟩ := hcan
  have htoNat : (BitVec.ofNat 32 p.length).toNat = p.length := by
    rw [BitVec.toNat_ofNat, Nat.mod_eq_of_lt hlen]
  generalize hu : s.setMem .enc ((s.mem .enc).writeList 4 p) = u
  have hwrite : applyInput (.hostWrite .enc 4 p) s = .next u :=
    hu ▸ applyInput_hostWrite_of_fits (m := .enc) href (by simp; omega)
  have hpay : u.holdsPayload p := hu ▸ State.bytesAt_write_same s .enc 4 p
  have hcan : u.canEncode p := ⟨by simpa [← hu] using hfit, hdist⟩
  obtain ⟨m, hrun, hframe, habove⟩ := exec_encFrame_of_canEncode htoNat.symm hcan hpay
  rw [htoNat] at hframe habove
  have hcmd := (applyInput_ofInstr (by simpa [← hu] using href) _).trans hrun
  refine ⟨_, runInputs_pair hwrite hcmd, ?_, fun a ha => ?_, ?_, fun a => ?_, ?_⟩
  · exact (State.bytesAt_congr fun _ _ => State.byteAt_respond ..).trans hframe
  · rw [State.byteAt_respond, habove a ha, ← hu, State.byteAt_write_outside s .enc 4 a p (by omega)]
  · simp [← hu, accepted, BitVec.ofNat_add]
  · rw [State.byteAt_respond, State.byteAt_setMem_other _ _ (by decide), ← hu,
      State.byteAt_setMem_other _ _ (by decide)]
  · simp [← hu, State.sameScanner, State.sameDecoder, State.sameSurroundings]

end Sys2Proof.Machine
end

section
/-! SUPPORT. The statements of file 40 (offset codec): the two functions bit by bit, their inverses, the codec's commands,
and why no window over a wire field is the Marker. -/

namespace Sys2Proof.Machine

/-! ### The field of an offset (R103) -/

/-- A bit of a word, as arithmetic on its number. -/
theorem word_bit (f : Word) (i : Nat) : f.getLsbD i = decide (f.toNat / 2 ^ i % 2 = 1) :=
  Nat.testBit_eq_decide_div_mod_eq

/-- Bits 6:0 of the field are the offset's. -/
theorem encodeOffset_bits_low {v : Word} (h : v.toNat ≤ offsetMax) :
    (encodeOffset v).extractLsb' 0 7 = v.extractLsb' 0 7 := by
  simp only [offsetMax] at h
  apply BitVec.eq_of_toNat_eq
  simp only [BitVec.extractLsb'_toNat, encodeOffset_toNat v (by omega), Nat.shiftRight_eq_div_pow]
  omega

/-- Bits 31:8 of the field are bits 30:7 of the offset. -/
theorem encodeOffset_bits_high {v : Word} (h : v.toNat ≤ offsetMax) :
    (encodeOffset v).extractLsb' 8 24 = v.extractLsb' 7 24 := by
  simp only [offsetMax] at h
  apply BitVec.eq_of_toNat_eq
  simp only [BitVec.extractLsb'_toNat, encodeOffset_toNat v (by omega), Nat.shiftRight_eq_div_pow]
  omega

/-- Bytes 0 and 3 of the field are below 0x80. -/
theorem encodeOffset_bytes_lt {v : Word} (h : v.toNat ≤ offsetMax) :
    (encodeOffset v).toNat % 256 < 0x80 ∧ (encodeOffset v).toNat / 2 ^ 24 < 0x80 := by
  simp only [offsetMax] at h
  rw [encodeOffset_toNat v (by omega)]
  omega

/-- So the top bits of these two bytes, bits 7 and 31, are clear. -/
theorem encodeOffset_bits_clear {v : Word} (h : v.toNat ≤ offsetMax) :
    (encodeOffset v).getLsbD 7 = false ∧ (encodeOffset v).getLsbD 31 = false := by
  obtain ⟨hbyte0, hbyte3⟩ := encodeOffset_bytes_lt h
  simp only [word_bit, decide_eq_false_iff_not]
  omega

/-! ### The value of a field (R104, R109) -/

/-- A field's value is above OFFSET_MAX exactly when its bit 31 is set (R108). -/
theorem offsetMax_lt_decodeOffset_iff (f : Word) : offsetMax < (decodeOffset f).toNat ↔ f.getLsbD 31 = true := by
  have hf := f.isLt
  simp only [word_bit, decide_eq_true_eq, decodeOffset_toNat, offsetMax]
  omega

/-- DEC_OFFSET's flag is bit 31 of its operand (R108). -/
theorem tooBigFlag_eq_bit31 (f : Word) : tooBigFlag f = f.getLsbD 31 :=
  Bool.eq_iff_iff.2 ((tooBig_iff f).trans (offsetMax_lt_decodeOffset_iff f))

/-! ### The two functions are inverse (R105) -/

/-- Decoding undoes encoding. -/
theorem decodeOffset_encodeOffset {v : Word} (h : v.toNat ≤ offsetMax) : decodeOffset (encodeOffset v) = v := by
  simp only [offsetMax] at h
  apply BitVec.eq_of_toNat_eq
  rw [decodeOffset_toNat, encodeOffset_toNat v (by omega)]
  omega

/-- Encoding undoes decoding where decoding ignores nothing: where bit 7 is clear. -/
theorem encodeOffset_decodeOffset {f : Word} (h : f.getLsbD 7 = false) : encodeOffset (decodeOffset f) = f := by
  rw [word_bit, decide_eq_false_iff_not] at h
  apply BitVec.eq_of_toNat_eq
  rw [encodeOffset_toNat _ (decodeOffset_lt f), decodeOffset_toNat]
  omega

/-- Settles O29. -/
theorem offsetFunctionsAreInverse : Obligations.OffsetFunctionsAreInverse := by
  refine ⟨fun off hoff => ⟨decodeOffset_encodeOffset hoff, encodeOffset_bits_clear hoff⟩, fun f h7 h31 => ?_⟩
  have hsmall : ¬ offsetMax < (decodeOffset f).toNat := by rw [offsetMax_lt_decodeOffset_iff, h31]; decide
  exact ⟨encodeOffset_decodeOffset h7, Nat.not_lt.1 hsmall⟩

/-! ### The commands (R107, R108) -/

/-- A response leaves all but the responses unchanged. -/
theorem State.respond_frame (s : State) (r : Response) :
    s.sameScanner (s.respond r) ∧ s.sameDecoder (s.respond r) ∧ (s.respond r).frames = s.frames ∧
      s.sameBytes (s.respond r) .dst ∧ s.sameBytes (s.respond r) .enc ∧ s.sameSurroundings (s.respond r) := by
  simp [State.sameScanner, State.sameDecoder, State.sameBytes, State.sameSurroundings]

/-- ENC_OFFSET responds the field of an offset that has one. -/
theorem exec_encOffset_of_le {v : Word} (h : v.toNat ≤ offsetMax) (s : State) :
    exec (.encOffset v) s = .next (s.respond (accepted false (encodeOffset v))) :=
  if_neg (Nat.not_lt.2 h)

/-- ENC_OFFSET above OFFSET_MAX is refused (I1). -/
theorem exec_encOffset_of_lt {v : Word} (h : offsetMax < v.toNat) (s : State) :
    exec (.encOffset v) s = .refused .encOffsetRange :=
  if_pos h

/-- DEC_OFFSET responds the value of its operand and the operand's bit 31. -/
theorem exec_decOffset (v : Word) (s : State) :
    exec (.decOffset v) s = .next (s.respond (accepted (v.getLsbD 31) (decodeOffset v))) := by
  rw [← tooBigFlag_eq_bit31]
  rfl

/-- Settles O27. -/
theorem encOffsetRespondsField : Obligations.EncOffsetRespondsField := by
  intro v s
  refine ⟨fun w => runCommand_of_decode (Laws.decode_encode (.encOffset w)) s, fun hv => ?_,
    fun hv => exec_encOffset_of_lt hv s⟩
  obtain ⟨hbyte0, hbyte3⟩ := encodeOffset_bytes_lt hv
  exact ⟨_, encodeOffset v, exec_encOffset_of_le hv s, rfl, encodeOffset_bits_low hv, (encodeOffset_bits_clear hv).1,
    encodeOffset_bits_high hv, hbyte0, hbyte3, State.respond_frame s _⟩

/-- Settles O28. -/
theorem decOffsetRespondsValue : Obligations.DecOffsetRespondsValue := fun v s =>
  ⟨fun w => runCommand_of_decode (Laws.decode_encode (.decOffset w)) s, _, decodeOffset v, exec_decOffset v s, rfl,
    decodeOffset_toNat v, decodeOffset_lt v, offsetMax_lt_decodeOffset_iff v, State.respond_frame s _⟩

/-! ### Windows over a wire field (R106) -/

/-- Every byte of a window that is the Marker is at least 0x80 (R101). -/
theorem le_byte_of_marker_window {bs : List Byte} {k i : Nat} {b : Byte} (h : (bs.drop k).take 4 = markerBytes)
    (hki : k ≤ i) (hik : i < k + 4) (hb : bs[i]? = some b) : 0x80 ≤ b.toNat := by
  have hmarker : ∀ b ∈ markerBytes, 0x80 ≤ b.toNat := by decide
  refine hmarker b (h ▸ List.mem_of_getElem? (i := i - k) ?_)
  rw [List.getElem?_take_of_lt (by omega), List.getElem?_drop, Nat.add_sub_cancel' hki, hb]

/-- Settles O30: a window that shares a byte with the field holds the field's byte 0 or its byte 3, both too low for the
Marker. -/
theorem noWindowOverAnOffsetFieldIsMarker : Obligations.NoWindowOverAnOffsetFieldIsMarker := by
  intro d k before after hd hlast hfirst hmarker
  obtain ⟨b0, b1, b2, b3, hfield, hb0, hb3⟩ := offsetField_bytes d hd
  rw [hfield, List.append_assoc] at hmarker
  by_cases hk : k ≤ before.length
  · have : 0x80 ≤ b0.toNat := le_byte_of_marker_window hmarker (i := before.length) hk hfirst (by simp)
    omega
  · have : 0x80 ≤ b3.toNat := le_byte_of_marker_window hmarker (i := before.length + 3) (by omega) (by omega) (by simp)
    omega

end Sys2Proof.Machine
end

section
/-! SUPPORT. The statements of file 41 (marker scanner): the scanner's commands and what they leave alone,
`scanForMarker` on lists, and SCAN_RANGE. -/

namespace Sys2Proof.Machine

/-! ### What scanner commands leave alone (R128) -/

/-- All but the scanner's registers and the responses is unchanged. -/
abbrev State.sameOutsideScanner (s t : State) : Prop :=
  s.sameDecoder t ∧ t.frames = s.frames ∧ s.sameBytes t .dst ∧ s.sameBytes t .enc ∧ s.sameSurroundings t

theorem State.sameOutsideScanner.refl (s : State) : s.sameOutsideScanner s := by
  simp [sameOutsideScanner, sameDecoder, sameBytes, sameSurroundings]

theorem State.sameOutsideScanner.trans {s t u : State} (hst : s.sameOutsideScanner t) (htu : t.sameOutsideScanner u) :
    s.sameOutsideScanner u := by
  simp_all [sameOutsideScanner, sameDecoder, sameBytes, sameSurroundings]

/-- Every scanner command completes: it moves the scanner and responds. -/
theorem exec_scannerCommand {i : Instr} (hi : isScannerCommand i = true) (s : State) :
    ∃ w p r, exec i s = .next (((s.setScnW w).setScnP p).respond r) := by
  cases i with
  | scanSetw v => exact ⟨v, s.scnP, _, rfl⟩
  | scanGetw => exact ⟨s.scnW, s.scnP, _, rfl⟩
  | scanStart => exact ⟨s.scnW, 0, _, rfl⟩
  | scanByte b => exact ⟨_, _, _, rfl⟩
  | _ => simp [isScannerCommand] at hi

/-- So it leaves the decoder, the events, both memories and the surroundings alone. -/
theorem exec_scannerCommand_frame {i : Instr} {s t : State} (hi : isScannerCommand i = true) (h : exec i s = .next t) :
    s.sameOutsideScanner t := by
  obtain ⟨w, p, r, hexec⟩ := exec_scannerCommand hi s
  cases hexec.symm.trans h
  simp [State.sameOutsideScanner, State.sameDecoder, State.sameBytes, State.sameSurroundings]

/-- No scanner command reads or writes DEC.W. -/
theorem exec_scannerCommand_setDecW {i : Instr} (hi : isScannerCommand i = true) (s : State) (w : Word) :
    exec i (s.setDecW w) = afterwards (·.setDecW w) (exec i s) := by
  cases i with
  | scanSetw | scanGetw | scanStart | scanByte => rfl
  | _ => simp [isScannerCommand] at hi

/-- No other command reads or writes the scanner's registers. -/
theorem exec_setScanner {i : Instr} (hi : isScannerCommand i = false) (s : State) (w p : Word) :
    exec i ((s.setScnW w).setScnP p) = afterwards (fun t => (t.setScnW w).setScnP p) (exec i s) :=
  exec_ignored (ignored_setScanner w p) (fun _ => rfl) hi s

/-- Running with the scanner's own values put in place is running, so the outcome holds them. -/
theorem exec_sameScanner {i : Instr} {s t : State} (hi : isScannerCommand i = false) (h : exec i s = .next t) :
    s.sameScanner t := by
  have hput : exec i s = afterwards (fun t => (t.setScnW s.scnW).setScnP s.scnP) (exec i s) :=
    exec_setScanner hi s s.scnW s.scnP
  rw [h] at hput
  have ht : t = (t.setScnW s.scnW).setScnP s.scnP := Host.Outcome.next.inj hput
  rw [ht]
  exact ⟨rfl, rfl⟩

/-- Settles O23. -/
theorem windowsAreIndependent : Obligations.WindowsAreIndependent := by
  refine fun i s => ⟨fun hi => ⟨fun t h => exec_sameScanner hi h, exec_setScanner hi s⟩,
    fun hi => ⟨fun t h => ?_, exec_scannerCommand_setDecW hi s⟩⟩
  obtain ⟨hdec, -, -, henc, -⟩ := exec_scannerCommand_frame hi h
  exact ⟨hdec, henc⟩

/-! ### The words of forms Z and B8 (R72, R76) -/

/-- A word decodes as its two fields do. -/
theorem decode_fields (op : Byte) (arg : Word) : decode (op ++ arg) = decodeFields op arg := by
  rw [decode, Laws.opcodeOf_fields, Laws.argOf_fields]

/-- An opcode read in form Z runs its command on an operand of zero. -/
theorem runsZ_of_readZ {op : Byte} {i : Instr} (h : ∀ arg, decodeFields op arg = readZ i arg) (s : State) :
    runsZ op i s := by
  intro arg
  have hd : decode (op ++ arg) = readZ i arg := (decode_fields op arg).trans (h arg)
  rw [readZ] at hd
  split at hd
  · rw [if_pos ‹_›, runCommand_of_decode hd]
  · rw [if_neg ‹_›, runCommand_of_not_decode hd]

/-- The bits form B8 reserves are clear exactly when the operand is a byte. -/
theorem arg_high_eq_zero_iff (arg : Word) : arg.extractLsb' 8 24 = 0 ↔ arg.toNat < 256 := by
  have := arg.isLt
  rw [← BitVec.toNat_inj, BitVec.extractLsb'_toNat, Nat.shiftRight_eq_div_pow,
    show (0 : BitVec 24).toNat = 0 from rfl]
  omega

/-- An opcode read in form B8 runs its command on the operand's byte when no reserved bit is set. -/
theorem runsB8_of_readB8 {op : Byte} {mk : Byte → Instr} (h : ∀ arg, decodeFields op arg = readB8 mk arg)
    (s : State) : runsB8 op mk s := by
  intro arg
  have hd : decode (op ++ arg) = readB8 mk arg := (decode_fields op arg).trans (h arg)
  simp only [readB8, arg_high_eq_zero_iff] at hd
  split at hd
  · rw [if_pos ‹_›, runCommand_of_decode hd]
  · rw [if_neg ‹_›, runCommand_of_not_decode hd]

/-! ### The commands (R121 to R124) -/

/-- Settles O31. -/
theorem scannerRegisterCommands : Obligations.ScannerRegisterCommands := fun s v =>
  ⟨fun w => runCommand_of_decode (Laws.decode_encode (.scanSetw w)) s, runsZ_of_readZ (fun _ => rfl) s,
    runsZ_of_readZ (fun _ => rfl) s,
    ⟨_, rfl, rfl, rfl, rfl, exec_scannerCommand_frame (i := .scanSetw v) rfl rfl⟩,
    ⟨_, rfl, ⟨rfl, rfl⟩, rfl, exec_scannerCommand_frame (i := .scanGetw) rfl rfl⟩,
    ⟨_, rfl, rfl, rfl, rfl, exec_scannerCommand_frame (i := .scanStart) rfl rfl⟩⟩

/-- SCAN_BYTE moves the scanner by the byte and reports where it then stands (R124). -/
theorem exec_scanByte (b : Byte) (s : State) :
    exec (.scanByte b) s =
      .next ((s.scanStep b).respond (accepted (foundFlag (shiftWindow s.scnW b)) (s.scnP + 1))) := rfl

/-- The found flag says that the window equals the Marker. -/
theorem foundFlag_iff (w : Word) : foundFlag w = true ↔ w = markerWord := decide_eq_true_iff

/-- The moved window is the new byte above the old one's bits 31:8 (R13). -/
theorem shiftWindow_eq_append (w : Word) (b : Byte) : shiftWindow w b = b ++ w.extractLsb' 8 24 := by
  have hw := w.isLt
  apply BitVec.eq_of_toNat_eq
  have hlow : (w.extractLsb' 8 24).toNat = w.toNat / 2 ^ 8 := by
    rw [BitVec.extractLsb'_toNat, Nat.shiftRight_eq_div_pow]
    omega
  rw [shiftWindow_toNat, BitVec.toNat_append, hlow, ← Nat.shiftLeft_add_eq_or_of_lt (by omega), Nat.shiftLeft_eq,
    Nat.add_comm]

/-- Settles O32. -/
theorem scanByteMovesWindow : Obligations.ScanByteMovesWindow := by
  refine fun s b => ⟨runsB8_of_readB8 (fun _ => rfl) s, _, exec_scanByte b s, ?_, ?_, BitVec.toNat_add ..,
    ⟨_, rfl, foundFlag_iff _⟩, exec_scannerCommand_frame rfl (exec_scanByte b s)⟩
  · exact (congrArg _ (shiftWindow_eq_append s.scnW b)).trans BitVec.extractLsb'_append_eq_right
  · exact (congrArg _ (shiftWindow_eq_append s.scnW b)).trans BitVec.extractLsb'_append_eq_left

/-! ### scanForMarker (R120) -/

/-- A scan that has already counted `i` bytes reports a position `i` further. -/
theorem scanFrom_eq (i : Nat) (bs : List Byte) (w : Word) :
    scanFrom i bs w = ((scanForMarker bs w).1, i + (scanForMarker bs w).2.1, (scanForMarker bs w).2.2) := by
  induction bs generalizing i w with
  | nil => rfl
  | cons b bs ih =>
    simp only [scanForMarker, scanFrom]
    split
    · simp
    · rw [ih (i + 1), ih (0 + 1)]
      simp [Nat.add_assoc]

/-- The empty scan finds nothing. -/
theorem scanForMarker_nil (w : Word) : scanForMarker [] w = (false, 0, w) := rfl

/-- A byte that completes the Marker ends the scan. -/
theorem scanForMarker_cons_of_eq {b : Byte} {w : Word} (h : shiftWindow w b = markerWord) (bs : List Byte) :
    scanForMarker (b :: bs) w = (true, 1, markerWord) := by
  simp [scanForMarker, scanFrom, h]

/-- After any other byte the scan goes on from the moved window. -/
theorem scanForMarker_cons_of_ne {b : Byte} {w : Word} (h : shiftWindow w b ≠ markerWord) (bs : List Byte) :
    scanForMarker (b :: bs) w = ((scanForMarker bs (shiftWindow w b)).1, (scanForMarker bs (shiftWindow w b)).2.1 + 1,
      (scanForMarker bs (shiftWindow w b)).2.2) := by
  rw [scanForMarker, scanFrom, if_neg h, scanFrom_eq, Nat.zero_add, Nat.add_comm]

/-- A scan past bytes that complete no Marker goes on from the window they leave (R125). -/
theorem scanForMarker_append {xs : List Byte} {w : Word} (h : (scanForMarker xs w).1 = false) (ys : List Byte) :
    scanForMarker (xs ++ ys) w =
      ((scanForMarker ys (scanForMarker xs w).2.2).1, xs.length + (scanForMarker ys (scanForMarker xs w).2.2).2.1,
        (scanForMarker ys (scanForMarker xs w).2.2).2.2) := by
  induction xs generalizing w with
  | nil => simp [scanForMarker_nil]
  | cons b xs ih =>
    by_cases hb : shiftWindow w b = markerWord
    · rw [scanForMarker_cons_of_eq hb] at h
      cases h
    · rw [scanForMarker_cons_of_ne hb] at h ⊢
      rw [List.cons_append, scanForMarker_cons_of_ne hb, ih h, List.length_cons]
      simp only [Prod.mk.injEq, true_and, and_true]
      omega

/-- Settles O33. -/
theorem scanIsSplitIndependent : Obligations.ScanIsSplitIndependent := by
  intro xs ys w w1 k h
  have happend := scanForMarker_append (by rw [h]) ys
  rw [h] at happend
  rw [happend]
  exact ⟨rfl, rfl, rfl⟩

/-- `ScanOutcome bs w o`: the scan of `bs` from `w` can answer `o`. It stops at the first byte after which the window
equals the Marker, or consumes all of `bs`. -/
inductive ScanOutcome (bs : List Byte) (w : Word) : Bool × Nat × Word → Prop
  | found {p : Nat} (hp : p < bs.length) (hmarker : (bs.take (p + 1)).foldl shiftWindow w = markerWord)
      (hfirst : ∀ q < p, (bs.take (q + 1)).foldl shiftWindow w ≠ markerWord) :
      ScanOutcome bs w (true, p + 1, markerWord)
  | notFound (hnone : ∀ q < bs.length, (bs.take (q + 1)).foldl shiftWindow w ≠ markerWord) :
      ScanOutcome bs w (false, bs.length, bs.foldl shiftWindow w)

/-- No byte of `b :: bs` completes the Marker when `b` does not and no later byte does. -/
theorem windows_cons_ne_marker {b : Byte} {bs : List Byte} {w : Word} {n : Nat} (hb : shiftWindow w b ≠ markerWord)
    (h : ∀ q < n, (bs.take (q + 1)).foldl shiftWindow (shiftWindow w b) ≠ markerWord) :
    ∀ q < n + 1, ((b :: bs).take (q + 1)).foldl shiftWindow w ≠ markerWord
  | 0, _ => by simpa using hb
  | q + 1, hq => h q (Nat.lt_of_succ_lt_succ hq)

/-- Every scan has its outcome. -/
theorem scanForMarker_outcome (bs : List Byte) (w : Word) : ScanOutcome bs w (scanForMarker bs w) := by
  induction bs generalizing w with
  | nil => exact .notFound nofun
  | cons b bs ih =>
    by_cases hb : shiftWindow w b = markerWord
    · rw [scanForMarker_cons_of_eq hb]
      exact .found (p := 0) (by simp) (by simpa using hb) nofun
    · rw [scanForMarker_cons_of_ne hb]
      generalize ho : scanForMarker bs (shiftWindow w b) = o
      cases ho ▸ ih (shiftWindow w b) with
      | @found p hp hmarker hfirst =>
        exact .found (p := p + 1) (Nat.succ_lt_succ hp) hmarker (windows_cons_ne_marker hb hfirst)
      | notFound hnone =>
        exact .notFound (windows_cons_ne_marker hb hnone)

/-- Settles O34: from a clear window a window that equals the Marker is an occurrence of it. -/
theorem scanFindsFirstOccurrence : Obligations.ScanFindsFirstOccurrence := by
  intro bs
  generalize ho : scanForMarker bs 0 = o
  cases ho ▸ scanForMarker_outcome bs 0 with
  | @found p hp hmarker hfirst =>
    refine ⟨fun _ => ?_, nofun⟩
    have hfour : 4 ≤ p + 1 := by
      obtain ⟨hlen, -⟩ := (foldl_shiftWindow_eq_marker _).1 hmarker
      exact hlen.trans (List.length_take_le ..)
    refine ⟨hfour, hp, (occurrence_iff_window bs _).2 ?_, fun k (hk : k + 4 < p + 1) hocc => ?_⟩
    · rw [Nat.sub_add_cancel hfour]
      exact ⟨hp, hmarker⟩
    · obtain ⟨-, hwindow⟩ := (occurrence_iff_window bs k).1 hocc
      exact hfirst (k + 3) (by omega) hwindow
  | notFound hnone =>
    refine ⟨nofun, fun _ => ⟨rfl, fun k hocc => ?_⟩⟩
    obtain ⟨hk, hwindow⟩ := (occurrence_iff_window bs k).1 hocc
    exact hnone (k + 3) hk hwindow

/-! ### SCAN_RANGE (R126) -/

@[simp] theorem State.lastFlag_respond (s : State) (r : Response) : (s.respond r).lastFlag = r.flag := by
  simp [lastFlag]

/-- `Scanned s o t`: from `s` to `t` the scanner did what a scan with the outcome `o` says, its position counted on from
`s`, and nothing else but the responses changed. -/
structure Scanned (s : State) (o : Bool × Nat × Word) (t : State) : Prop where
  window : t.scnW = o.2.2
  position : t.scnP.toNat = s.scnP.toNat + o.2.1
  flag : t.lastFlag = o.1
  rest : s.sameOutsideScanner t

/-- One SCAN_BYTE, when the position does not wrap. -/
theorem exec_scanByte_of_lt {s : State} (hroom : s.scnP.toNat + 1 < 2 ^ 32) (b : Byte) :
    ∃ u, exec (.scanByte b) s = .next u ∧ u.scnW = shiftWindow s.scnW b ∧ u.scnP.toNat = s.scnP.toNat + 1 ∧
      u.lastFlag = foundFlag (shiftWindow s.scnW b) ∧ s.sameOutsideScanner u :=
  ⟨_, exec_scanByte b s, rfl, BitVec.toNat_add_of_lt hroom, State.lastFlag_respond ..,
    exec_scannerCommand_frame rfl (exec_scanByte b s)⟩

/-- The SCAN_BYTEs of a list scan it, when the position does not wrap and the last flag before them is clear. -/
theorem scanBytes_scanned {bs : List Byte} {s : State} (hroom : s.scnP.toNat + bs.length < 2 ^ 32)
    (hflag : s.lastFlag = false) : ∃ t, scanBytes bs s = .next t ∧ Scanned s (scanForMarker bs s.scnW) t := by
  induction bs generalizing s with
  | nil => exact ⟨s, rfl, rfl, rfl, hflag, .refl s⟩
  | cons b bs ih =>
    simp only [List.length_cons] at hroom
    obtain ⟨u, hu, hwin, hcount, hfound, hrest⟩ := exec_scanByte_of_lt (s := s) (by omega) b
    rw [scanBytes, hu, andThen_next]
    by_cases hb : shiftWindow s.scnW b = markerWord
    · have hstop : u.lastFlag = true := hfound.trans ((foundFlag_iff _).2 hb)
      rw [if_pos hstop, scanForMarker_cons_of_eq hb]
      exact ⟨u, rfl, hwin.trans hb, hcount, hstop, hrest⟩
    · have hgo : u.lastFlag = false := by rw [hfound, Bool.eq_false_iff, ne_eq, foundFlag_iff]; exact hb
      obtain ⟨t, ht, hscan⟩ := ih (by omega) hgo
      rw [hwin] at hscan
      rw [hgo, if_neg Bool.false_ne_true, scanForMarker_cons_of_ne hb]
      have hpos := hscan.position
      rw [hcount, Nat.add_right_comm] at hpos
      exact ⟨t, ht, hscan.window, hpos, hscan.flag, hrest.trans hscan.rest⟩

/-- Settles O35: SCAN_START clears the position and the last flag, so the SCAN_BYTEs count from 0. -/
theorem scanRangeComputesScanForMarker : Obligations.ScanRangeComputesScanForMarker := by
  intro bs s hlen
  obtain ⟨t, ht, hwin, hpos, hflag, hrest⟩ :=
    scanBytes_scanned (s := (s.setScnP 0).respond (accepted false 0)) (by simpa using hlen) (State.lastFlag_respond ..)
  have hstart : s.sameOutsideScanner ((s.setScnP 0).respond (accepted false 0)) :=
    exec_scannerCommand_frame (i := .scanStart) rfl rfl
  obtain ⟨hdec, hframes, hdst, henc, -⟩ := hstart.trans hrest
  refine ⟨t, ht, hwin, by simpa using hpos, ?_, hdec, hframes, hdst, henc⟩
  split
  · subst bs; rfl
  · exact hflag

end Sys2Proof.Machine
end

section
/-! SUPPORT. The statements of file 42 (frame encoder): what ENC_FRAME leaves and when it is refused, what stands where
in an encoded frame, and why its foot is its only Marker. -/

namespace Sys2Proof.Machine

/-! ### ENC_FRAME (R141, R142, R144) -/

/-- ENC has at most `2 ^ 31` bytes (R8), so the length of a frame that fits is a 32-bit number. -/
theorem encodedLength_toNat {s : State} (hwf : s.params.wellFormed = true) {len : Word}
    (hfit : len.toNat + 8 ≤ s.params.encSize) : (len + 8).toNat = len.toNat + 8 := by
  simp only [Params.wellFormed, Params.encSizeLegal, Bool.and_eq_true, decide_eq_true_eq] at hwf
  obtain ⟨⟨-, -, hmax⟩, -⟩ := hwf
  exact BitVec.toNat_add_of_lt (show len.toNat + 8 < 2 ^ 32 by omega)

/-- New contents of ENC leave all but ENC unchanged. -/
theorem State.setMem_enc_frame (s : State) (m : Memory) :
    s.sameScanner (s.setMem .enc m) ∧ s.sameDecoder (s.setMem .enc m) ∧ (s.setMem .enc m).frames = s.frames ∧
      s.sameBytes (s.setMem .enc m) .dst ∧ s.sameSurroundings (s.setMem .enc m) := by
  simp [State.sameScanner, State.sameDecoder, State.sameBytes, State.sameSurroundings, State.byteAt_setMem_other]

/-- Settles O46. -/
theorem encFrameWritesEncodedFrame : Obligations.EncFrameWritesEncodedFrame := by
  intro s len p hp hcan hpay
  obtain ⟨m, hrun, hframe, habove⟩ := exec_encFrame_of_canEncode hp hcan hpay
  exact ⟨fun w => runCommand_of_decode (Laws.decode_encode (.encFrame w)) s, _, hrun,
    (State.bytesAt_congr fun _ _ => State.byteAt_respond ..).trans hframe, habove, rfl,
    fun hwf => encodedLength_toNat hwf (hp ▸ hcan.1), s.setMem_enc_frame m⟩

/-- Settles O47: ENC_FRAME is refused on a long distance and completes without one. -/
theorem encFrameRefusesOnlyLongDistances : Obligations.EncFrameRefusesOnlyLongDistances := by
  refine fun s len p hp hfit hpay => ⟨?_, chainDistances_le p⟩
  rcases execEncFrame_spec s len p hp hfit hpay with ⟨hlong, hrefused⟩ | ⟨hshort, m, hrun, -⟩
  · exact ⟨fun _ => hlong, fun _ => hrefused⟩
  · refine ⟨fun hrefused => ?_, fun ⟨d, hd, hlong⟩ => absurd (hshort d hd) (Nat.not_le.2 hlong)⟩
    cases hrun.symm.trans hrefused

/-! ### What stands where in an encoded frame (R140, R145) -/

/-- Threading leaves a byte that is part of no occurrence in its place. -/
theorem threadedPayload_getElem?_of_no_occurrence {p : List Byte} {k : Nat}
    (h : ∀ j, j ≤ k → k < j + 4 → (p.drop j).take 4 ≠ markerBytes) : (threadedPayload p)[k]? = p[k]? := by
  induction p using payload_induction generalizing k with
  | nil => rfl
  | marker rest ih =>
    have hk : 4 ≤ k := Nat.not_lt.1 fun hlt => h 0 k.zero_le (by omega) rfl
    rw [threadedPayload_marker, List.getElem?_append_right hk, List.getElem?_append_right hk]
    simp only [length_offsetField, show markerBytes.length = 4 from rfl]
    exact ih fun j hj hkj => h (j + 4) (by omega) (by omega)
  | byte b rest hb ih =>
    rw [threadedPayload_cons hb]
    cases k with
    | zero => rfl
    | succ k => exact ih fun j hj hkj => h (j + 1) (by omega) (by omega)

/-- The foot of an encoded frame is the Marker. -/
theorem encodedFrame_drop_foot (p : List Byte) : (encodedFrame p).drop (p.length + 4) = markerBytes :=
  List.drop_left' (by simp [Nat.add_comm])

/-- Behind the head stands the threaded payload. -/
theorem encodedFrame_getElem?_payload {p : List Byte} {k : Nat} (hk : k < p.length) :
    (encodedFrame p)[k + 4]? = (threadedPayload p)[k]? := by
  rw [encodedFrame, List.append_assoc, List.getElem?_append_right (by simp),
    List.getElem?_append_left (by simpa using hk)]
  simp

/-- Settles O49. -/
theorem encodedFrameShape : Obligations.EncodedFrameShape := fun p =>
  ⟨length_encodedFrame p, rfl, encodedFrame_drop_foot p, fun _ hk hfree =>
    (encodedFrame_getElem?_payload hk).trans (threadedPayload_getElem?_of_no_occurrence hfree)⟩

/-! ### The only Marker of an encoded frame (R147) -/

/-- An occurrence that starts before a Marker lies before it: the Marker does not overlap itself (R102). -/
theorem occurrence_before_marker {bs : List Byte} {k : Nat} (hk : k < bs.length)
    (h : ((bs ++ markerBytes).drop k).take 4 = markerBytes) : (bs.drop k).take 4 = markerBytes := by
  rw [List.drop_append_of_le_length hk.le] at h
  match hs : bs.drop k with
  | [] => exact absurd hk (Nat.not_lt.2 (List.drop_eq_nil_iff.1 hs))
  | [_] | [_, _] | [_, _, _] => simp [hs, markerBytes] at h
  | _ :: _ :: _ :: _ :: _ => simpa [hs] using h

/-- A window that ends inside the first part of a list is a window of that part. -/
theorem take_drop_append_of_le {k n : Nat} {xs : List Byte} (h : k + n ≤ xs.length) (ys : List Byte) :
    ((xs ++ ys).drop k).take n = (xs.drop k).take n := by
  rw [List.drop_append_of_le_length (by omega), List.take_append_of_le_length (by rw [List.length_drop]; omega)]

/-- The threaded payload with its foot holds one Marker, the foot. `before` is the part since the last occurrence that
is already passed; the windows over it, over the next field and over the foot are the three cases of R147. -/
theorem occurrence_in_threaded_eq_foot (p : List Byte) {before : List Byte} {k : Nat}
    (hfit : ∀ d ∈ linkDistances p, d ≤ offsetMax)
    (hfree : ∀ j < before.length, ((before ++ p).drop j).take 4 ≠ markerBytes)
    (h : ((before ++ (threadedPayload p ++ markerBytes)).drop k).take 4 = markerBytes) :
    k = before.length + p.length := by
  induction p using payload_induction generalizing before k with
  | nil =>
    simp only [threadedPayload, List.nil_append, List.append_nil] at h hfree
    have hle : k ≤ before.length := by simpa [markerBytes] using ((occurrence_iff_window _ k).1 h).1
    have hge : before.length ≤ k := Nat.not_lt.1 fun hk => hfree k hk (occurrence_before_marker hk h)
    exact Nat.le_antisymm hle hge
  | marker rest ih =>
    rw [linkDistances_marker, List.forall_mem_cons] at hfit
    obtain ⟨hdist, hfit⟩ := hfit
    rw [threadedPayload_marker, List.append_assoc] at h
    by_cases hin : k + 4 ≤ before.length
    · rw [take_drop_append_of_le hin, ← take_drop_append_of_le hin (markerBytes ++ rest)] at h
      exact absurd h (hfree k (by omega))
    rw [← List.append_assoc] at h
    by_cases hover : k < before.length + 4
    · exact absurd h (noWindowOverAnOffsetFieldIsMarker _ k before _ hdist hover (by omega))
    · obtain ⟨j, rfl⟩ : ∃ j, k = (before ++ offsetField (distanceToNext rest)).length + j :=
        ⟨k - (before.length + 4), by simp; omega⟩
      rw [List.drop_length_add_append] at h
      have hj : j = rest.length := by simpa using ih (before := []) hfit nofun h
      simp only [hj, List.length_append, length_offsetField, show markerBytes.length = 4 from rfl]
      omega
  | byte b rest hb ih =>
    have hb' : (b :: rest).take 4 ≠ markerBytes := by rwa [ne_eq, ← startsWithMarker_iff, Bool.not_eq_true]
    have hk := ih (before := before ++ [b]) (k := k) (by rwa [linkDistances_cons hb] at hfit) (fun j hj => ?_)
      (by simpa [threadedPayload_cons hb] using h)
    · simp only [hk, List.length_append, List.length_cons, List.length_nil]
      omega
    · rw [List.append_assoc, List.singleton_append]
      rcases Nat.lt_succ_iff_lt_or_eq.1 (by simpa using hj) with hlt | rfl
      · exact hfree j hlt
      · rwa [List.drop_left]

/-- Settles O50: an encoded frame is what threading makes of a Marker with the payload behind it, and its foot; its head
is one more link. -/
theorem encodedFrameHasOneMarker : Obligations.EncodedFrameHasOneMarker := by
  refine fun p k hfit => ⟨fun h => ?_, fun hk => ?_⟩
  · rw [encodedFrame, ← threadedPayload_marker] at h
    have hfoot := occurrence_in_threaded_eq_foot (markerBytes ++ p) (before := [])
      (by rwa [linkDistances_marker]) nofun h
    simpa [markerBytes] using hfoot
  · rw [hk, encodedFrame_drop_foot]
    rfl

end Sys2Proof.Machine
end

section
/-! SUPPORT. The statements of file 43 (frame decoder) about single commands: DEC_INIT, the status commands, and each
of DEC_INGEST's transitions. -/

namespace Sys2Proof.Machine

/-! ### DEC_INIT, DEC_STATUS and DEC_LAST -/

/-- DEC_INIT inside `[8, DST_SIZE]` starts the decoder afresh (R161). -/
theorem exec_decInit_of_accepted {s : State} {cap : Word} (hmin : 8 ≤ cap.toNat) (hmax : cap.toNat ≤ s.params.dstSize) :
    exec (.decInit cap) s = .next ((s.decoderInit cap).respond (accepted false 0)) := by
  have hin : ¬ decInitRejected s cap = true := by simp [decInitRejected]; omega
  exact if_neg hin

/-- Outside it is rejected (R75). -/
theorem exec_decInit_of_rejected {s : State} {cap : Word} (h : cap.toNat < 8 ∨ s.params.dstSize < cap.toNat) :
    exec (.decInit cap) s = .next s.reject := by
  have hout : decInitRejected s cap = true := by simpa [decInitRejected] using h
  exact if_pos hout

/-- Settles O36. -/
theorem decInitStartsDecoder : Obligations.DecInitStartsDecoder := by
  refine fun s cap => ⟨fun w => runCommand_of_decode (Laws.decode_encode (.decInit w)) s, exec_decInit_of_rejected,
    fun hmin hmax => ⟨_, exec_decInit_of_accepted hmin hmax, rfl, rfl, rfl, rfl, rfl, rfl, ?_⟩⟩
  simp [State.sameScanner, State.sameBytes, State.sameSurroundings]

/-- The value a status is reported as is its code (R26, R178, R179). -/
theorem Status.value_toNat (st : Status) : st.value.toNat = st.code.toNat := by cases st <;> rfl

/-- Between commands the live status reads 0 or 1 (R31). -/
theorem State.statusOk.value_le {s : State} (h : s.statusOk) : s.decStatus.value.toNat ≤ 1 := by
  obtain ⟨hst | hst, -⟩ := h
  · simp [hst, Status.value_toNat, Status.code]
  · simp [hst, Status.value_toNat, Status.code]

/-- Settles O37. -/
theorem statusCommandsReturnCodes : Obligations.StatusCommandsReturnCodes := by
  refine fun s => ⟨runsZ_of_readZ (fun _ => rfl) s, runsZ_of_readZ (fun _ => rfl) s,
    ⟨_, s.decStatus.value, rfl, rfl, ?_, State.statusOk.value_le, s.respond_frame _⟩,
    ⟨_, s.decLast.value, rfl, rfl, ?_, s.respond_frame _⟩⟩
  · cases s.decStatus <;> rfl
  · cases s.decLast <;> rfl

/-! ### DEC_INGEST, whatever the byte -/

/-- DEC_INGEST leaves DEC.CAP, the scanner, ENC and the surroundings alone. -/
theorem execDecIngest_frame {b : Byte} {s t : State} (h : execDecIngest b s = .next t) :
    t.decCap = s.decCap ∧ s.sameScanner t ∧ s.sameBytes t .enc ∧ s.sameSurroundings t := by
  obtain ⟨m, st, cur, w, last, fs, flag, value, rfl, -⟩ := execDecIngest_effect h
  exact ⟨rfl, ⟨rfl, rfl⟩, fun _ => rfl, rfl, rfl, rfl, rfl, rfl⟩

/-- In a state that meets the invariant DEC_INGEST completes, in another such state. -/
theorem execDecIngest_completes {s : State} (hinv : s.Inv) (b : Byte) : ∃ t, execDecIngest b s = .next t ∧ t.Inv := by
  match h : execDecIngest b s with
  | .next t => exact ⟨t, rfl, execDecIngest_inv hinv h⟩
  | .fault f => exact absurd h (execDecIngest_ne_fault hinv)
  | .refused r => exact absurd h execDecIngest_ne_refused

/-! ### DEC_INGEST of a byte that completes no Marker (R164 to R166)

`execDecIngest_of_room` is the first of three cases; these are the other two. -/

/-- With no error and no room the frame overruns (R166). -/
theorem execDecIngest_of_full {s : State} {b : Byte} (hm : shiftWindow s.decW b ≠ markerWord)
    (hst : s.decStatus = .parsing) (hfull : ¬ s.decCur < s.decCap) :
    execDecIngest b s =
      .next (((s.setDecW (shiftWindow s.decW b)).frameError .dstOverrun).respond (accepted false 0)) := by
  rw [execDecIngest, if_neg hm, accumulate, if_pos hst, if_neg hfull]

/-- In a frame that failed the byte only moves the window (R164). -/
theorem execDecIngest_of_failed {s : State} {b : Byte} (hm : shiftWindow s.decW b ≠ markerWord)
    (hst : s.decStatus ≠ .parsing) :
    execDecIngest b s = .next ((s.setDecW (shiftWindow s.decW b)).respond (accepted false 0)) := by
  rw [execDecIngest, if_neg hm, accumulate, if_neg hst]

/-- In each case the window moves, the answer is `(0, 0, 0)`, and neither DEC.LAST nor FRAMES changes. -/
theorem execDecIngest_of_no_marker {s t : State} {b : Byte} (hm : shiftWindow s.decW b ≠ markerWord)
    (h : execDecIngest b s = .next t) :
    t.decW = shiftWindow s.decW b ∧ t.responses = s.responses ++ [accepted false 0] ∧ t.decLast = s.decLast ∧
      t.frames = s.frames := by
  rw [execDecIngest, if_neg hm, accumulate] at h
  split at h
  · split at h
    · obtain ⟨s1, h1, h⟩ := andThen_eq_next.1 h
      obtain ⟨-, rfl⟩ := State.memWrite_eq_next.1 h1
      cases h
      simp
    · cases h; simp
  · cases h; simp

/-- Settles O38: what all cases share, then each case. -/
theorem ingestAccumulates : Obligations.IngestAccumulates := by
  intro s b hinv hm
  obtain ⟨-, -, ⟨-, hcap, -⟩, -⟩ := id hinv
  obtain ⟨t, ht, -⟩ := execDecIngest_completes hinv b
  obtain ⟨hw, hresp, hlast, hframes⟩ := execDecIngest_of_no_marker hm ht
  obtain ⟨hdecCap, hscan, henc, hsurr⟩ := execDecIngest_frame ht
  refine ⟨t, ht, hw, hresp, hdecCap, hlast, hframes, hscan, henc, hsurr, fun hst hlt => ?_, fun hst hfull => ?_,
    fun hov => ?_⟩
  · have hroom : s.decCur < s.decCap := hlt
    cases (execDecIngest_of_room hm hst hroom (by omega)).symm.trans ht
    exact ⟨by simpa using hst, toNat_succ_of_lt hroom, State.byteAt_write_at s .dst s.decCur.toNat 0 [b] (by simp),
      fun a ha => State.byteAt_write_outside s .dst s.decCur.toNat a [b] (by simp; omega)⟩
  · cases (execDecIngest_of_full hm hst (by simp [hfull])).symm.trans ht
    exact ⟨rfl, rfl, fun a => by simp⟩
  · cases (execDecIngest_of_failed hm (by simp [hov])).symm.trans ht
    exact ⟨hov, rfl, fun a => by simp⟩

/-! ### DEC_INGEST of a byte that completes a Marker (R167 to R175) -/

/-- A frame that failed is recorded and dropped (R168). -/
theorem execDecIngest_marker_of_failed {s : State} {b : Byte} (hm : shiftWindow s.decW b = markerWord)
    (hst : s.decStatus ≠ .parsing) :
    execDecIngest b s = .next ((s.setDecLast s.decStatus).endOfFrameReset.respond (accepted false 0)) := by
  rw [execDecIngest, if_pos hm, complete, retractMarker, if_neg hst, endOfFrame, if_pos hst, andThen_next]

/-- A Marker with nothing before it only resets (R168). -/
theorem execDecIngest_marker_of_empty {s : State} {b : Byte} (hm : shiftWindow s.decW b = markerWord)
    (hst : s.decStatus = .parsing) (hcur : s.decCur = 3) :
    execDecIngest b s = .next (s.endOfFrameReset.respond (accepted false 0)) := by
  rw [execDecIngest, if_pos hm, complete, retractMarker, if_pos hst, endOfFrame, if_neg (by simpa using hst),
    if_pos (by simp [hcur]), andThen_next]
  rfl

/-- `s` after the walk of its frame left `m` in DST and ended with `st`, and the decoder was reset (R172 to R174). -/
def State.frameEnded (s : State) (m : Memory) (st : Status) : State := ((s.setMem .dst m).setDecLast st).endOfFrameReset

/-- What a frame of `c` bytes emits after `e`, the state at its end, if its outcome is `st` (R175, R176). -/
def State.report (e : State) (c : Nat) (st : Status) : State :=
  if st = .parsing then
    (e.emitFrame ⟨BitVec.ofNat 32 (c - 4), e.bytesAt .dst 4 (c - 4)⟩).respond (accepted true (BitVec.ofNat 32 (c - 4)))
  else e.respond (accepted false 0)

/-- The cursor after a Marker's first three bytes are taken back (R167). -/
theorem toNat_sub_three {cur : Word} {c : Nat} (h : cur.toNat = c + 3) : (cur - 3).toNat = c := by
  have := cur.isLt
  rw [BitVec.toNat_sub, show (3 : Word).toNat = 3 from rfl]
  omega

/-- The walk of a frame leaves its chain's outcome in DEC.STATUS, and Marker bytes at its links (R169 to R172). -/
theorem walkFrame_of_chain {s : State} {c : Nat} {links : List Nat} {st : Status} (hst : s.decStatus = .parsing)
    (hfit : c ≤ s.params.dstSize) (h : Chain s.fieldAt c 0 links st) :
    ∃ m, walkFrame c s = .next ((s.setMem .dst m).setDecStatus st) ∧
      ∀ a, (s.setMem .dst m).byteAt .dst a = restoredByte links (s.byteAt .dst) a :=
  walk_chain hfit (by omega) hst (fun _ _ _ => rfl) h

/-- What follows the walk records its outcome and reports it (R173 to R176). -/
theorem finishFrame_report {s : State} {m : Memory} {st : Status} {c : Nat} (hc : st = .parsing → 4 ≤ c)
    (hfit : c ≤ s.params.dstSize) :
    (andThen (finishFrame c ((s.setMem .dst m).setDecStatus st)) fun e =>
      .next (e.state.endOfFrameReset.respond (accepted e.delivered e.len))) =
      .next ((s.frameEnded m st).report c st) := by
  rw [finishFrame, State.setDecStatus_decStatus, State.report]
  by_cases hst : st = .parsing
  · have h4 := hc hst
    have hpayload : (s.frameEnded m st).bytesAt .dst 4 (c - 4) =
        (((s.setMem .dst m).setDecStatus st).setDecLast st).bytesAt .dst 4 (c - 4) := State.bytesAt_congr fun _ _ => rfl
    rw [if_pos hst, if_pos hst, deliver, State.memRead_of_fits (by simp; omega), hpayload]
    rfl
  · rw [if_neg hst, if_neg hst]
    rfl

/-- Any other frame is walked, and ends as its chain does (R169 to R175). -/
theorem execDecIngest_marker_of_chain {s : State} {b : Byte} {c : Nat} {links : List Nat} {st : Status}
    (hm : shiftWindow s.decW b = markerWord) (hst : s.decStatus = .parsing) (hcur : s.decCur.toNat = c + 3)
    (hc : 1 ≤ c) (hfit : c ≤ s.params.dstSize) (h : Chain s.fieldAt c 0 links st) :
    ∃ m, execDecIngest b s = .next ((s.frameEnded m st).report c st) ∧
      ∀ a, (s.setMem .dst m).byteAt .dst a = restoredByte links (s.byteAt .dst) a := by
  have hback := toNat_sub_three hcur
  have hne : s.decCur - 3 ≠ 0 := fun h0 => by rw [h0, show (0 : Word).toNat = 0 from rfl] at hback; omega
  obtain ⟨m, hwalk, hbytes⟩ := walkFrame_of_chain (s := s.setDecCur (s.decCur - 3)) hst hfit h
  refine ⟨m, ?_, hbytes⟩
  rw [execDecIngest, if_pos hm, complete, retractMarker, if_pos hst, endOfFrame, if_neg (by simpa using hst),
    State.setDecCur_decCur, if_neg hne, hback, hwalk, andThen_next]
  refine finishFrame_report ?_ hfit
  rintro rfl
  exact h.four_le.resolve_left (by omega)

/-- With no error the bytes at a Marker's end are three more than the frame's (R167), and fit in DST. -/
theorem State.Inv.frame_fits {s : State} {c : Nat} (h : s.Inv) (hcur : s.decCur.toNat = c + 3) :
    c ≤ s.params.dstSize := by
  obtain ⟨-, -, ⟨-, hcap, hle⟩, -⟩ := h
  omega

/-- Settles O39. -/
theorem failedAndEmptyFramesAreSkipped : Obligations.FailedAndEmptyFramesAreSkipped := by
  intro s b hinv hm hskip
  obtain ⟨-, -, -, ⟨hst, -⟩, -⟩ := hinv
  by_cases hov : s.decStatus = .dstOverrun
  · have hrun := execDecIngest_marker_of_failed hm (by simp [hov])
    obtain ⟨hcap, hscan, henc, hsurr⟩ := execDecIngest_frame hrun
    exact ⟨_, hrun, ⟨rfl, rfl, rfl⟩, hcap, by simp [hov], rfl, rfl, hscan, fun a => by simp, henc, hsurr⟩
  · have hrun := execDecIngest_marker_of_empty hm (hst.resolve_right hov) (hskip.resolve_left hov)
    obtain ⟨hcap, hscan, henc, hsurr⟩ := execDecIngest_frame hrun
    exact ⟨_, hrun, ⟨rfl, rfl, rfl⟩, hcap, by simp [hov], rfl, rfl, hscan, fun a => by simp, henc, hsurr⟩

/-! ### The state at a frame's end -/

section
variable (s : State) (m : Memory) (st : Status) (c : Nat)

@[simp] theorem State.report_decStatus : (s.report c st).decStatus = s.decStatus := by rw [report]; split <;> rfl
@[simp] theorem State.report_decCur : (s.report c st).decCur = s.decCur := by rw [report]; split <;> rfl
@[simp] theorem State.report_decW : (s.report c st).decW = s.decW := by rw [report]; split <;> rfl
@[simp] theorem State.report_decLast : (s.report c st).decLast = s.decLast := by rw [report]; split <;> rfl
@[simp] theorem State.byteAt_report (x : MemId) (a : Nat) : (s.report c st).byteAt x a = s.byteAt x a := by
  rw [report]; split <;> simp

@[simp] theorem State.frameEnded_decStatus : (s.frameEnded m st).decStatus = .parsing := rfl
@[simp] theorem State.frameEnded_decCur : (s.frameEnded m st).decCur = 0 := rfl
@[simp] theorem State.frameEnded_decW : (s.frameEnded m st).decW = 0 := rfl
@[simp] theorem State.frameEnded_decLast : (s.frameEnded m st).decLast = st := rfl
@[simp] theorem State.frameEnded_frames : (s.frameEnded m st).frames = s.frames := rfl
@[simp] theorem State.frameEnded_responses : (s.frameEnded m st).responses = s.responses := rfl
@[simp] theorem State.byteAt_frameEnded (x : MemId) (a : Nat) :
    (s.frameEnded m st).byteAt x a = (s.setMem .dst m).byteAt x a := by simp [frameEnded]

/-- A frame whose chain closed is emitted and reported. -/
theorem State.report_of_closed :
    (s.report c .parsing).frames = s.frames ++ [⟨BitVec.ofNat 32 (c - 4), s.bytesAt .dst 4 (c - 4)⟩] ∧
      (s.report c .parsing).responses = s.responses ++ [accepted true (BitVec.ofNat 32 (c - 4))] := ⟨rfl, rfl⟩

/-- Any other is not. -/
theorem State.report_of_not_closed (h : st ≠ .parsing) :
    (s.report c st).frames = s.frames ∧ (s.report c st).responses = s.responses ++ [accepted false 0] := by
  rw [report, if_neg h]
  exact ⟨rfl, rfl⟩

end

/-- Settles O40: the walk follows the chain, and the report is that of its outcome. -/
theorem completedFrameFollowsChain : Obligations.CompletedFrameFollowsChain := by
  refine fun s b c hinv hm hst hcur hc => ⟨Chain.exists_outcome .., fun links st hchain => ?_⟩
  obtain ⟨m, hrun, hbytes⟩ := execDecIngest_marker_of_chain hm hst hcur hc (hinv.frame_fits hcur) hchain
  obtain ⟨hcap, hscan, henc, hsurr⟩ := execDecIngest_frame hrun
  refine ⟨_, hrun, by simp [State.atFrameStart], hcap, by simp, fun a => by simpa using hbytes a, ?_,
    fun hbad => by simpa [accepted] using State.report_of_not_closed (s.frameEnded m st) st c hbad, hscan, henc, hsurr⟩
  rintro rfl
  obtain ⟨hframes, hresp⟩ := State.report_of_closed (s.frameEnded m .parsing) c
  refine ⟨?_, hchain.four_le.resolve_left (by omega), hresp⟩
  rw [hframes, State.bytesAt_congr fun _ _ => State.byteAt_report ..]
  rfl

/-! ### The flag, and the walk's bound -/

/-- Settles O41. -/
theorem ingestFlagReportsDelivery : Obligations.IngestFlagReportsDelivery := by
  refine ⟨fun s => runsB8_of_readB8 (fun _ => rfl) s, fun s t b h => ?_⟩
  have hquiet := fun hm => (execDecIngest_of_no_marker (s := s) (b := b) hm h).2.1
  obtain ⟨m, st, cur, w, last, fs, flag, value, rfl, hfs, -⟩ := execDecIngest_effect h
  refine ⟨flag, value, rfl, ?_⟩
  rcases hfs with ⟨rfl, bs, -, rfl⟩ | ⟨rfl, rfl, rfl⟩
  · exact ⟨by simp, fun _ => ⟨bs, rfl⟩, nofun, fun hm => by simpa [accepted] using hquiet hm⟩
  · exact ⟨by simp, nofun, fun _ => rfl, fun _ => rfl⟩

/-- Settles O42: every iteration moves the walk on by at least four bytes. -/
theorem walkEndsInTime : Obligations.WalkEndsInTime := fun _ _ extra => walk_fuel extra (by omega)

end Sys2Proof.Machine
end

section
/-! SUPPORT. The statements of file 43 (frame decoder) about what decoding depends on (R182, R183): two decoders that
hold the same frame in progress give the same answers to the same bytes. -/

namespace Sys2Proof.Machine

/-! ### Runs of DEC_INGEST -/

/-- A chunk is ingested after the one before it (R162). -/
theorem ingestBytes_append_of_eq {xs : List Byte} {s t : State} (h : ingestBytes xs s = .next t) (ys : List Byte) :
    ingestBytes (xs ++ ys) s = ingestBytes ys t := by
  induction xs generalizing s with
  | nil => cases h; rfl
  | cons b xs ih =>
    obtain ⟨s1, h1, h⟩ := andThen_eq_next.1 h
    rw [List.cons_append, ingestBytes, h1, andThen_next, ih h]

/-- In a state that meets the invariant a chunk completes, in another such state with the same capacity. -/
theorem ingestBytes_completes {s : State} (hinv : s.Inv) (bs : List Byte) :
    ∃ t, ingestBytes bs s = .next t ∧ t.Inv ∧ t.decCap = s.decCap := by
  induction bs generalizing s with
  | nil => exact ⟨s, rfl, hinv, rfl⟩
  | cons b bs ih =>
    obtain ⟨s1, h1, hinv1⟩ := execDecIngest_completes hinv b
    obtain ⟨t, ht, hinvt, hcap⟩ := ih hinv1
    exact ⟨t, by rw [ingestBytes, exec, h1, andThen_next, ht], hinvt, hcap.trans (execDecIngest_frame h1).1⟩

/-- Bytes among which no Marker is completed move the window over all of them, and are each answered `(0, 0, 0)`. -/
theorem ingestBytes_of_no_marker {bs : List Byte} {s t : State}
    (hm : ∀ pre, pre <+: bs → pre ≠ [] → pre.foldl shiftWindow s.decW ≠ markerWord) (h : ingestBytes bs s = .next t) :
    t.decW = bs.foldl shiftWindow s.decW ∧
      t.responses = s.responses ++ List.replicate bs.length (accepted false 0) := by
  induction bs generalizing s with
  | nil => cases h; simp
  | cons b bs ih =>
    obtain ⟨s1, h1, h⟩ := andThen_eq_next.1 h
    obtain ⟨hw, hresp, -⟩ := execDecIngest_of_no_marker (hm [b] (by simp) (by simp)) h1
    obtain ⟨hwt, hrespt⟩ := ih (fun pre hpre _ => by
      rw [hw]; exact hm (b :: pre) (by simpa using hpre) (by simp)) h
    refine ⟨by rw [hwt, hw, List.foldl_cons], ?_⟩
    rw [hrespt, hresp, List.length_cons, List.replicate_succ, List.append_assoc, List.singleton_append]

/-- A byte that completes a Marker ends the frame, whatever it held (R174). -/
theorem execDecIngest_marker_atFrameStart {s t : State} {b : Byte} (hm : shiftWindow s.decW b = markerWord)
    (h : execDecIngest b s = .next t) : t.atFrameStart := by
  rw [execDecIngest, if_pos hm] at h
  obtain ⟨e, -, he⟩ := andThen_eq_next.1 h
  cases he
  exact ⟨rfl, rfl, rfl⟩

/-- After a Marker's bytes the window equals the Marker, whatever came before (R13). -/
theorem foldl_shiftWindow_marker (bs : List Byte) (w : Word) : (bs ++ markerBytes).foldl shiftWindow w = markerWord :=
  foldl_shiftWindow_four bs 0xDA 0xB8 0xFE 0xCA w

/-- Only `CA` completes a Marker, so the Marker's first three bytes complete none, whatever came before (R102). -/
theorem marker_head_completes_none (w : Word) (pre : List Byte) (h : pre <+: markerBytes.take 3) (hne : pre ≠ []) :
    pre.foldl shiftWindow w ≠ markerWord := by
  intro hm
  have hlast : pre.getLast hne ∈ markerBytes.take 3 := h.subset (List.getLast_mem hne)
  rw [← List.dropLast_append_getLast hne, List.foldl_append] at hm
  rw [(shiftWindow_eq_marker hm).1] at hlast
  exact absurd hlast (by decide)

/-- A Marker brings the decoder to the start of a frame from every state (R183). -/
theorem ingestBytes_marker {s : State} (hinv : s.Inv) :
    ∃ t, ingestBytes markerBytes s = .next t ∧ t.Inv ∧ t.decCap = s.decCap ∧ t.atFrameStart := by
  obtain ⟨s1, h1, hinv1, hcap1⟩ := ingestBytes_completes hinv (markerBytes.take 3)
  obtain ⟨t, ht, hinvt⟩ := execDecIngest_completes hinv1 0xCA
  have hwin : s1.decW = (markerBytes.take 3).foldl shiftWindow s.decW :=
    (ingestBytes_of_no_marker (marker_head_completes_none s.decW) h1).1
  have hm : shiftWindow s1.decW 0xCA = markerWord :=
    (congrArg (shiftWindow · 0xCA) hwin).trans (foldl_shiftWindow_marker [] s.decW)
  refine ⟨t, ?_, hinvt, (execDecIngest_frame ht).1.trans hcap1, execDecIngest_marker_atFrameStart hm ht⟩
  rw [show markerBytes = markerBytes.take 3 ++ [0xCA] from rfl, ingestBytes_append_of_eq h1, ingestBytes, exec, ht]
  rfl

/-- So do several, from the start of a frame. -/
theorem ingestBytes_markers {s : State} (hinv : s.Inv) (hstart : s.atFrameStart) (n : Nat) {t : State}
    (h : ingestBytes (List.replicate n markerBytes).flatten s = .next t) : t.atFrameStart := by
  induction n generalizing s with
  | zero => cases h; exact hstart
  | succ n ih =>
    obtain ⟨s1, h1, hinv1, -, hstart1⟩ := ingestBytes_marker hinv
    rw [List.replicate_succ, List.flatten_cons, ingestBytes_append_of_eq h1] at h
    exact ih hinv1 hstart1 h

/-! ### Two decoders that hold the same frame in progress -/

/-- `s` and `u` agree on the decoder's registers but DEC.LAST, and on the bytes accumulated. -/
structure State.Agrees (s u : State) : Prop where
  decStatus : u.decStatus = s.decStatus
  decCur : u.decCur = s.decCur
  decW : u.decW = s.decW
  decCap : u.decCap = s.decCap
  dst : s.decStatus = .parsing → ∀ a < s.decCur.toNat, u.byteAt .dst a = s.byteAt .dst a

/-- At the start of a frame decoders agree when their capacities do. -/
theorem State.agrees_of_atFrameStart {s u : State} (hs : s.atFrameStart) (hu : u.atFrameStart)
    (hcap : u.decCap = s.decCap) : s.Agrees u := by
  obtain ⟨hst, hcur, hw⟩ := hs
  obtain ⟨hst', hcur', hw'⟩ := hu
  exact ⟨hst'.trans hst.symm, hcur'.trans hcur.symm, hw'.trans hw.symm, hcap, fun _ a ha => by simp [hcur] at ha⟩

/-- In a frame that failed nothing is said of DST. -/
theorem State.agrees_of_overrun {s u : State} (hs : s.decStatus = .dstOverrun) (hu : u.decStatus = .dstOverrun)
    (hcur : u.decCur = s.decCur) (hw : u.decW = s.decW) (hcap : u.decCap = s.decCap) : s.Agrees u :=
  ⟨hu.trans hs.symm, hcur, hw, hcap, fun hst => absurd (hs.symm.trans hst) (by decide)⟩

/-- Decoders that agree read the same fields of the frame. -/
theorem State.Agrees.fieldAt {s u : State} (h : s.Agrees u) (hst : s.decStatus = .parsing) {k : Nat}
    (hk : k + 4 ≤ s.decCur.toNat) : u.fieldAt k = s.fieldAt k :=
  congrArg le32 (State.bytesAt_congr fun j hj => h.dst hst (k + j) (by omega))

/-- From `s` to `t` and from `u` to `v` the decoder gave the same events and the same responses, and agrees at the end,
on DEC.LAST too if it did before. -/
structure RunsAlike (s t u v : State) : Prop where
  agrees : t.Agrees v
  events : ∃ events, t.frames = s.frames ++ events ∧ v.frames = u.frames ++ events
  replies : ∃ replies, t.responses = s.responses ++ replies ∧ v.responses = u.responses ++ replies
  decLast : s.decLast = u.decLast → t.decLast = v.decLast

theorem RunsAlike.refl {s u : State} (h : s.Agrees u) : RunsAlike s s u u :=
  ⟨h, ⟨[], by simp⟩, ⟨[], by simp⟩, id⟩

theorem RunsAlike.trans {s t t' u v v' : State} (h : RunsAlike s t u v) (h' : RunsAlike t t' v v') :
    RunsAlike s t' u v' := by
  obtain ⟨-, ⟨es, ht, hv⟩, ⟨rs, htr, hvr⟩, hlast⟩ := h
  obtain ⟨hagree, ⟨es', ht', hv'⟩, ⟨rs', htr', hvr'⟩, hlast'⟩ := h'
  exact ⟨hagree, ⟨es ++ es', by simp [ht, ht'], by simp [hv, hv']⟩,
    ⟨rs ++ rs', by simp [htr, htr'], by simp [hvr, hvr']⟩, hlast' ∘ hlast⟩

/-! ### One byte -/

section
variable {s u : State} {b : Byte}

/-- A byte that completes no Marker goes to the same place in both. -/
theorem State.Agrees.ingest_of_no_marker (h : s.Agrees u) (hs : s.Inv) (hu : u.Inv)
    (hm : shiftWindow s.decW b ≠ markerWord) :
    ∃ t v, execDecIngest b s = .next t ∧ execDecIngest b u = .next v ∧ RunsAlike s t u v := by
  obtain ⟨hdecSt, hdecCur, hdecW, hdecCap, hdst⟩ := h
  obtain ⟨-, -, ⟨-, -, hle⟩, ⟨hst, -⟩, -⟩ := id hs
  obtain ⟨t, ht, htw, htr, htcap, htlast, htf, -, -, -, htroom, htfull, htover⟩ := ingestAccumulates s b hs hm
  obtain ⟨v, hv, hvw, hvr, hvcap, hvlast, hvf, -, -, -, hvroom, hvfull, hvover⟩ :=
    ingestAccumulates u b hu (by rwa [hdecW])
  rw [hdecSt, hdecCur, hdecCap] at hvroom
  rw [hdecSt, hdecCur, hdecCap] at hvfull
  rw [hdecSt, hdecCur] at hvover
  rw [hdecW, ← htw] at hvw
  rw [hdecCap, ← htcap] at hvcap
  refine ⟨t, v, ht, hv, ?_, ⟨[], by simp [htf], by simp [hvf]⟩, ⟨_, htr, hvr⟩, fun hl => by rw [htlast, hvlast, hl]⟩
  rcases hst with hst | hst
  · rcases Nat.lt_or_eq_of_le hle with hroom | hfull
    · obtain ⟨htst, htcur, htb, hta⟩ := htroom hst hroom
      obtain ⟨hvst, hvcur, hvb, hva⟩ := hvroom hst hroom
      refine ⟨hvst.trans htst.symm, BitVec.eq_of_toNat_eq (hvcur.trans htcur.symm), hvw, hvcap, fun _ a ha => ?_⟩
      by_cases hac : a = s.decCur.toNat
      · rw [hac, htb, hvb]
      · rw [hta a hac, hva a hac, hdst hst a (by omega)]
    · obtain ⟨htst, htcur, -⟩ := htfull hst (BitVec.eq_of_toNat_eq hfull)
      obtain ⟨hvst, hvcur, -⟩ := hvfull hst (BitVec.eq_of_toNat_eq hfull)
      exact agrees_of_overrun htst hvst (hvcur.trans htcur.symm) hvw hvcap
  · obtain ⟨htst, htcur, -⟩ := htover hst
    obtain ⟨hvst, hvcur, -⟩ := hvover hst
    exact agrees_of_overrun htst hvst (hvcur.trans htcur.symm) hvw hvcap

/-- A Marker that ends a failed or empty frame does the same to both. -/
theorem State.Agrees.ingest_skipped (h : s.Agrees u) (hs : s.Inv) (hu : u.Inv)
    (hm : shiftWindow s.decW b = markerWord) (hskip : s.decStatus = .dstOverrun ∨ s.decCur = 3) :
    ∃ t v, execDecIngest b s = .next t ∧ execDecIngest b u = .next v ∧ RunsAlike s t u v ∧
      (s.decStatus = .dstOverrun → t.decLast = v.decLast) := by
  obtain ⟨t, ht, htstart, htcap, htlast, htr, htf, -⟩ := failedAndEmptyFramesAreSkipped s b hs hm hskip
  obtain ⟨v, hv, hvstart, hvcap, hvlast, hvr, hvf, -⟩ :=
    failedAndEmptyFramesAreSkipped u b hu (by rwa [h.decW]) (by rwa [h.decStatus, h.decCur])
  rw [h.decStatus] at hvlast
  refine ⟨t, v, ht, hv, ⟨agrees_of_atFrameStart htstart hvstart (by rw [htcap, hvcap, h.decCap]),
    ⟨[], by simp [htf], by simp [hvf]⟩, ⟨_, htr, hvr⟩, fun hl => ?_⟩, fun hov => ?_⟩
  · rw [htlast, hvlast, hl]
  · rw [htlast, hvlast, if_pos hov, if_pos hov]

/-- A Marker that ends any other frame walks the same chain in both, so both deliver the same payload or none, and
record the same outcome. -/
theorem State.Agrees.ingest_completed (h : s.Agrees u) (hs : s.Inv) (hu : u.Inv)
    (hm : shiftWindow s.decW b = markerWord) (hst : s.decStatus = .parsing) {c : Nat} (hcur : s.decCur.toNat = c + 3)
    (hc : 1 ≤ c) :
    ∃ t v, execDecIngest b s = .next t ∧ execDecIngest b u = .next v ∧ RunsAlike s t u v ∧ t.decLast = v.decLast := by
  obtain ⟨⟨links, st, hchain⟩, hends⟩ := completedFrameFollowsChain s b c hs hm hst hcur hc
  have hchain' : Chain u.fieldAt c 0 links st := hchain.congr fun k _ hk => h.fieldAt hst (by omega)
  obtain ⟨t, ht, htstart, htcap, htlast, htb, htgood, htbad, -⟩ := hends links st hchain
  obtain ⟨v, hv, hvstart, hvcap, hvlast, hvb, hvgood, hvbad, -⟩ :=
    (completedFrameFollowsChain u b c hu (by rwa [h.decW]) (h.decStatus.trans hst) (by rwa [h.decCur]) hc).2
      links st hchain'
  have hlast : t.decLast = v.decLast := htlast.trans hvlast.symm
  have hagree : t.Agrees v := agrees_of_atFrameStart htstart hvstart (by rw [htcap, hvcap, h.decCap])
  refine ⟨t, v, ht, hv, ?_, hlast⟩
  by_cases hclosed : st = .parsing
  · obtain ⟨htf, h4, htr⟩ := htgood hclosed
    obtain ⟨hvf, -, hvr⟩ := hvgood hclosed
    have hpayload : v.bytesAt .dst 4 (c - 4) = t.bytesAt .dst 4 (c - 4) := State.bytesAt_congr fun k hk => by
      rw [htb, hvb, restoredByte_congr (h.dst hst (4 + k) (by omega))]
    exact ⟨hagree, ⟨_, htf, by rw [hvf, hpayload]⟩, ⟨_, htr, hvr⟩, fun _ => hlast⟩
  · obtain ⟨htf, htr⟩ := htbad hclosed
    obtain ⟨hvf, hvr⟩ := hvbad hclosed
    exact ⟨hagree, ⟨[], by simp [htf], by simp [hvf]⟩, ⟨_, htr, hvr⟩, fun _ => hlast⟩

/-- In `s` the byte `b` ends a frame that has failed or is not empty, which sets DEC.LAST (R168, R173). -/
abbrev State.setsLast (s : State) (b : Byte) : Prop :=
  shiftWindow s.decW b = markerWord ∧ (s.decStatus = .dstOverrun ∨ s.decCur ≠ 3)

/-- Any byte does the same to both. -/
theorem State.Agrees.ingest (h : s.Agrees u) (hs : s.Inv) (hu : u.Inv) (b : Byte) :
    ∃ t v, execDecIngest b s = .next t ∧ execDecIngest b u = .next v ∧ RunsAlike s t u v ∧
      (s.setsLast b → t.decLast = v.decLast) := by
  by_cases hm : shiftWindow s.decW b = markerWord
  · by_cases hskip : s.decStatus = .dstOverrun ∨ s.decCur = 3
    · obtain ⟨t, v, ht, hv, halike, hlast⟩ := h.ingest_skipped hs hu hm hskip
      refine ⟨t, v, ht, hv, halike, fun ⟨_, hsets⟩ => ?_⟩
      rcases hskip with hov | hempty
      · exact hlast hov
      · exact hlast (hsets.resolve_right (not_not_intro hempty))
    · obtain ⟨hov, hne⟩ := not_or.1 hskip
      obtain ⟨-, -, -, ⟨hst, -⟩, hw, -⟩ := id hs
      have hst := hst.resolve_right hov
      have h3 := three_le_decCur hw hst hm
      have hne : s.decCur.toNat ≠ 3 := fun heq => hne (BitVec.eq_of_toNat_eq heq)
      obtain ⟨t, v, ht, hv, halike, hlast⟩ :=
        h.ingest_completed hs hu hm hst (c := s.decCur.toNat - 3) (by omega) (by omega)
      exact ⟨t, v, ht, hv, halike, fun _ => hlast⟩
  · obtain ⟨t, v, ht, hv, halike⟩ := h.ingest_of_no_marker hs hu hm
    exact ⟨t, v, ht, hv, halike, fun hsets => absurd hsets.1 hm⟩

end

/-! ### Byte lists -/

/-- Bytes do the same to both. -/
theorem State.Agrees.ingestAll {s u : State} (h : s.Agrees u) (hs : s.Inv) (hu : u.Inv) (bs : List Byte) :
    ∃ t v, ingestBytes bs s = .next t ∧ ingestBytes bs u = .next v ∧ t.Inv ∧ v.Inv ∧ RunsAlike s t u v := by
  induction bs generalizing s u with
  | nil => exact ⟨s, u, rfl, rfl, hs, hu, .refl h⟩
  | cons b bs ih =>
    obtain ⟨s1, u1, hs1, hu1, halike1, -⟩ := h.ingest hs hu b
    obtain ⟨t, v, ht, hv, hit, hiv, halike⟩ := ih halike1.agrees (execDecIngest_inv hs hs1) (execDecIngest_inv hu hu1)
    exact ⟨t, v, by rw [ingestBytes, exec, hs1, andThen_next, ht],
      by rw [ingestBytes, exec, hu1, andThen_next, hv], hit, hiv, halike1.trans halike⟩

/-- `s` is inside a frame that began with the bytes `pre`, failed or not. -/
structure State.InFrame (s : State) (pre : List Byte) : Prop where
  decW : s.decW = pre.foldl shiftWindow 0
  decCur : s.decStatus = .parsing → s.decCur.toNat = pre.length

theorem State.inFrame_nil {s : State} (h : s.atFrameStart) : s.InFrame [] := by
  obtain ⟨-, hcur, hw⟩ := h
  exact ⟨hw, fun _ => by simp [hcur]⟩

/-- The window after one more byte of a frame. -/
theorem State.InFrame.window_snoc {s : State} {pre : List Byte} (h : s.InFrame pre) (b : Byte) :
    shiftWindow s.decW b = (pre ++ [b]).foldl shiftWindow 0 := by
  rw [h.decW, List.foldl_append, List.foldl_cons, List.foldl_nil]

/-- A byte that completes no Marker stays in the frame. -/
theorem State.InFrame.ingest {s t : State} {pre : List Byte} {b : Byte} (h : s.InFrame pre) (hinv : s.Inv)
    (hm : (pre ++ [b]).foldl shiftWindow 0 ≠ markerWord) (ht : execDecIngest b s = .next t) :
    t.InFrame (pre ++ [b]) := by
  rw [← h.window_snoc b] at hm
  obtain ⟨-, -, ⟨-, -, hle⟩, ⟨hst, -⟩, -⟩ := id hinv
  obtain ⟨t', ht', hw, -, -, -, -, -, -, -, hroom, hfull, hover⟩ := ingestAccumulates s b hinv hm
  cases ht'.symm.trans ht
  refine ⟨hw.trans (h.window_snoc b), fun htst => ?_⟩
  rcases hst with hst | hst
  · rcases Nat.lt_or_eq_of_le hle with hlt | heq
    · obtain ⟨-, hcur, -⟩ := hroom hst hlt
      rw [hcur, h.decCur hst, List.length_append, List.length_singleton]
    · obtain ⟨hov, -⟩ := hfull hst (BitVec.eq_of_toNat_eq heq)
      rw [hov] at htst
      cases htst
  · obtain ⟨hov, -⟩ := hover hst
    rw [hov] at htst
    cases htst

/-- A Marker that is not the first thing of its frame sets DEC.LAST. -/
theorem State.InFrame.setsLast {s : State} {pre bs : List Byte} {b : Byte} (h : s.InFrame pre) (hinv : s.Inv)
    (hm : (pre ++ [b]).foldl shiftWindow 0 = markerWord) (hstart : startsWithMarker (pre ++ b :: bs) = false) :
    s.setsLast b := by
  obtain ⟨-, -, -, ⟨hst, -⟩, -⟩ := hinv
  refine ⟨(h.window_snoc b).trans hm, hst.symm.imp id fun hst heq => ?_⟩
  have hlen : pre.length = 3 := by rw [← h.decCur hst, heq]; rfl
  obtain ⟨-, hmarker⟩ := (foldl_shiftWindow_eq_marker _).1 hm
  rw [List.length_append, hlen, show 3 + [b].length - 4 = 0 from rfl, List.drop_zero] at hmarker
  rw [List.append_cons, hmarker, startsWithMarker_append] at hstart
  cases hstart

/-- Bytes that end a frame which does not begin with a Marker leave the same DEC.LAST in both: the first Marker among
them sets it, and what follows does the same to both. -/
theorem State.Agrees.decLast_of_frame {s u t v : State} {pre bs : List Byte} (h : s.Agrees u) (hs : s.Inv) (hu : u.Inv)
    (hin : s.InFrame pre) (hpre : pre.foldl shiftWindow 0 ≠ markerWord)
    (hend : (pre ++ bs).foldl shiftWindow 0 = markerWord) (hstart : startsWithMarker (pre ++ bs) = false)
    (ht : ingestBytes bs s = .next t) (hv : ingestBytes bs u = .next v) : t.decLast = v.decLast := by
  induction bs generalizing s u pre with
  | nil => exact absurd (by simpa using hend) hpre
  | cons b bs ih =>
    obtain ⟨s1, u1, hs1, hu1, halike, hlast⟩ := h.ingest hs hu b
    have hinv1 := execDecIngest_inv hs hs1
    have hinv1' := execDecIngest_inv hu hu1
    rw [ingestBytes, exec, hs1, andThen_next] at ht
    rw [ingestBytes, exec, hu1, andThen_next] at hv
    by_cases hm : (pre ++ [b]).foldl shiftWindow 0 = markerWord
    · obtain ⟨t', v', ht', hv', -, -, hrest⟩ := halike.agrees.ingestAll hinv1 hinv1' bs
      cases ht'.symm.trans ht
      cases hv'.symm.trans hv
      exact hrest.decLast (hlast (hin.setsLast hs hm hstart))
    · rw [List.append_cons] at hend hstart
      exact ih halike.agrees hinv1 hinv1' (hin.ingest hs hm hs1) hm hend hstart ht hv

/-- A list with bytes before its last four, which are the Marker's, begins with the Marker only if those bytes do. -/
theorem startsWithMarker_append_marker {frame : List Byte} (hne : frame ≠ []) (h : startsWithMarker frame = false) :
    startsWithMarker (frame ++ markerBytes) = false := by
  rw [Bool.eq_false_iff, ne_eq, startsWithMarker_iff] at h ⊢
  exact fun hm => h (occurrence_before_marker (k := 0) (List.length_pos_iff.2 hne) hm)

/-- From the start of a frame, with the same capacity: the same bytes give the same run, and the same DEC.LAST once they
end a frame that is not empty (R182). -/
theorem ingestBytes_alike {s u : State} (hs : s.Inv) (hu : u.Inv) (hss : s.atFrameStart) (hus : u.atFrameStart)
    (hcap : s.decCap = u.decCap) (bs : List Byte) :
    ∃ t v, ingestBytes bs s = .next t ∧ ingestBytes bs u = .next v ∧ RunsAlike s t u v ∧
      (endsNonEmptyFrame bs → t.decLast = v.decLast) := by
  have hagree := State.agrees_of_atFrameStart hss hus hcap.symm
  obtain ⟨t, v, ht, hv, -, -, halike⟩ := hagree.ingestAll hs hu bs
  refine ⟨t, v, ht, hv, halike, ?_⟩
  rintro ⟨n, frame, rest, hne, hstart, rfl⟩
  obtain ⟨s1, u1, hs1, hu1, hi1, hi1', halike1⟩ := hagree.ingestAll hs hu (List.replicate n markerBytes).flatten
  obtain ⟨s2, u2, hs2, hu2, hi2, hi2', halike2⟩ := halike1.agrees.ingestAll hi1 hi1' (frame ++ markerBytes)
  obtain ⟨t', v', ht', hv', -, -, halike3⟩ := halike2.agrees.ingestAll hi2 hi2' rest
  rw [ingestBytes_append_of_eq hs1, ingestBytes_append_of_eq hs2] at ht
  rw [ingestBytes_append_of_eq hu1, ingestBytes_append_of_eq hu2] at hv
  cases ht'.symm.trans ht
  cases hv'.symm.trans hv
  have hin := State.inFrame_nil (ingestBytes_markers hs hss n hs1)
  exact halike3.decLast (halike1.agrees.decLast_of_frame hi1 hi1' hin (by decide) (foldl_shiftWindow_marker frame 0)
    (startsWithMarker_append_marker hne hstart) hs2 hu2)

/-! ### The statements -/

/-- An accepted DEC_INIT leaves a decoder at the start of a frame, with DEC.LAST clear. -/
theorem exec_decInit_starts {s t : State} {cap : Word} (hinv : s.Inv) (hmin : 8 ≤ cap.toNat)
    (hmax : cap.toNat ≤ s.params.dstSize) (h : exec (.decInit cap) s = .next t) :
    t.Inv ∧ t.atFrameStart ∧ t.decCap = cap ∧ t.decLast = .parsing := by
  cases (exec_decInit_of_accepted hmin hmax).symm.trans h
  exact ⟨(hinv.decoderInit hmin hmax).respond _, ⟨rfl, rfl, rfl⟩, rfl, rfl⟩

/-- The run of a chunk is the run of its bytes (R162). -/
theorem runInputs_ingestChunk (bs : List Byte) {s : State} (href : s.refused = false) :
    runInputs (Pseudo.ingestChunk bs) s = ingestBytes bs s := by
  induction bs generalizing s with
  | nil => rfl
  | cons b bs ih =>
    rw [Pseudo.ingestChunk, List.map_cons, runInputs, applyInput_ofInstr href, ingestBytes]
    match h : exec (.decIngest b) s with
    | .next s1 => exact ih ((exec_effect h).refused.trans href)
    | .fault f => rfl
    | .refused r => exact absurd h execDecIngest_ne_refused

/-- Settles O45. -/
theorem decodingDependsOnlyOnBytes : Obligations.DecodingDependsOnlyOnBytes := by
  refine ⟨fun s u bs hs hu hss hus hcap => ?_, fun s u s0 u0 cap bs hs hu hmin hmax hmax' hs0 hu0 => ?_,
    fun s xs ys href => ⟨by rw [Pseudo.ingestChunk, Pseudo.ingestChunk, Pseudo.ingestChunk, List.map_append],
      runInputs_ingestChunk _ href⟩⟩
  · obtain ⟨t, v, ht, hv, ⟨hagree, ⟨es, hte, hve⟩, ⟨rs, htr, hvr⟩, hlast⟩, hframe⟩ :=
      ingestBytes_alike hs hu hss hus hcap bs
    exact ⟨t, v, es, rs, ht, hv, hte, hve, htr, hvr, hagree.decStatus.symm, hagree.decCur.symm, hagree.decW.symm,
      hagree.decCap.symm, Or.rec hlast hframe⟩
  · obtain ⟨hsi, hss, hscap, hslast⟩ := exec_decInit_starts hs hmin hmax hs0
    obtain ⟨hui, hus, hucap, hulast⟩ := exec_decInit_starts hu hmin hmax' hu0
    obtain ⟨t, v, ht, hv, ⟨hagree, -, -, hlast⟩, -⟩ := ingestBytes_alike hsi hui hss hus (hscap.trans hucap.symm) bs
    exact ⟨t, v, ht, hv, hagree.decStatus, hagree.decCur, hagree.decW, hagree.decCap,
      (hlast (hslast.trans hulast.symm)).symm⟩

/-- After any bytes and a Marker the decoder is at the start of a frame (R183). -/
theorem ingestBytes_resynchronises {s : State} (hinv : s.Inv) (garbage : List Byte) :
    ∃ t, ingestBytes (garbage ++ markerBytes) s = .next t ∧ t.Inv ∧ t.decCap = s.decCap ∧ t.atFrameStart := by
  obtain ⟨s1, h1, hinv1, hcap1⟩ := ingestBytes_completes hinv garbage
  obtain ⟨t, ht, hinvt, hcap, hstart⟩ := ingestBytes_marker hinv1
  exact ⟨t, by rw [ingestBytes_append_of_eq h1, ht], hinvt, hcap.trans hcap1, hstart⟩

/-- Settles O44: both decoders are at the start of a frame, with one capacity. -/
theorem markerResynchronises : Obligations.MarkerResynchronises := by
  intro s garbage hinv
  obtain ⟨-, -, ⟨hmin, hmax, -⟩, -⟩ := id hinv
  obtain ⟨t, ht, hinvt, hcap, hstart⟩ := ingestBytes_resynchronises hinv garbage
  have hv := exec_decInit_of_accepted hmin hmax
  obtain ⟨hinvv, hstartv, hcapv, -⟩ := exec_decInit_starts hinv hmin hmax hv
  obtain ⟨hdecode, -⟩ := decodingDependsOnlyOnBytes
  exact ⟨t, _, ht, hstart, hcap, hv, fun bs => hdecode t _ bs hinvt hinvv hstart hstartv (hcap.trans hcapv.symm)⟩

end Sys2Proof.Machine
end

section
/-! SUPPORT. The statements of file 43 (frame decoder) about encoded frames (R181, R183): the chain of an encoded frame
closes, and restoring its links gives the payload back. -/

namespace Sys2Proof.Machine

/-! ### The chain of an encoded frame -/

/-- A byte list of a memory is the memory's bytes at consecutive indices. -/
theorem State.bytesAt_eq_map (s : State) (m : MemId) (a n : Nat) :
    s.bytesAt m a n = (List.range' a n).map (s.byteAt m) := by
  induction n generalizing a with
  | zero => rfl
  | succ n ih => rw [bytesAt, List.range'_succ, List.map_cons, ih]

/-- Two byte lists that stand one behind the other in a memory. -/
theorem State.bytesAt_eq_append {s : State} {m : MemId} {a n : Nat} {xs ys : List Byte}
    (h : s.bytesAt m a (xs.length + n) = xs ++ ys) :
    s.bytesAt m a xs.length = xs ∧ s.bytesAt m (a + xs.length) n = ys := by
  rw [bytesAt_add] at h
  exact List.append_inj h (by simp)

/-- A field written for a distance is read back as that distance (R105). -/
theorem State.fieldAt_of_offsetField {s : State} {n d : Nat} (hd : d ≤ offsetMax)
    (h : s.bytesAt .dst n 4 = offsetField d) : (decodeOffset (s.fieldAt n)).toNat = d := by
  rw [fieldAt, h, decodeOffset_offsetField d hd]

/-- Where the Marker is restored its bytes stand. -/
theorem map_restoredByte_marker (links : List Nat) (before : Nat → Byte) (n : Nat) :
    (List.range' n 4).map (restoredByte (n :: links) before) = markerBytes := by
  apply List.ext_getElem (by simp [markerBytes])
  intro k hk hk'
  have hlt : k < 4 := by simpa using hk
  rw [List.getElem_map, List.getElem_range', restoredByte_cons_in _ _ (by omega)]
  simp [hk']

/-- Behind a link the restored bytes are those of the rest of the chain. -/
theorem map_restoredByte_behind (links : List Nat) (before : Nat → Byte) {n a : Nat} (len : Nat) (h : n + 4 ≤ a) :
    (List.range' a len).map (restoredByte (n :: links) before) =
      (List.range' a len).map (restoredByte links before) := by
  refine List.map_congr_left fun x hx => restoredByte_cons_out _ _ ?_
  obtain ⟨hle, -⟩ := List.mem_range'_1.1 hx
  omega

/-- Where a threaded payload stands in DST, the chain followed from its first link closes at its end, and restoring the
chain's links gives the payload back (R140 against R169 to R172). -/
theorem chain_of_threadedPayload {s : State} {c : Nat} (p : List Byte) {pos : Nat} (hpos : pos ≠ 0)
    (hend : pos + p.length = c) (hfit : ∀ d ∈ linkDistances p, d ≤ offsetMax)
    (h : s.bytesAt .dst pos p.length = threadedPayload p) :
    ∃ links, Chain s.fieldAt c (pos + distanceToNext p) links .parsing ∧
      (List.range' pos p.length).map (restoredByte links (s.byteAt .dst)) = p := by
  induction p using payload_induction generalizing pos with
  | nil => exact ⟨[], hend ▸ .closed, rfl⟩
  | marker rest ih =>
    have hlen : (markerBytes ++ rest).length = 4 + rest.length := List.length_append
    rw [linkDistances_marker, List.forall_mem_cons] at hfit
    obtain ⟨hd, hfit⟩ := hfit
    rw [threadedPayload_marker, hlen] at h
    rw [hlen] at hend
    obtain ⟨hfield, hrest⟩ := State.bytesAt_eq_append (xs := offsetField (distanceToNext rest)) h
    have hdist := State.fieldAt_of_offsetField hd hfield
    obtain ⟨links, hchain, hrestored⟩ := ih (pos := pos + 4) (by omega) (by omega) hfit hrest
    refine ⟨pos :: links, ?_, ?_⟩
    · have hlink := Chain.link (n := pos) (c := c) (links := links) (st := .parsing) (by omega) (hdist.trans_le hd)
        (by rwa [hdist, Nat.add_right_comm])
      rwa [if_neg hpos] at hlink
    · rw [hlen, ← List.range'_append_1, List.map_append, map_restoredByte_marker,
        map_restoredByte_behind _ _ _ (Nat.le_refl _), hrestored]
  | byte b rest hb ih =>
    rw [linkDistances_cons hb] at hfit
    rw [threadedPayload_cons hb] at h
    obtain ⟨hbyte, hrest⟩ := List.cons.inj h
    obtain ⟨links, hchain, hrestored⟩ := ih (pos := pos + 1) (by omega) (by simp at hend; omega) hfit hrest
    refine ⟨links, ?_, ?_⟩
    · rwa [distanceToNext_cons hb, Nat.add_comm (distanceToNext rest), ← Nat.add_assoc]
    · rw [List.length_cons, List.range'_succ, List.map_cons, hrestored, restoredByte_outside, hbyte]
      intro l hl
      have := hchain.le_of_mem l hl
      omega

/-- Where the head and the threaded payload of an encoded frame stand in `DST[0..L+4)`, the frame's chain closes, and
restoring its links gives the payload back. -/
theorem chain_of_encodedFrame {s : State} {p : List Byte} (hfit : distancesFit p)
    (h : s.bytesAt .dst 0 (4 + p.length) = offsetField (distanceToNext p) ++ threadedPayload p) :
    ∃ links, Chain s.fieldAt (p.length + 4) 0 links .parsing ∧
      (List.range' 4 p.length).map (restoredByte links (s.byteAt .dst)) = p := by
  obtain ⟨hd, hlinks⟩ := List.forall_mem_cons.1 hfit
  obtain ⟨hhead, hrest⟩ := State.bytesAt_eq_append (xs := offsetField (distanceToNext p)) h
  have hdist := State.fieldAt_of_offsetField hd hhead
  obtain ⟨links, hchain, hrestored⟩ :=
    chain_of_threadedPayload (c := p.length + 4) (pos := 0 + 4) p (by omega) (by omega) hlinks hrest
  refine ⟨links, ?_, hrestored⟩
  have hlink := Chain.link (n := 0) (c := p.length + 4) (links := links) (st := .parsing) (by omega)
    (hdist.trans_le hd) (by rwa [hdist, Nat.add_right_comm])
  rwa [if_pos rfl] at hlink

/-! ### Decoding an encoded frame -/

/-- An encoded frame without its last byte. -/
def frameBody (p : List Byte) : List Byte := offsetField (distanceToNext p) ++ threadedPayload p ++ markerBytes.take 3

theorem encodedFrame_eq_body (p : List Byte) : encodedFrame p = frameBody p ++ [0xCA] := by
  simp [encodedFrame, frameBody, markerBytes]

theorem length_frameBody (p : List Byte) : (frameBody p).length = p.length + 7 := by
  have := length_encodedFrame p
  rw [encodedFrame_eq_body, List.length_append, List.length_singleton] at this
  omega

/-- What stands before the Marker's three bytes: the head and the threaded payload. -/
theorem State.bytesAt_of_frameBody {s : State} {p : List Byte}
    (h : s.bytesAt .dst 0 (frameBody p).length = frameBody p) :
    s.bytesAt .dst 0 (4 + p.length) = offsetField (distanceToNext p) ++ threadedPayload p := by
  have hlen : (offsetField (distanceToNext p) ++ threadedPayload p).length = 4 + p.length := by simp
  rw [frameBody, List.length_append] at h
  rw [← hlen]
  exact (bytesAt_eq_append h).1

/-- An encoded frame without its last byte holds no Marker: the frame's only one is its foot (R147). -/
theorem frameBody_no_occurrence {p : List Byte} (hfit : distancesFit p) (k : Nat) :
    ((frameBody p).drop k).take 4 ≠ markerBytes := by
  intro hocc
  have hle : k + 4 ≤ (frameBody p).length := ((occurrence_iff_window _ k).1 hocc).1
  have hfoot : k = p.length + 4 := by
    refine (encodedFrameHasOneMarker p k hfit).1 ?_
    rw [encodedFrame_eq_body, take_drop_append_of_le hle, hocc]
  rw [length_frameBody] at hle
  omega

/-- From a clear window, the frame's last byte completes its Marker. -/
theorem encodedFrame_window (p : List Byte) : (frameBody p ++ [0xCA]).foldl shiftWindow 0 = markerWord := by
  rw [← encodedFrame_eq_body]
  exact foldl_shiftWindow_marker _ 0

/-- All bytes of an encoded frame but the last are accumulated and answered `(0, 0, 0)`. -/
theorem ingestBytes_frameBody {s : State} {p : List Byte} (hinv : s.Inv) (hstart : s.atFrameStart)
    (hfit : distancesFit p) (hroom : p.length + 7 ≤ s.decCap.toNat) :
    ∃ t, ingestBytes (frameBody p) s = .next t ∧ t.Inv ∧ s.Accumulated t (frameBody p) ∧
      t.responses = s.responses ++ List.replicate (p.length + 7) (accepted false 0) := by
  obtain ⟨-, -, ⟨-, hcap, -⟩, -⟩ := id hinv
  obtain ⟨t, ht, hacc⟩ := (State.accumulated_nil hstart).ingestAll (bs := frameBody p) (by simpa [length_frameBody])
    hcap (frameBody_no_occurrence hfit)
  obtain ⟨t', ht', hinvt, -⟩ := ingestBytes_completes hinv (frameBody p)
  cases ht'.symm.trans ht
  obtain ⟨-, -, hw⟩ := hstart
  obtain ⟨-, hresp⟩ := ingestBytes_of_no_marker (fun pre hpre _ => by
    rw [hw]; exact window_ne_marker_of_no_occurrence (frameBody_no_occurrence hfit) hpre) ht
  exact ⟨t, ht, hinvt, hacc, by rw [hresp, length_frameBody]⟩

/-- `Delivered s p t`: the encoded frame of `p`, ingested from the start of a frame in `s`, was delivered in `t`, on its
last byte (R181). -/
structure Delivered (s : State) (p : List Byte) (t : State) : Prop where
  inv : t.Inv
  start : t.atFrameStart
  decCap : t.decCap = s.decCap
  decLast : t.decLast = .parsing
  frames : t.frames = s.frames ++ [frameOf p]
  responses : t.responses =
    s.responses ++ (List.replicate (p.length + 7) (accepted false 0) ++ [accepted true (BitVec.ofNat 32 p.length)])

/-- An encoded frame that fits is delivered (R181). -/
theorem ingestBytes_encodedFrame {s : State} {p : List Byte} (hinv : s.Inv) (hstart : s.atFrameStart)
    (hfit : distancesFit p) (hroom : p.length + 7 ≤ s.decCap.toNat) :
    ∃ t, ingestBytes (encodedFrame p) s = .next t ∧ Delivered s p t := by
  obtain ⟨s1, hs1, hinv1, hacc, hquiet⟩ := ingestBytes_frameBody hinv hstart hfit hroom
  have hm : shiftWindow s1.decW 0xCA = markerWord := by
    have hw := encodedFrame_window p
    rwa [List.foldl_append, ← hacc.decW] at hw
  obtain ⟨links, hchain, hrestored⟩ := chain_of_encodedFrame hfit (State.bytesAt_of_frameBody hacc.dst)
  obtain ⟨t, ht, hstartt, hcapt, hlast, hbytes, hclosed, -⟩ :=
    (completedFrameFollowsChain s1 0xCA (p.length + 4) hinv1 hm hacc.decStatus
      (by rw [hacc.decCur, length_frameBody]) (by omega)).2 links .parsing hchain
  obtain ⟨hframes, -, hresp⟩ := hclosed rfl
  have hpayload : t.bytesAt .dst 4 p.length = p := by
    rw [State.bytesAt_eq_map, show t.byteAt .dst = _ from funext hbytes, hrestored]
  rw [Nat.add_sub_cancel, hpayload, hacc.frames] at hframes
  rw [Nat.add_sub_cancel, hquiet, List.append_assoc] at hresp
  refine ⟨t, ?_, execDecIngest_inv hinv1 ht, hstartt, hcapt.trans hacc.decCap, hlast, hframes, hresp⟩
  rw [encodedFrame_eq_body, ingestBytes_append_of_eq hs1, ingestBytes, ht]
  rfl

/-! ### The statements -/

/-- Settles O51: ENC_FRAME leaves the encoded frame in ENC, and it is delivered. -/
theorem roundTripThroughEncAndDst : Obligations.RoundTripThroughEncAndDst := by
  intro s len p hinv hp hcan hpay hstart hroom
  obtain ⟨m, hrun, hframe, -⟩ := exec_encFrame_of_canEncode hp hcan hpay
  generalize ht : (s.setMem .enc m).respond (accepted false (len + 8)) = t at hrun
  have hinvt : t.Inv := (exec_effect hrun).inv hinv
  have henc : t.bytesAt .enc 0 (len.toNat + 8) = encodedFrame p := by
    rw [← hframe, ← ht]
    exact State.bytesAt_congr fun _ _ => State.byteAt_respond ..
  have hdec : t.atFrameStart ∧ t.decCap = s.decCap ∧ t.frames = s.frames := ht ▸ ⟨hstart, rfl, rfl⟩
  obtain ⟨hstartt, hcap, hframes⟩ := hdec
  obtain ⟨u, hu, hdone⟩ := ingestBytes_encodedFrame hinvt hstartt hcan.2 (hcap ▸ hroom)
  have hlen : BitVec.ofNat 32 p.length = len := by rw [hp, BitVec.ofNat_toNat, BitVec.setWidth_eq]
  refine ⟨t, u, hrun, by rw [henc, hu], ?_, hdone.decLast, hdone.start, ?_⟩
  · rw [hdone.frames, hframes, frameOf, hlen]
  · rw [hdone.responses, hlen]
    rfl

/-- Settles O52, by induction on the payloads: every frame leaves the decoder at the start of the next. -/
theorem conformingStreamIsDelivered : Obligations.ConformingStreamIsDelivered := by
  intro s ps hinv hstart hps
  induction ps generalizing s with
  | nil => exact ⟨s, rfl, by simp, hstart, rfl, nofun⟩
  | cons p ps ih =>
    obtain ⟨⟨hfit, hroom⟩, hps⟩ := List.forall_mem_cons.1 hps
    obtain ⟨s1, h1, hdone⟩ := ingestBytes_encodedFrame hinv hstart hfit hroom
    obtain ⟨t, ht, hframes, hstartt, hcap, hlast⟩ := ih s1 hdone.inv hdone.start (by rwa [hdone.decCap])
    refine ⟨t, ?_, ?_, hstartt, hcap.trans hdone.decCap, fun _ => ?_⟩
    · rw [conformingStream, List.map_cons, List.flatten_cons, ingestBytes_append_of_eq h1]
      exact ht
    · rw [hframes, hdone.frames, List.map_cons, List.append_assoc, List.singleton_append]
    · cases ps with
      | nil => cases ht; exact hdone.decLast
      | cons => exact hlast (by simp)

/-- Settles O54: after the Marker the decoder is at the start of a frame. -/
theorem corruptionIsContained : Obligations.CorruptionIsContained := by
  intro s garbage p hinv hfit hroom
  obtain ⟨t, ht, hinvt, hcap, hstart⟩ := ingestBytes_resynchronises hinv garbage
  obtain ⟨u, hu, hdone⟩ := ingestBytes_encodedFrame hinvt hstart hfit (by rwa [hcap])
  exact ⟨t, u, ht, by rw [ingestBytes_append_of_eq ht, hu], hdone.frames, hdone.decLast, hdone.start⟩

end Sys2Proof.Machine
end

section
/-! SUPPORT. The statements of file 60 (exceptions): the walk error no input reaches (R204), what a rejection leaves alone
(R205), and the two refusals (R210). -/

namespace Sys2Proof.Machine

/-! ### Rejected commands (R205) -/

/-- ENC_FRAME of a frame longer than ENC is rejected (R75, R143). -/
theorem exec_encFrame_of_rejected {s : State} {len : Word} (h : s.params.encSize < len.toNat + 8) :
    exec (.encFrame len) s = .next s.reject := by
  have hout : encFrameRejected s len = true := by simpa [encFrameRejected] using h
  exact if_pos hout

/-- Settles O7: each of the three cases answers the state with the rejection's response added. -/
theorem rejectionChangesNothing : Obligations.RejectionChangesNothing := by
  intro s o h
  have hreject : o = .next s.reject := by
    rcases h with ⟨w, e, hd, rfl⟩ | ⟨cap, hcap, rfl⟩ | ⟨len, hlen, rfl⟩
    · exact runCommand_of_not_decode hd s
    · exact exec_decInit_of_rejected hcap
    · exact exec_encFrame_of_rejected hlen
  obtain ⟨hscan, hdec, hframes, -, -, hsurr⟩ := s.respond_frame rejection
  exact ⟨s.reject, hreject, rfl, hscan, hdec, hframes, rfl, rfl, hsurr⟩

/-! ### OFFSET_OUT_OF_BOUNDS is never reached (R171, R204) -/

/-- Neither the live status nor the last frame's outcome is OFFSET_OUT_OF_BOUNDS. -/
def State.InBounds (s : State) : Prop := s.decStatus ≠ .offsetOutOfBounds ∧ s.decLast ≠ .offsetOutOfBounds

/-- `InBounds` reads the two status registers only. -/
theorem State.InBounds.congr {s t : State} (h : s.InBounds) (hst : t.decStatus = s.decStatus)
    (hlast : t.decLast = s.decLast) : t.InBounds := by
  rwa [State.InBounds, hst, hlast]

/-- A decoder that starts afresh has no error. -/
theorem State.inBounds_of_parsing {t : State} (hst : t.decStatus = .parsing) (hlast : t.decLast = .parsing) :
    t.InBounds := by
  simp [State.InBounds, hst, hlast]

/-- DEC_INGEST keeps a status, moves one to DEC.LAST, or records another error: the walk's positions only rise, so its
defensive check never fails (R171). -/
theorem execDecIngest_inBounds {b : Byte} {s t : State} (hs : s.InBounds) (h : execDecIngest b s = .next t) :
    t.InBounds := by
  obtain ⟨hst, hlast⟩ := hs
  obtain ⟨m, st, cur, w, last, fs, flag, value, rfl, -, hlast', hst', -⟩ := execDecIngest_effect h
  constructor
  · rcases hst' with rfl | rfl | rfl
    · simp
    · simp
    · exact hst
  · rcases hlast' with rfl | rfl | rfl | rfl
    · exact hlast
    · exact hst
    · simp
    · simp

/-- Every command that completes keeps the two registers in bounds. -/
theorem CommandEffect.inBounds {i : Instr} {s t : State} (h : CommandEffect i s t) (hs : s.InBounds) : t.InBounds := by
  cases h with
  | ingests b _ _ h => exact execDecIngest_inBounds hs h
  | initialises => exact State.inBounds_of_parsing rfl rfl
  | responds => exact hs.congr rfl rfl
  | scans => exact hs.congr rfl rfl
  | encodes => exact hs.congr rfl rfl

/-- Every input that completes does: a reset clears them, and a host access leaves them alone. -/
theorem InputEffect.inBounds {x : Input} {s t : State} (h : InputEffect x s t) (hs : s.InBounds) : t.InBounds := by
  cases h with
  | resets => exact State.inBounds_of_parsing rfl rfl
  | runs _ heff => exact heff.inBounds hs
  | rejects => exact hs.congr rfl rfl
  | writes m => exact hs.congr (by simp) (by simp)
  | answers => exact hs.congr rfl rfl

/-- Settles O24. -/
theorem outOfBoundsIsNeverReached : Obligations.OutOfBoundsIsNeverReached :=
  fun _ _ _ hst hlast h => (applyInput_effect h).inBounds ⟨hst, hlast⟩

/-! ### The two refusals (R210) -/

/-- Only ENC_OFFSET and ENC_FRAME can be refused. -/
theorem exec_ne_refused {i : Instr} {s : State} {r : Refusal} (hoffset : ∀ v, i ≠ .encOffset v)
    (hframe : ∀ len, i ≠ .encFrame len) : exec i s ≠ .refused r := by
  intro h
  cases i with
  | encOffset v => exact hoffset v rfl
  | encFrame len => exact hframe len rfl
  | decIngest b => exact execDecIngest_ne_refused h
  | decInit cap =>
    by_cases hout : cap.toNat < 8 ∨ s.params.dstSize < cap.toNat
    · rw [exec_decInit_of_rejected hout] at h
      cases h
    · rw [exec_decInit_of_accepted (by omega) (by omega)] at h
      cases h
  | _ => cases h

/-- ENC_OFFSET is refused exactly above OFFSET_MAX (R107). -/
theorem exec_encOffset_refused_iff (v : Word) (s : State) :
    (∃ r, exec (.encOffset v) s = .refused r) ↔ offsetMax < v.toNat := by
  refine ⟨fun ⟨r, h⟩ => ?_, fun h => ⟨_, exec_encOffset_of_lt h s⟩⟩
  by_contra hle
  rw [exec_encOffset_of_le (Nat.not_lt.1 hle)] at h
  cases h

/-- ENC_FRAME is refused exactly when the frame fits and a distance of the payload in ENC is too long (R143, R144). -/
theorem exec_encFrame_refused_iff (len : Word) (s : State) :
    (∃ r, exec (.encFrame len) s = .refused r) ↔
      len.toNat + 8 ≤ s.params.encSize ∧ ∃ d ∈ chainDistances (s.bytesAt .enc 4 len.toNat), offsetMax < d := by
  by_cases hfit : len.toNat + 8 ≤ s.params.encSize
  · have hpay : s.holdsPayload (s.bytesAt .enc 4 len.toNat) := by rw [State.holdsPayload, State.length_bytesAt]
    rcases execEncFrame_spec s len _ (State.length_bytesAt ..) hfit hpay with ⟨hlong, hrefused⟩ | ⟨hshort, m, hrun, -⟩
    · exact ⟨fun _ => ⟨hfit, hlong⟩, fun _ => ⟨_, hrefused⟩⟩
    · refine ⟨fun ⟨r, h⟩ => ?_, fun ⟨_, d, hd, hlong⟩ => absurd (hshort d hd) (Nat.not_le.2 hlong)⟩
      cases hrun.symm.trans h
  · refine ⟨fun ⟨r, h⟩ => ?_, fun h => absurd h.1 hfit⟩
    rw [exec_encFrame_of_rejected (Nat.not_le.1 hfit)] at h
    cases h

/-- Presenting the word of a command that is refused ends the run with REFUSED set (R36). -/
theorem runInputs_ofInstr_of_refused {i : Instr} {s : State} {r : Refusal} (href : s.refused = false)
    (h : exec i s = .refused r) (xs : List Input) : runInputs (.ofInstr i :: xs) s = .next s.markRefused :=
  runInputs_of_refused ((applyInput_ofInstr href i).trans h) xs

/-- Settles O25. -/
theorem exactlyTwoRefusals : Obligations.ExactlyTwoRefusals := by
  refine fun i s => ⟨?_, fun href ⟨r, h⟩ => ⟨_, runInputs_ofInstr_of_refused href h [], rfl⟩⟩
  cases i with
  | encOffset v => simpa using exec_encOffset_refused_iff v s
  | encFrame len => simpa using exec_encFrame_refused_iff len s
  | _ => exact iff_of_false (fun ⟨r, h⟩ => exec_ne_refused (by simp) (by simp) h) (by simp)

end Sys2Proof.Machine
end

section
/-! SUPPORT. The statements of file 70 (reset and hazards): hardware reset (R230 to R232), an encoded frame that exceeds
the capacity (R244), and the run of a refused command (R252). -/

namespace Sys2Proof.Machine

/-! ### A frame beyond the capacity (R166, R244) -/

/-- Bytes that complete no Marker stay in the frame and emit nothing, whether or not there is room for them. -/
theorem State.InFrame.ingestAll {s t : State} {pre bs : List Byte} (h : s.InFrame pre) (hinv : s.Inv)
    (hm : ∀ k, ((pre ++ bs).drop k).take 4 ≠ markerBytes) (ht : ingestBytes bs s = .next t) :
    t.InFrame (pre ++ bs) ∧ t.frames = s.frames := by
  induction bs generalizing s pre with
  | nil => cases ht; exact ⟨by simpa using h, rfl⟩
  | cons b bs ih =>
    obtain ⟨s1, h1, ht⟩ := andThen_eq_next.1 ht
    rw [List.append_cons] at hm ⊢
    have hb : (pre ++ [b]).foldl shiftWindow 0 ≠ markerWord := window_ne_marker_of_no_occurrence hm ⟨bs, rfl⟩
    obtain ⟨-, -, -, hframes⟩ := execDecIngest_of_no_marker (h.window_snoc b ▸ hb) h1
    obtain ⟨hin, hsame⟩ := ih (h.ingest hinv hb h1) (execDecIngest_inv hinv h1) hm ht
    exact ⟨hin, hsame.trans hframes⟩

/-- Inside a frame of more bytes than DEC.CAP the decoder has recorded the overrun (R27, R166). -/
theorem State.InFrame.decStatus_of_beyond {s : State} {pre : List Byte} (h : s.InFrame pre) (hinv : s.Inv)
    (hbeyond : s.decCap.toNat < pre.length) : s.decStatus = .dstOverrun := by
  obtain ⟨-, -, ⟨-, -, hle⟩, ⟨hst, -⟩, -⟩ := hinv
  refine hst.resolve_left fun hparsing => ?_
  rw [h.decCur hparsing] at hle
  omega

/-- `Overrun s p t`: all bytes but the last of the encoded frame of `p`, ingested from the start of a frame in `s`, left
an overrun frame in `t` that the last byte ends. -/
structure Overrun (s : State) (p : List Byte) (t : State) : Prop where
  decStatus : t.decStatus = .dstOverrun
  lastByte : shiftWindow t.decW 0xCA = markerWord
  frames : t.frames = s.frames
  responses : t.responses = s.responses ++ List.replicate (p.length + 7) (accepted false 0)

/-- All bytes of an encoded frame but the last overrun a capacity below their number (R244). -/
theorem ingestBytes_frameBody_of_beyond {s : State} {p : List Byte} (hinv : s.Inv) (hstart : s.atFrameStart)
    (hfit : distancesFit p) (hbeyond : s.decCap.toNat < p.length + 7) :
    ∃ t, ingestBytes (frameBody p) s = .next t ∧ Overrun s p t := by
  obtain ⟨t, ht, hinvt, hcap⟩ := ingestBytes_completes hinv (frameBody p)
  obtain ⟨hin, hframes⟩ := (State.inFrame_nil hstart).ingestAll (bs := frameBody p) hinv
    (frameBody_no_occurrence hfit) ht
  obtain ⟨-, -, hw⟩ := hstart
  obtain ⟨-, hresp⟩ := ingestBytes_of_no_marker (fun pre hpre _ => by
    rw [hw]; exact window_ne_marker_of_no_occurrence (frameBody_no_occurrence hfit) hpre) ht
  refine ⟨t, ht, hin.decStatus_of_beyond hinvt ?_, ?_, hframes, by rw [hresp, length_frameBody]⟩
  · rwa [hcap, List.nil_append, length_frameBody]
  · exact (hin.window_snoc 0xCA).trans (encodedFrame_window p)

/-- An encoded frame ends where its last byte takes the decoder after all the others. -/
theorem ingestBytes_encodedFrame_of_body {s t u : State} {p : List Byte} (ht : ingestBytes (frameBody p) s = .next t)
    (hu : execDecIngest 0xCA t = .next u) : ingestBytes (encodedFrame p) s = .next u := by
  rw [encodedFrame_eq_body, ingestBytes_append_of_eq ht, ingestBytes, exec, hu]
  rfl

/-- Settles O53: the frame has overrun before its last byte, which drops it. -/
theorem frameBeyondCapacityOverruns : Obligations.FrameBeyondCapacityOverruns := by
  intro s p hinv hstart hfit hbeyond
  obtain ⟨t, ht, hover⟩ := ingestBytes_frameBody_of_beyond hinv hstart hfit hbeyond
  have hlast := execDecIngest_marker_of_failed hover.lastByte (by simp [hover.decStatus])
  refine ⟨_, ingestBytes_encodedFrame_of_body ht hlast, hover.frames, hover.decStatus, ⟨rfl, rfl, rfl⟩, ?_⟩
  rw [List.replicate_succ', ← List.append_assoc]
  exact congrArg (· ++ [accepted false 0]) hover.responses

/-! ### The run of a refused command (R252) -/

/-- Settles O55: a refused input ends the run, and a refused run takes no input but a reset. -/
theorem refusedRunEndsAsMarked : Obligations.RefusedRunEndsAsMarked := by
  rintro i s href ⟨r, h⟩
  exact ⟨runInputs_ofInstr_of_refused href h,
    fun x rest hx => applyInput_of_refused (s := (s.markRefused.setInput (x :: rest)).setInput rest) rfl hx⟩

/-! ### Hardware reset (R230 to R232) -/

/-- A step that takes the reset input resets the block, and leaves what waits behind it in the queue. -/
theorem step_of_reset {s : State} {rest : List Input} (h : s.input = .reset :: rest) :
    step s = .next (s.setInput rest).hardwareReset := by
  rw [step, h]
  rfl

/-- Settles O14. -/
theorem hardwareResetSetsEveryRegister : Obligations.HardwareResetSetsEveryRegister :=
  ⟨fun _ _ h => ⟨_, step_of_reset h, by simp [State.sameBytes]⟩, fun _ _ => by simp⟩

/-- Settles O15. -/
theorem hardwareResetStartsARun : Obligations.HardwareResetStartsARun :=
  fun _ _ h => ⟨_, step_of_reset h, rfl, rfl, rfl, rfl⟩

/-- Settles O16: a legal DST_SIZE is a capacity that DEC_INIT accepts, and right after reset no input waits. -/
theorem resetEqualsInitialisation : Obligations.ResetEqualsInitialisation := by
  intro s hp
  obtain ⟨hmin, hcap⟩ := Params.dstSize_of_wellFormed hp
  exact ⟨⟨_, exec_decInit_of_accepted (by rwa [hcap]) (by rw [hcap]), by simp [State.sameDecoder]⟩,
    ⟨_, _, rfl, rfl, by simp [State.sameScanner]⟩, fun p q => stepWaitsForTheHost _ (State.resetWith_input p q)⟩

end Sys2Proof.Machine
end
